-- ==== Sys2Proof/Word.lean ====
section
/-! DEFINITION. The two widths of the machine: 32-bit register values and 8-bit bytes. -/

namespace Sys2Proof

/-- A register value: 32 bits, unsigned (`10_state.md` R20, `00_scope.md` R10). -/
abbrev Word := BitVec 32

/-- One byte of MEM or of a byte string (`00_scope.md` R9, R12). -/
abbrev Byte := BitVec 8

end Sys2Proof
end

