-- ==== Sys2Proof/Syntax.lean ====
section
/-! DEFINITION. The thirteen commands of the engine, one constructor per row of the opcode table. -/

namespace Sys2Proof

/-- A command of the CFE (`30_encoding.md` R96).  Every operand but the immediate of CRC.BYTE is the
current value of a named register (R94); the immediate is an unsigned byte (R95), and its type admits
exactly the values the encoding admits. -/
inductive Instr where
  /-- NOP, `44_stream.md` R220. -/
  | nop
  /-- TAG.CHK, `40_tag.md` R128. -/
  | tagChk
  /-- TAG.LDS, `40_tag.md` R129. -/
  | tagLds
  /-- CRC.INIT, `41_crc.md` R150. -/
  | crcInit
  /-- CRC.BYTE imm8, `41_crc.md` R151. -/
  | crcByte (imm8 : Byte)
  /-- CRC.BUF, `41_crc.md` R152. -/
  | crcBuf
  /-- CRC.FIN, `41_crc.md` R153. -/
  | crcFin
  /-- CRC.CALC, `41_crc.md` R154. -/
  | crcCalc
  /-- FRM.PARSE, `42_frame_parse.md` R172. -/
  | frmParse
  /-- FRM.BUILD, `43_frame_build.md` R191. -/
  | frmBuild
  /-- SIG.CHK, `44_stream.md` R207. -/
  | sigChk
  /-- SIG.PUT, `44_stream.md` R208. -/
  | sigPut
  /-- STR.SCAN, `44_stream.md` R210. -/
  | strScan
  deriving DecidableEq, Repr

end Sys2Proof
end

