-- ==== Sys2Proof/WellFormed.lean ====
section
/-! DEFINITION. When a 32-bit word is a well-formed command word: the opcode table and the reserved-bit checks.

A term of `Instr` needs no check of its own: its one operand has exactly the values the encoding admits.
What can be ill formed is the WORD a host writes to CMD, by any of the three checks below. -/

namespace Sys2Proof

/-- One row of the opcode table: `w` selects the row iff `w & mask = pattern` (`30_encoding.md` R96,
whose column is called `match`). -/
structure OpRow where
  mnemonic : String
  pattern : Word
  mask : Word
  deriving DecidableEq, Repr

/-- `30_encoding.md` R96: a word selects a row iff it equals the row's pattern on the row's mask. -/
def OpRow.selects (r : OpRow) (w : Word) : Bool :=
  w &&& r.mask == r.pattern

/-- The rows of families 0 and 1 (tag and NOP, CRC) of `30_encoding.md` R96. -/
def opcodeRowsLow : List OpRow :=
  [ ⟨"NOP", 0x00000000#32, 0xFFFFFFFF#32⟩, ⟨"TAG.CHK", 0x00000001#32, 0xFFFFFFFF#32⟩,
    ⟨"TAG.LDS", 0x00000002#32, 0xFFFFFFFF#32⟩, ⟨"CRC.INIT", 0x00000010#32, 0xFFFFFFFF#32⟩,
    ⟨"CRC.BYTE", 0x00000011#32, 0xFFFF00FF#32⟩, ⟨"CRC.BUF", 0x00000012#32, 0xFFFFFFFF#32⟩,
    ⟨"CRC.FIN", 0x00000013#32, 0xFFFFFFFF#32⟩, ⟨"CRC.CALC", 0x00000014#32, 0xFFFFFFFF#32⟩ ]

/-- The rows of families 2 and 3 (frame, stream) of `30_encoding.md` R96. -/
def opcodeRowsHigh : List OpRow :=
  [ ⟨"FRM.PARSE", 0x00000020#32, 0xFFFFFFFF#32⟩, ⟨"FRM.BUILD", 0x00000021#32, 0xFFFFFFFF#32⟩,
    ⟨"SIG.CHK", 0x00000030#32, 0xFFFFFFFF#32⟩, ⟨"SIG.PUT", 0x00000031#32, 0xFFFFFFFF#32⟩,
    ⟨"STR.SCAN", 0x00000032#32, 0xFFFFFFFF#32⟩ ]

/-- The whole opcode table, `30_encoding.md` R96. -/
def opcodeTable : List OpRow := opcodeRowsLow ++ opcodeRowsHigh

/-- The mnemonic of a command, as `opcode_table.json` spells it. -/
def Instr.mnemonic : Instr → String
  | .nop => "NOP"
  | .tagChk => "TAG.CHK"
  | .tagLds => "TAG.LDS"
  | .crcInit => "CRC.INIT"
  | .crcByte _ => "CRC.BYTE"
  | .crcBuf => "CRC.BUF"
  | .crcFin => "CRC.FIN"
  | .crcCalc => "CRC.CALC"
  | .frmParse => "FRM.PARSE"
  | .frmBuild => "FRM.BUILD"
  | .sigChk => "SIG.CHK"
  | .sigPut => "SIG.PUT"
  | .strScan => "STR.SCAN"

/-- Check 1: the OP field, bits 7:0, is one of the thirteen assigned values (`30_encoding.md` R96, R98). -/
def opAssigned (w : Word) : Bool :=
  opcodeTable.any fun r => r.pattern.extractLsb' 0 8 == w.extractLsb' 0 8

/-- Check 2: bits 31:16 are zero, in both formats (`30_encoding.md` R94). -/
def highBitsZero (w : Word) : Bool :=
  w.extractLsb' 16 16 == 0#16

/-- Check 3: bits 15:8 are zero unless the word is format B, whose only OP is `0x11`
(`30_encoding.md` R94). -/
def midBitsAllowed (w : Word) : Bool :=
  w.extractLsb' 0 8 == 0x11#8 || w.extractLsb' 8 8 == 0#8

/-- A well-formed command word passes all three checks (`30_encoding.md` R94, R98). -/
def wordWellFormed (w : Word) : Bool :=
  opAssigned w && highBitsZero w && midBitsAllowed w

end Sys2Proof
end

