-- ==== Sys2Proof/Decode.lean ====
section
/-! DEFINITION. From the word written to CMD to a command or a named rejection, and the encoder. -/

namespace Sys2Proof

/-- Why a word is no command (`30_encoding.md` R98).  Each is raised as IllegalCommand by the machine. -/
inductive DecodeError where
  /-- Bits 31:16 are not all zero. -/
  | highBitsSet (bits : BitVec 16)
  /-- A format N opcode with bits 15:8 not all zero. -/
  | midBitsSet (op : Byte) (bits : Byte)
  /-- The OP value is not in the table. -/
  | unassignedOp (op : Byte)
  deriving DecidableEq, Repr

/-- The OP field, bits 7:0 (`30_encoding.md` R94). -/
def opField (w : Word) : Byte := w.extractLsb' 0 8

/-- The IMM8 field, bits 15:8 (`30_encoding.md` R94, R95): neither sign-extended nor scaled. -/
def immField (w : Word) : Byte := w.extractLsb' 8 8

/-- The reserved field, bits 31:16 (`30_encoding.md` R94). -/
def highField (w : Word) : BitVec 16 := w.extractLsb' 16 16

/-- Format N: bits 15:8 must be zero (`30_encoding.md` R94). -/
def formatN (w : Word) (i : Instr) : Except DecodeError Instr :=
  if immField w = 0#8 then .ok i else .error (.midBitsSet (opField w) (immField w))

/-- The opcode map by OP value (`30_encoding.md` R96); an OP not listed is rejected (R98). -/
def decodeOp (w : Word) : Except DecodeError Instr :=
  match (opField w).toNat with
  | 0x00 => formatN w .nop
  | 0x01 => formatN w .tagChk
  | 0x02 => formatN w .tagLds
  | 0x10 => formatN w .crcInit
  | 0x11 => .ok (.crcByte (immField w))
  | 0x12 => formatN w .crcBuf
  | 0x13 => formatN w .crcFin
  | 0x14 => formatN w .crcCalc
  | 0x20 => formatN w .frmParse
  | 0x21 => formatN w .frmBuild
  | 0x30 => formatN w .sigChk
  | 0x31 => formatN w .sigPut
  | 0x32 => formatN w .strScan
  | _ => .error (.unassignedOp (opField w))

/-- Decoding of any 32-bit word, total (`30_encoding.md` R97). -/
def decode (w : Word) : Except DecodeError Instr :=
  if highField w = 0#16 then decodeOp w else .error (.highBitsSet (highField w))

/-- Format N, written out: OP in bits 7:0, all else zero. -/
def wordN (op : Byte) : Word := 0#16 ++ 0#8 ++ op

/-- Format B, written out: OP in bits 7:0, IMM8 in bits 15:8, bits 31:16 zero. -/
def wordB (imm8 op : Byte) : Word := 0#16 ++ imm8 ++ op

/-- The command word of a command (`30_encoding.md` R94, R96). -/
def encode : Instr → Word
  | .nop => wordN 0x00#8
  | .tagChk => wordN 0x01#8
  | .tagLds => wordN 0x02#8
  | .crcInit => wordN 0x10#8
  | .crcByte imm8 => wordB imm8 0x11#8
  | .crcBuf => wordN 0x12#8
  | .crcFin => wordN 0x13#8
  | .crcCalc => wordN 0x14#8
  | .frmParse => wordN 0x20#8
  | .frmBuild => wordN 0x21#8
  | .sigChk => wordN 0x30#8
  | .sigPut => wordN 0x31#8
  | .strScan => wordN 0x32#8

/-- The word of an opcode-table row given as a number with `nbits` bits: a command is ONE 32-bit word
(`30_encoding.md` R94), so there are no bytes to lay out; bits above `nbits` are 0. -/
def tableWord (nbits w : Nat) : Word := BitVec.ofNat 32 (w % 2 ^ nbits)

/-- What the decoder reads from a row's bits, numbered as `opcode_table.json` numbers them. -/
def decodeTableWord (nbits w : Nat) : Option Instr :=
  match decode (tableWord nbits w) with
  | .ok i => some i
  | .error _ => none

end Sys2Proof
end

