-- ==== Sys2Proof/Config.lean ====
section
/-! DEFINITION. What an implementation fixes and the spec leaves open, read by no step of the machine. -/

namespace Sys2Proof

/-- `REG_BASE`: where the register file sits in a host's address map (`00_scope.md` R9, OPEN; D2).
No rule reads it, and it has no value here.  DESIGN CHOICE (log entry 6), safe. -/
opaque Config.regBase : Nat

/-- The text of a record's diagnostic display, from its length, tag, payload bytes and crc: its format is
not given (`45_host_container.md` R240; `93_implementation_defined.md` U5, any value).  DESIGN CHOICE (log entry 7), safe. -/
opaque Config.displayText : Word → List Byte → List Byte → Word → List Byte

end Sys2Proof
end

