-- ==== Sys2Proof/Machine/State.lean ====
section
/-! DEFINITION. The state of the machine as plain data, its names and values, and the state after reset. -/

namespace Sys2Proof.Machine

/-- The 19 registers, in the order of their numbers (`10_state.md` R20). -/
inductive Reg where
  | cmd | status | err | errOff | srcAddr | srcLen | rcur | dstAddr | dstCap | wcur
  | tag | tagFlags | recLen | recTag | recPay | recCrc | crcAcc | crcOut | count
  deriving DecidableEq, Repr

/-- The closed list of error kinds (`60_exceptions.md` R250, R251).  `noSuchChunk` and `notUtf8` arise
in the host-level functions only (`45_host_container.md` R243). -/
inductive ErrKind where
  | invalidTag | truncatedRecord | crcMismatch | badSignature | noSuchChunk | notUtf8
  | accessFault | illegalCommand
  deriving DecidableEq, Repr

/-- What a failing command reports: a kind and a source offset (`60_exceptions.md` R252). -/
structure Failure where
  kind : ErrKind
  off : Nat
  deriving DecidableEq, Repr

/-- Four bytes in wire order, byte 0 first (`20_memory.md` R70).  The raw operand of TAG and the value
of a constructed tag have this shape; `tagOk` says when it is a tag (`40_tag.md` R121). -/
structure Tag where
  b0 : Byte
  b1 : Byte
  b2 : Byte
  b3 : Byte
  deriving DecidableEq, Repr

/-- A chunk record: the tuple `(length, tag, payload, crc)` of `00_scope.md` R15. -/
structure Record where
  length : Word
  tag : Tag
  payload : List Byte
  crc : Word
  deriving DecidableEq, Repr

/-- One action on the machine from outside.  They form one total order (`20_memory.md` R72). -/
inductive Event where
  /-- The host reads register number `n` (`10_state.md` R21). -/
  | readReg (n : Nat)
  /-- The host writes a word to register number `n`; number 0 is CMD (`10_state.md` R21, R35). -/
  | writeReg (n : Nat) (v : Word)
  /-- A register access of fewer than four bytes, which `10_state.md` R21 leaves undefined. -/
  | narrowReg (offset : Nat) (bytes : Fin 4)
  /-- The host reads one byte of MEM (`20_memory.md` R64). -/
  | readMem (a : Nat)
  /-- The host writes one byte of MEM (`20_memory.md` R64). -/
  | writeMem (a : Nat) (b : Byte)
  /-- Reset, applied by the platform (`70_reset_and_hazards.md` R280).  MEM is unspecified after it
  (`10_state.md` R44), so the event carries arbitrary contents.  DESIGN CHOICE (log entry 5), safe. -/
  | reset (contents : List Host.Cell)
  deriving DecidableEq, Repr

/-- What a read returned to the host (`30_encoding.md` R100, `rd REG -> x`). -/
inductive Reply where
  | word (v : Word)
  | byte (b : Byte)
  deriving DecidableEq, Repr

/-- MEM as data: the bytes that differ from `Memory.fill`, addresses strictly rising. -/
abbrev Memory := List Host.Cell

/-- What an address that MEM does not list reads as.  The spec gives no reset contents
(`10_state.md` R44); with this byte fixed, every contents of MEM is exactly one canonical list.
DESIGN CHOICE (log entry 1), unsafe for a claim about `State.reset` alone. -/
def Memory.fill : Byte := 0x00#8

/-- The state.  CMD is not stored and STATUS is computed (`10_state.md` R34, R35); the other 17
registers and MEM are the whole state of the engine (R20).  The last three fields are the model's own:
the MEM size (a parameter, R60), the actions still to come, and the replies to the host's reads. -/
structure State where
  err : Word
  errOff : Word
  srcAddr : Word
  srcLen : Word
  rcur : Word
  dstAddr : Word
  dstCap : Word
  wcur : Word
  tag : Word
  tagFlags : Word
  recLen : Word
  recTag : Word
  recPay : Word
  recCrc : Word
  crcAcc : Word
  crcOut : Word
  count : Word
  mem : Memory
  /-- The address of the last byte of MEM: `MEM_BYTES = memLast + 1`, so `1 ≤ MEM_BYTES ≤ 2^32`
  (`20_memory.md` R60).  DESIGN CHOICE (log entry 2). -/
  memLast : Word
  /-- The actions still to come, oldest first.  DESIGN CHOICE (log entry 3). -/
  pending : List Event
  /-- What the host's reads returned, newest first.  DESIGN CHOICE (log entry 4). -/
  replies : List Reply
  deriving DecidableEq, Repr

/-- Why the machine stops with a fault. -/
inductive Fault where
  /-- Raised by a host MEM access at an address that is not in MEM (`20_memory.md` R60): no such byte
  exists.  Safe: the model stops where hardware might go on (log entry 8). -/
  | hostAddressOutsideMem (a : Nat)
  deriving DecidableEq, Repr

/-- Why an action has no meaning. -/
inductive Refusal where
  /-- Raised by `exec` for a command with no meaning yet.  Safe. -/
  | notModelled (mnemonic : String)
  /-- Raised by a register access narrower than 32 bits: "narrower register accesses are not defined
  and a model refuses them" (`10_state.md` R21, `93_implementation_defined.md` U12).  Safe. -/
  | narrowRegisterAccess (offset : Nat) (bytes : Fin 4)
  deriving DecidableEq, Repr

/-- The machine right after reset, for a MEM of any size and any contents: registers as
`10_state.md` R46 lists them, MEM a parameter of the launch state (R44). -/
def State.launch (memLast : Word) (mem : Memory) : State where
  err := 0#32
  errOff := 0#32
  srcAddr := 0#32
  srcLen := 0#32
  rcur := 0#32
  dstAddr := 0#32
  dstCap := 0#32
  wcur := 0#32
  tag := 0#32
  tagFlags := 0#32
  recLen := 0#32
  recTag := 0#32
  recPay := 0#32
  recCrc := 0#32
  crcAcc := 0xFFFFFFFF#32
  crcOut := 0#32
  count := 0#32
  mem := mem
  memLast := memLast
  pending := []
  replies := []

/-- The machine right after reset with nothing listed in MEM and `MEM_BYTES = 0x1000`, the convention
of `95_test_vectors.md`.  DESIGN CHOICE for MEM and its size (log entries 1, 2). -/
def State.reset : State := State.launch 0xFFF#32 []

end Sys2Proof.Machine
end

