-- ==== Sys2Proof/Machine/Ops.lean ====
section
/-! DEFINITION. The named operations over memory and registers, and the end of a command: success and error. -/

namespace Sys2Proof.Machine

/-! ## Memory -/

/-- `MEM_BYTES` (`20_memory.md` R60). -/
def memBytes (s : State) : Nat := s.memLast.toNat + 1

/-- The canonical form: addresses strictly rising, no entry equal to `Memory.fill`. -/
def Memory.wf : Memory → Bool
  | [] => true
  | [c] => c.2 != Memory.fill
  | c :: d :: m => c.2 != Memory.fill && decide (c.1 < d.1) && Memory.wf (d :: m)

/-- Every listed address is below `n`. -/
def Memory.below (n : Nat) (m : Memory) : Bool := m.all fun c => decide (c.1 < n)

/-- The byte at address `a`: `MEM[a]`.  A read changes nothing (`20_memory.md` R60). -/
def Memory.load : Memory → Nat → Byte
  | [], _ => Memory.fill
  | c :: m, a => if c.1 = a then c.2 else Memory.load m a

/-- The memory after `MEM[a] <- b`, in canonical form. -/
def Memory.store : Memory → Nat → Byte → Memory
  | [], a, b => if b = Memory.fill then [] else [(a, b)]
  | c :: m, a, b =>
    if a < c.1 then
      if b = Memory.fill then c :: m else (a, b) :: c :: m
    else if a = c.1 then
      if b = Memory.fill then m else (a, b) :: m
    else c :: Memory.store m a b

/-- `MemRead(addr, n)`: n byte reads in ascending address order (`20_memory.md` R62). -/
def memRead (m : Memory) (addr n : Nat) : List Byte :=
  (List.range' addr n).map m.load

/-- `MemWrite(addr, len(bs), bs)`: byte writes in ascending address order (`20_memory.md` R63). -/
def memWrite (m : Memory) (addr : Nat) : List Byte → Memory
  | [] => m
  | b :: bs => memWrite (m.store addr b) (addr + 1) bs

/-- The canonical memory that a list of cells describes, a later cell over an earlier one, cells at
addresses that are not in MEM left out. -/
def Memory.ofCells (n : Nat) (cells : List Host.Cell) : Memory :=
  cells.foldl (fun m c => if c.1 < n then m.store c.1 c.2 else m) []

/-! ## The end of a command -/

/-- `code(K)` (`60_exceptions.md` R251). -/
def ErrKind.code : ErrKind → Word
  | .invalidTag => 1#32
  | .truncatedRecord => 2#32
  | .crcMismatch => 3#32
  | .badSignature => 4#32
  | .noSuchChunk => 5#32
  | .notUtf8 => 6#32
  | .accessFault => 7#32
  | .illegalCommand => 8#32

/-- `raise K(off)`: ERR and ERR_OFF are written and nothing else changes (`60_exceptions.md` R253). -/
def raiseError (k : ErrKind) (off : Nat) (s : State) : State :=
  { s with err := k.code, errOff := BitVec.ofNat 32 off }

/-- `done`: the end of a command that succeeds (`00_scope.md` R14, `10_state.md` R38). -/
def complete (s : State) : State :=
  { s with err := 0#32, errOff := 0#32 }

/-- How every command ends: with its results and `done`, or with `raise` on the state it started from
(`10_state.md` R38). -/
def conclude (s : State) : Except Failure State → Host.Outcome State Fault Refusal
  | .error f => .next (raiseError f.kind f.off s)
  | .ok s' => .next (complete s')

/-- A word that is no command: `raise IllegalCommand(0)` (`30_encoding.md` R98). -/
def illegalCommand (s : State) : Host.Outcome State Fault Refusal :=
  conclude s (.error ⟨.illegalCommand, 0⟩)

/-! ## Reset -/

/-- Reset during a run: every register at the value of `10_state.md` R46, MEM at the arbitrary contents
the event carries (R44).  The size of MEM, and the host's own actions and replies, are not the engine's. -/
def resetEngine (contents : List Host.Cell) (s : State) : State :=
  { State.launch s.memLast (Memory.ofCells (memBytes s) contents) with
    pending := s.pending, replies := s.replies }

end Sys2Proof.Machine
end

