-- ==== Sys2Proof/Machine/Operands.lean ====
section
/-! DEFINITION. Operand forms: byte strings, big-endian words, tags as bytes, and the two windows with their checks. -/

namespace Sys2Proof.Machine

/-! ## Byte strings and big-endian words -/

/-- `s[a,b)`: the bytes of indices `a <= i < b` (`00_scope.md` R12). -/
def sub (s : List Byte) (a b : Nat) : List Byte := (s.drop a).take (b - a)

/-- `be32`: four bytes in ascending address order as one big-endian number (`00_scope.md` R13). -/
def be32 (b0 b1 b2 b3 : Byte) : Word := b0 ++ b1 ++ b2 ++ b3

/-- `be32(s[i], s[i+1], s[i+2], s[i+3])`, used only where the four bytes are there. -/
def be32At (s : List Byte) (i : Nat) : Word :=
  be32 (s.getD i 0#8) (s.getD (i + 1) 0#8) (s.getD (i + 2) 0#8) (s.getD (i + 3) 0#8)

/-- `be32_bytes(v) = [v[31:24], v[23:16], v[15:8], v[7:0]]` (`00_scope.md` R13). -/
def be32Bytes (v : Word) : List Byte :=
  [v.extractLsb' 24 8, v.extractLsb' 16 8, v.extractLsb' 8 8, v.extractLsb' 0 8]

/-! ## Tags as bytes -/

/-- The four bytes of a tag in wire order (`20_memory.md` R70). -/
def Tag.bytes (t : Tag) : List Byte := [t.b0, t.b1, t.b2, t.b3]

/-- A tag packed in a register: `be32(t[0], t[1], t[2], t[3])` (`10_state.md` R24). -/
def Tag.toWord (t : Tag) : Word := be32 t.b0 t.b1 t.b2 t.b3

/-- The first four bytes of a string, used only where the string has exactly four. -/
def Tag.ofBytes (s : List Byte) : Tag :=
  ⟨s.getD 0 0#8, s.getD 1 0#8, s.getD 2 0#8, s.getD 3 0#8⟩

/-- `is_letter(b)`: A to Z or a to z (`40_tag.md` R120). -/
def isLetter (b : Byte) : Bool :=
  (decide (0x41 ≤ b.toNat) && decide (b.toNat ≤ 0x5A)) ||
  (decide (0x61 ≤ b.toNat) && decide (b.toNat ≤ 0x7A))

/-- `tag_ok(t)`: exactly four bytes, each a letter (`40_tag.md` R121). -/
def tagOk (s : List Byte) : Bool := s.length == 4 && s.all isLetter

/-- Constructing a tag from a byte string succeeds iff `tag_ok` (`40_tag.md` R121). -/
def constructTag (s : List Byte) : Except ErrKind Tag :=
  if tagOk s then .ok (Tag.ofBytes s) else .error .invalidTag

/-! ## The source window -/

/-- `SrcOK`, sums in the naturals (`20_memory.md` R66). -/
def srcOk (s : State) : Bool :=
  decide (s.rcur.toNat ≤ s.srcLen.toNat) &&
  decide (s.srcAddr.toNat + s.srcLen.toNat ≤ memBytes s)

/-- `avail = R[SRC_LEN] - R[RCUR]` (`20_memory.md` R65), used only where `SrcOK` holds. -/
def avail (s : State) : Nat := s.srcLen.toNat - s.rcur.toNat

/-- `B = R[SRC_ADDR] + R[RCUR]`: the address of byte 0 of the slice (`20_memory.md` R65, R77). -/
def sliceBase (s : State) : Nat := s.srcAddr.toNat + s.rcur.toNat

/-- `Slice()`: the remaining source slice (`20_memory.md` R65). -/
def slice (s : State) : List Byte := memRead s.mem (sliceBase s) (avail s)

/-- The source window check in front of a command that reads it: a bad window raises AccessFault(0),
even where no byte would be read (`20_memory.md` R66). -/
def withSource (s : State) (body : Except Failure State) : Except Failure State :=
  if srcOk s then body else .error ⟨.accessFault, 0⟩

/-! ## The destination window -/

/-- `W = R[DST_ADDR] + R[WCUR]` (`20_memory.md` R77). -/
def writeBase (s : State) : Nat := s.dstAddr.toNat + s.wcur.toNat

/-- `DstOK(n)`, sums in the naturals (`20_memory.md` R67). -/
def dstOk (s : State) (n : Nat) : Bool :=
  decide (s.dstAddr.toNat + s.dstCap.toNat ≤ memBytes s) &&
  decide (s.wcur.toNat + n ≤ s.dstCap.toNat)

/-- The ranges `[a, a+n)` and `[b, b+m)` share an address. -/
def rangesMeet (a n b m : Nat) : Bool :=
  decide (0 < n) && decide (0 < m) && decide (a < b + m) && decide (b < a + n)

/-! ## The register file as the host sees it -/

/-- The register's number (`10_state.md` R20). -/
def Reg.number : Reg → Nat
  | .cmd => 0
  | .status => 1
  | .err => 2
  | .errOff => 3
  | .srcAddr => 4
  | .srcLen => 5
  | .rcur => 6
  | .dstAddr => 7
  | .dstCap => 8
  | .wcur => 9
  | .tag => 10
  | .tagFlags => 11
  | .recLen => 12
  | .recTag => 13
  | .recPay => 14
  | .recCrc => 15
  | .crcAcc => 16
  | .crcOut => 17
  | .count => 18

/-- The register of a number, none for 19 and above (`10_state.md` R21). -/
def Reg.ofNumber : Nat → Option Reg
  | 0 => some .cmd
  | 1 => some .status
  | 2 => some .err
  | 3 => some .errOff
  | 4 => some .srcAddr
  | 5 => some .srcLen
  | 6 => some .rcur
  | 7 => some .dstAddr
  | 8 => some .dstCap
  | 9 => some .wcur
  | 10 => some .tag
  | 11 => some .tagFlags
  | 12 => some .recLen
  | 13 => some .recTag
  | 14 => some .recPay
  | 15 => some .recCrc
  | 16 => some .crcAcc
  | 17 => some .crcOut
  | 18 => some .count
  | _ => none

/-- The register's byte offset from `REG_BASE` (`10_state.md` R20). -/
def Reg.offset (r : Reg) : Nat := 4 * r.number

/-- The register's address in a host's map; no rule reads it (`00_scope.md` R9, D2). -/
def Reg.hostAddress (r : Reg) : Nat := Config.regBase + r.offset

end Sys2Proof.Machine
end

