-- ==== Sys2Proof/Machine/Flags.lean ====
section
/-! DEFINITION. The two sets of flags, STATUS and TAGFLAGS, and register access by the host.

There are no arithmetic condition codes (`10_state.md` R33). -/

namespace Sys2Proof.Machine

/-! ## The tag flags -/

/-- `critical(t)`: bit 5 of byte 0 is clear (`40_tag.md` R122). -/
def Tag.critical (t : Tag) : Bool := !t.b0.getLsbD 5

/-- `public(t)`: bit 5 of byte 1 is clear (`40_tag.md` R123). -/
def Tag.isPublic (t : Tag) : Bool := !t.b1.getLsbD 5

/-- `reserved_ok(t)`: bit 5 of byte 2 is clear (`40_tag.md` R124). -/
def Tag.reservedOk (t : Tag) : Bool := !t.b2.getLsbD 5

/-- `safe_to_copy(t)`: bit 5 of byte 3 is SET (`40_tag.md` R125). -/
def Tag.safeToCopy (t : Tag) : Bool := t.b3.getLsbD 5

/-- `is_valid(t)`, the looser verdict the spec preserves (`40_tag.md` R126, `90_conflicts.md` C3). -/
def Tag.isValid (t : Tag) : Bool := t.reservedOk

/-- `strict_ok(t)`, informational only (`40_tag.md` R127). -/
def Tag.strictOk (t : Tag) : Bool := t.reservedOk && !(t.critical && t.safeToCopy)

/-- `flags(t)`, the TAGFLAGS value of a constructed tag (`40_tag.md` R132). -/
def Tag.flags (t : Tag) : Word :=
  BitVec.ofNat 32 (2 ^ 31 + 32 * t.strictOk.toNat + 16 * t.isValid.toNat
    + 8 * t.safeToCopy.toNat + 4 * t.reservedOk.toNat + 2 * t.isPublic.toNat + t.critical.toNat)

/-! ## STATUS -/

/-- ERRF: the last command failed (`10_state.md` R34). -/
def errf (s : State) : Bool := s.err != 0#32

/-- EOS: the read cursor is at the end of the source window (`10_state.md` R34). -/
def eos (s : State) : Bool := s.rcur == s.srcLen

/-- STATUS, computed at the time of the read; BUSY and the reserved bits are 0 (`10_state.md` R34). -/
def statusWord (s : State) : Word := BitVec.ofNat 32 (2 * (errf s).toNat + 4 * (eos s).toNat)

/-! ## Register access -/

/-- `R[NAME]` as a read returns it: CMD reads 0, STATUS is computed (`10_state.md` R20, R34, R35). -/
def readReg (s : State) : Reg → Word
  | .cmd => 0#32
  | .status => statusWord s
  | .err => s.err
  | .errOff => s.errOff
  | .srcAddr => s.srcAddr
  | .srcLen => s.srcLen
  | .rcur => s.rcur
  | .dstAddr => s.dstAddr
  | .dstCap => s.dstCap
  | .wcur => s.wcur
  | .tag => s.tag
  | .tagFlags => s.tagFlags
  | .recLen => s.recLen
  | .recTag => s.recTag
  | .recPay => s.recPay
  | .recCrc => s.recCrc
  | .crcAcc => s.crcAcc
  | .crcOut => s.crcOut
  | .count => s.count

/-- A host read by number: 19 and above read 0 (`10_state.md` R21). -/
def hostRead (s : State) (n : Nat) : Word :=
  match Reg.ofNumber n with
  | some r => readReg s r
  | none => 0#32

/-- A host write to a register other than CMD: a read/write register takes the value, a read-only
register ignores it (`10_state.md` R20, R21, R22).  A write to CMD starts a command and is not this. -/
def writeReg (s : State) (v : Word) : Reg → State
  | .srcAddr => { s with srcAddr := v }
  | .srcLen => { s with srcLen := v }
  | .rcur => { s with rcur := v }
  | .dstAddr => { s with dstAddr := v }
  | .dstCap => { s with dstCap := v }
  | .wcur => { s with wcur := v }
  | .tag => { s with tag := v }
  | .crcAcc => { s with crcAcc := v }
  | .cmd => s
  | .status => s
  | .err => s
  | .errOff => s
  | .tagFlags => s
  | .recLen => s
  | .recTag => s
  | .recPay => s
  | .recCrc => s
  | .crcOut => s
  | .count => s

end Sys2Proof.Machine
end

