-- ==== Sys2Proof/Machine/Frame.lean ====
section
/-! DEFINITION. Records as byte strings, the frame parser FRM.PARSE and the frame builder FRM.BUILD
(`42_frame_parse.md`, `43_frame_build.md`). -/

namespace Sys2Proof.Machine

/-! ## The functions -/

/-- `new_record(tag, payload)`, for payloads of fewer than 2^32 bytes (`43_frame_build.md` R190). -/
def newRecord (t : Tag) (payload : List Byte) : Record where
  length := BitVec.ofNat 32 payload.length
  tag := t
  payload := payload
  crc := recordCrc t payload

/-- `serialize(length, tag, payload, crc)`: the stored crc is written, not recomputed
(`30_encoding.md` R91, `43_frame_build.md` R192). -/
def serialize (x : Record) : List Byte :=
  be32Bytes x.length ++ x.tag.bytes ++ x.payload ++ be32Bytes x.crc

/-- `parse_record(s)`: the eight steps, the first failing step deciding; the sum of step 3 is taken in
the naturals (`42_frame_parse.md` R170, R175). -/
def parseRecord (s : List Byte) : Except ErrKind Record :=
  if s.length < 12 then .error .truncatedRecord
  else
    let length := be32At s 0
    let n := length.toNat
    if 8 + n + 4 > s.length then .error .truncatedRecord
    else
      match constructTag (sub s 4 8) with
      | .error k => .error k
      | .ok t =>
        let payload := sub s 8 (8 + n)
        let stored := be32At s (8 + n)
        if recordCrc t payload = stored then .ok ⟨length, t, payload, stored⟩
        else .error .crcMismatch

/-! ## The commands -/

/-- FRM.PARSE: parse and verify one record at the read cursor and step past it
(`42_frame_parse.md` R172).  The payload stays where it lies (R181). -/
def execFrmParse (s : State) : Host.Outcome State Fault Refusal :=
  conclude s <| withSource s <|
    match parseRecord (slice s) with
    | .error k => .error ⟨k, s.rcur.toNat⟩
    | .ok x => .ok { s with
        recLen := x.length
        recTag := x.tag.toWord
        recPay := BitVec.ofNat 32 (sliceBase s + 8)
        recCrc := x.crc
        tagFlags := x.tag.flags
        rcur := BitVec.ofNat 32 (s.rcur.toNat + 12 + x.length.toNat) }

/-- FRM.BUILD: construct a record from TAG and the remaining slice and store its serialised form at the
write cursor; the checks in the order of `43_frame_build.md` R191, the overlap check as
`20_memory.md` R68. -/
def execFrmBuild (s : State) : Host.Outcome State Fault Refusal :=
  conclude s <| withSource s <|
    match constructTag (be32Bytes s.tag) with
    | .error k => .error ⟨k, 0⟩
    | .ok t =>
      let n := avail s
      if dstOk s (12 + n) then
        if rangesMeet (sliceBase s) n (writeBase s) (12 + n) then .error ⟨.accessFault, 0⟩
        else
          let x := newRecord t (slice s)
          .ok { s with
            mem := memWrite s.mem (writeBase s) (serialize x)
            recLen := x.length
            recTag := s.tag
            recPay := BitVec.ofNat 32 (writeBase s + 8)
            recCrc := x.crc
            tagFlags := t.flags
            wcur := BitVec.ofNat 32 (s.wcur.toNat + 12 + n) }
      else .error ⟨.accessFault, 0⟩

end Sys2Proof.Machine
end

