-- ==== Sys2Proof/Machine/Stream.lean ====
section
/-! DEFINITION. The signature and the stream: SIG.CHK, SIG.PUT, STR.SCAN, and NOP (`44_stream.md`). -/

namespace Sys2Proof.Machine

/-! ## The functions -/

/-- `SIG` (`44_stream.md` R205). -/
def sig : List Byte :=
  [0x89#8, 0x50#8, 0x4E#8, 0x47#8, 0x0D#8, 0x0A#8, 0x1A#8, 0x0A#8]

/-- `sig_ok(s)`: at least eight bytes, the first eight equal to `SIG` (`44_stream.md` R206). -/
def sigOk (s : List Byte) : Bool := decide (8 ≤ s.length) && (s.take 8 == sig)

/-- The loop of `parse_stream` from offset `cur` (`44_stream.md` R209), for at most `turns` turns; each
turn takes 12 bytes or more (R211), so `s.length` turns are always enough. -/
def parseRecords : Nat → List Byte → Nat → Except Failure (List Record)
  | 0, _, _ => .ok []
  | turns + 1, s, cur =>
    if cur < s.length then
      match parseRecord (s.drop cur) with
      | .error k => .error ⟨k, cur⟩
      | .ok x =>
        match parseRecords turns s (cur + 12 + x.length.toNat) with
        | .error f => .error f
        | .ok xs => .ok (x :: xs)
    else .ok []

/-- `parse_stream(s)` (`44_stream.md` R209). -/
def parseStream (s : List Byte) : Except Failure (List Record) :=
  if sigOk s then parseRecords s.length s 8 else .error ⟨.badSignature, 0⟩

/-- `serialize_stream(chunks)` (`44_stream.md` R216). -/
def serializeStream (chunks : List Record) : List Byte :=
  sig ++ chunks.flatMap serialize

/-! ## The commands -/

/-- SIG.CHK: check the signature at the read cursor and step past it (`44_stream.md` R207). -/
def execSigChk (s : State) : Host.Outcome State Fault Refusal :=
  conclude s <| withSource s <|
    if sigOk (slice s) then .ok { s with rcur := BitVec.ofNat 32 (s.rcur.toNat + 8) }
    else .error ⟨.badSignature, s.rcur.toNat⟩

/-- SIG.PUT: store the signature at the write cursor (`44_stream.md` R208). -/
def execSigPut (s : State) : Host.Outcome State Fault Refusal :=
  conclude s <|
    if dstOk s 8 then
      .ok { s with
        mem := memWrite s.mem (writeBase s) sig
        wcur := BitVec.ofNat 32 (s.wcur.toNat + 8) }
    else .error ⟨.accessFault, 0⟩

/-- STR.SCAN: validate the whole remaining slice as a stream and count its records
(`44_stream.md` R210). -/
def execStrScan (s : State) : Host.Outcome State Fault Refusal :=
  conclude s <| withSource s <|
    match parseStream (slice s) with
    | .error f => .error ⟨f.kind, s.rcur.toNat + f.off⟩
    | .ok chunks => .ok { s with count := BitVec.ofNat 32 chunks.length, rcur := s.srcLen }

/-- NOP: `done` and nothing else (`44_stream.md` R220). -/
def execNop (s : State) : Host.Outcome State Fault Refusal :=
  conclude s (.ok s)

end Sys2Proof.Machine
end

