-- ==== Sys2Proof/Machine/Tag.lean ====
section
/-! DEFINITION. The tag unit: TAG.CHK and TAG.LDS (`40_tag.md`). -/

namespace Sys2Proof.Machine

/-- TAG.CHK: construct a tag from the TAG register (`40_tag.md` R128). -/
def execTagChk (s : State) : Host.Outcome State Fault Refusal :=
  conclude s <|
    match constructTag (be32Bytes s.tag) with
    | .error k => .error ⟨k, 0⟩
    | .ok t => .ok { s with tagFlags := t.flags }

/-- TAG.LDS: construct a tag from the string that is the remaining slice; the length test comes before
the letter test, and RCUR is not advanced (`40_tag.md` R129). -/
def execTagLds (s : State) : Host.Outcome State Fault Refusal :=
  conclude s <| withSource s <|
    if avail s = 4 then
      match constructTag (memRead s.mem (sliceBase s) 4) with
      | .error k => .error ⟨k, s.rcur.toNat⟩
      | .ok t => .ok { s with tag := t.toWord, tagFlags := t.flags }
    else .error ⟨.invalidTag, s.rcur.toNat⟩

end Sys2Proof.Machine
end

