-- ==== Sys2Proof/Machine/Dispatch.lean ====
section
/-! DEFINITION. One arm per command of the opcode table. -/

namespace Sys2Proof.Machine

/-- The effect of a command on the state (`30_encoding.md` R96). -/
def exec (i : Instr) (s : State) : Host.Outcome State Fault Refusal :=
  match i with
  | .nop => Sys2Proof.Machine.execNop s
  | .tagChk => Sys2Proof.Machine.execTagChk s
  | .tagLds => Sys2Proof.Machine.execTagLds s
  | .crcInit => Sys2Proof.Machine.execCrcInit s
  | .crcByte imm8 => Sys2Proof.Machine.execCrcByte imm8 s
  | .crcBuf => Sys2Proof.Machine.execCrcBuf s
  | .crcFin => Sys2Proof.Machine.execCrcFin s
  | .crcCalc => Sys2Proof.Machine.execCrcCalc s
  | .frmParse => Sys2Proof.Machine.execFrmParse s
  | .frmBuild => Sys2Proof.Machine.execFrmBuild s
  | .sigChk => Sys2Proof.Machine.execSigChk s
  | .sigPut => Sys2Proof.Machine.execSigPut s
  | .strScan => Sys2Proof.Machine.execStrScan s

end Sys2Proof.Machine
end

