-- ==== Sys2Proof/Machine/HostPort.lean ====
section
/-! DEFINITION. What each action from outside does: the fetch of a command is the host's write to CMD. -/

namespace Sys2Proof.Machine

/-- A write of `w` to CMD: the command that `w` encodes runs to completion, and a word that encodes none
raises IllegalCommand(0); the word is not stored (`10_state.md` R35, `30_encoding.md` R97, R98). -/
def runWord (w : Word) (s : State) : Host.Outcome State Fault Refusal :=
  match decode w with
  | .ok i => exec i s
  | .error _ => illegalCommand s

/-- A host write of one word by register number: CMD starts a command, numbers 19 and above are
ignored (`10_state.md` R21, R22). -/
def hostWrite (n : Nat) (v : Word) (s : State) : Host.Outcome State Fault Refusal :=
  match Reg.ofNumber n with
  | some .cmd => runWord v s
  | some r => .next (writeReg s v r)
  | none => .next s

/-- One action on the machine (`00_scope.md` R17, `20_memory.md` R72).  Reads change nothing of the
engine; their results go to the host. -/
def runEvent (e : Event) (s : State) : Host.Outcome State Fault Refusal :=
  match e with
  | .readReg n => .next { s with replies := .word (hostRead s n) :: s.replies }
  | .writeReg n v => hostWrite n v s
  | .narrowReg offset bytes => .refused (.narrowRegisterAccess offset bytes)
  | .readMem a =>
    if a < memBytes s then .next { s with replies := .byte (s.mem.load a) :: s.replies }
    else .fault (.hostAddressOutsideMem a)
  | .writeMem a b =>
    if a < memBytes s then .next { s with mem := s.mem.store a b }
    else .fault (.hostAddressOutsideMem a)
  | .reset contents => .next (resetEngine contents s)

/-- The oldest action still to come is taken and performed; with none left the engine is idle and keeps
all its state (`60_exceptions.md` R263). -/
def runPending (s : State) : Host.Outcome State Fault Refusal :=
  match s.pending with
  | [] => .next s
  | e :: rest => runEvent e { s with pending := rest }

end Sys2Proof.Machine
end

