-- ==== Sys2Proof/Machine/Step.lean ====
section
/-! DEFINITION. One step: one action of the total order of `20_memory.md` R72. -/

namespace Sys2Proof.Machine

/-- One step. -/
def step (s : State) : Host.Outcome State Fault Refusal := runPending s

/-- The state whose next action is the host's write of the given word to CMD.  There is no program
counter and no fetch (`10_state.md` R30): a command exists only as the value the host writes to CMD.
See log entry 3. -/
def State.withFetchWord (s : State) (nbits w : Nat) : State :=
  { s with pending := .writeReg 0 (tableWord nbits w) :: s.pending }

end Sys2Proof.Machine
end

