-- ==== Sys2Proof/Machine/Script.lean ====
section
/-! DEFINITION. The host script notation and its encoding as bus writes (`30_encoding.md` R100, R101). -/

namespace Sys2Proof.Machine

/-- A statement of a host script.  `expect`, `while` and `if` are no actions of the CFE (R100). -/
inductive Stmt where
  /-- `wr REG, v`. -/
  | wr (r : Reg) (v : Nat)
  /-- `rd REG`. -/
  | rd (r : Reg)
  /-- `mem addr: b0 b1 ...`. -/
  | mem (addr : Nat) (bytes : List Byte)
  /-- A mnemonic: `wr CMD, <match value>`. -/
  | cmd (i : Instr)
  /-- `crc.byte v`: `wr CMD, 0x11 + (v << 8)`, `0 <= v <= 255`. -/
  | crcByteOf (v : Nat)
  /-- `src addr, len`. -/
  | src (addr len : Nat)
  /-- `dst addr, cap`. -/
  | dst (addr cap : Nat)
  /-- `tag "abcd"`, the text as its byte string. -/
  | tagOf (text : List Byte)
  deriving DecidableEq, Repr

/-- A value fits a register write (`30_encoding.md` R100: "host write of 32-bit value v"). -/
def fitsWord (v : Nat) : Bool := decide (v < 2 ^ 32)

/-- The operands a statement may have: 32-bit register values, an immediate of at most 255, a text of
four bytes (`30_encoding.md` R100, R101). -/
def Stmt.wf : Stmt → Bool
  | .wr _ v => fitsWord v
  | .rd _ => true
  | .mem _ _ => true
  | .cmd _ => true
  | .crcByteOf v => decide (v ≤ 255)
  | .src addr len => fitsWord addr && fitsWord len
  | .dst addr cap => fitsWord addr && fitsWord cap
  | .tagOf text => text.length == 4

/-- `wr REG, v` as an action. -/
def wrEvent (r : Reg) (v : Nat) : Event := .writeReg r.number (BitVec.ofNat 32 v)

/-- The byte writes of a `mem` statement, ascending. -/
def memEvents (addr : Nat) : List Byte → List Event
  | [] => []
  | b :: bs => .writeMem addr b :: memEvents (addr + 1) bs

/-- The host actions of a statement, in order (`30_encoding.md` R100, R101). -/
def Stmt.events : Stmt → List Event
  | .wr r v => [wrEvent r v]
  | .rd r => [.readReg r.number]
  | .mem addr bytes => memEvents addr bytes
  | .cmd i => [.writeReg Reg.cmd.number (encode i)]
  | .crcByteOf v => [wrEvent .cmd (0x11 + v * 2 ^ 8)]
  | .src addr len => [wrEvent .srcAddr addr, wrEvent .srcLen len, wrEvent .rcur 0]
  | .dst addr cap => [wrEvent .dstAddr addr, wrEvent .dstCap cap, wrEvent .wcur 0]
  | .tagOf text => [.writeReg Reg.tag.number (be32At text 0)]

/-- The host actions of a straight-line script. -/
def scriptEvents (script : List Stmt) : List Event := script.flatMap Stmt.events

/-- The register bus write of an action, `(offset, value)`, if it is one (`30_encoding.md` R100). -/
def Event.busWrite : Event → Option (Nat × Word)
  | .writeReg n v => some (4 * n, v)
  | .readReg _ => none
  | .narrowReg _ _ => none
  | .readMem _ => none
  | .writeMem _ _ => none
  | .reset _ => none

/-- The encoding of a straight-line script: the list of its register bus writes in order
(`30_encoding.md` R100). -/
def busWrites (script : List Stmt) : List (Nat × Word) :=
  (scriptEvents script).filterMap Event.busWrite

/-- The machine with a script before it: its actions stand in front of those still to come. -/
def State.withScript (s : State) (script : List Stmt) : State :=
  { s with pending := scriptEvents script ++ s.pending }

end Sys2Proof.Machine
end

