-- ==== Sys2Proof/Machine/Container.lean ====
section
/-! DEFINITION. The host-level reference functions of `45_host_container.md`: no command reaches them. -/

namespace Sys2Proof.Machine

/-- A container: the signature and an ordered list of records (`45_host_container.md` R230). -/
structure Container where
  signature : List Byte
  chunks : List Record
  deriving DecidableEq, Repr

/-- A record in the sense of `00_scope.md` R15: the length counts the payload, the tag is four letters,
and the crc covers tag and payload. -/
def Record.valid (x : Record) : Bool :=
  decide (x.length.toNat = x.payload.length) && tagOk x.tag.bytes && (x.crc == recordCrc x.tag x.payload)

/-- The container invariant, `signature = SIG` (`45_host_container.md` R230), with every chunk a record. -/
def Container.valid (c : Container) : Bool := (c.signature == sig) && c.chunks.all Record.valid

/-- `new_record` at host level: a payload of 2^32 bytes or more is refused
(`93_implementation_defined.md` U17). -/
def hostNewRecord (t : Tag) (payload : List Byte) : Option Record :=
  if payload.length < 2 ^ 32 then some (newRecord t payload) else none

/-- `empty_container = (SIG, [])` (`45_host_container.md` R231). -/
def emptyContainer : Container := ⟨sig, []⟩

/-- A container from the bytes of a stream: the one constructor of the source
(`45_host_container.md` R231 (a)). -/
def parseContainer (s : List Byte) : Except Failure Container :=
  match parseStream s with
  | .error f => .error f
  | .ok chunks => .ok ⟨sig, chunks⟩

/-- `append(c, x)`: the record goes to the end, always (`45_host_container.md` R232). -/
def Container.append (c : Container) (x : Record) : Container :=
  { c with chunks := c.chunks ++ [x] }

/-- A record's tag renders to the given text: the four bytes are compared, case-sensitive
(`40_tag.md` R130, `45_host_container.md` R233).  A text is its byte string (`00_scope.md` R12). -/
def Record.named (str : List Byte) (x : Record) : Bool := x.tag.bytes == str

/-- `chunk_by_type(c, str)`: the first record with that tag, or none, which is NotFound and no error
(`45_host_container.md` R233). -/
def Container.chunkByType (c : Container) (str : List Byte) : Option Record :=
  c.chunks.find? (Record.named str)

/-- `remove_by_type(c, str)`: the first match deleted, or NoSuchChunk (`45_host_container.md` R234).
It gives the new container only (`93_implementation_defined.md` U7). -/
def Container.removeByType (c : Container) (str : List Byte) : Except ErrKind Container :=
  match c.chunkByType str with
  | none => .error .noSuchChunk
  | some _ => .ok { c with chunks := c.chunks.eraseP (Record.named str) }

/-- `serialize_container(c)` (`45_host_container.md` R235). -/
def Container.serialize (c : Container) : List Byte :=
  c.signature ++ c.chunks.flatMap Machine.serialize

/-- `payload_as_text(x)`: the text is its byte string, and `utf8Valid` is the open parameter of a host
model (`45_host_container.md` R238, D27).  The diagnostic log line is omitted (R239, U2). -/
def payloadAsText (utf8Valid : List Byte → Bool) (x : Record) : Except ErrKind (List Byte) :=
  if utf8Valid x.payload then .ok x.payload else .error .notUtf8

/-- The display of a record renders `(length, tag, payload, crc)` as a text that the spec leaves open
(`45_host_container.md` R240, U5).  No command and no stream depends on it. -/
def Record.display (x : Record) : List Byte :=
  Config.displayText x.length x.tag.bytes x.payload x.crc

/-- A byte is in a range. -/
def byteIn (lo hi : Nat) (b : Byte) : Bool := decide (lo ≤ b.toNat) && decide (b.toNat ≤ hi)

/-- Whether `b0 b1 b2` is a well-formed three-byte sequence (`93_implementation_defined.md` G4). -/
def utf8Three (b0 b1 b2 : Byte) : Bool :=
  ((byteIn 0xE0 0xE0 b0 && byteIn 0xA0 0xBF b1) ||
   (byteIn 0xE1 0xEC b0 && byteIn 0x80 0xBF b1) ||
   (byteIn 0xED 0xED b0 && byteIn 0x80 0x9F b1) ||
   (byteIn 0xEE 0xEF b0 && byteIn 0x80 0xBF b1)) && byteIn 0x80 0xBF b2

/-- Whether `b0 b1 b2 b3` is a well-formed four-byte sequence (`93_implementation_defined.md` G4). -/
def utf8Four (b0 b1 b2 b3 : Byte) : Bool :=
  ((byteIn 0xF0 0xF0 b0 && byteIn 0x90 0xBF b1) ||
   (byteIn 0xF1 0xF3 b0 && byteIn 0x80 0xBF b1) ||
   (byteIn 0xF4 0xF4 b0 && byteIn 0x80 0x8F b1)) && byteIn 0x80 0xBF b2 && byteIn 0x80 0xBF b3

/-- The usual definition of valid UTF-8, the suggested value of the open parameter
(`93_implementation_defined.md` G4), for at most `turns` sequences. -/
def utf8Sequences : Nat → List Byte → Bool
  | _, [] => true
  | 0, _ :: _ => false
  | turns + 1, b0 :: rest =>
    if byteIn 0x00 0x7F b0 then utf8Sequences turns rest
    else match rest with
      | b1 :: rest1 =>
        if byteIn 0xC2 0xDF b0 && byteIn 0x80 0xBF b1 then utf8Sequences turns rest1
        else match rest1 with
          | b2 :: rest2 =>
            if utf8Three b0 b1 b2 then utf8Sequences turns rest2
            else match rest2 with
              | b3 :: rest3 => utf8Four b0 b1 b2 b3 && utf8Sequences turns rest3
              | [] => false
          | [] => false
      | [] => false

/-- Well-formed UTF-8 (`93_implementation_defined.md` G4).  PRESUMED (log entry 7), read by no command. -/
def utf8Usual (s : List Byte) : Bool := utf8Sequences s.length s

end Sys2Proof.Machine
end

