-- ==== Sys2Proof/Safety.lean ====
section
/-! DEFINITION. What claims are stated in: legal states, safe actions, and the host's parse loop. -/

namespace Sys2Proof.Machine

/-- The values the engine ever writes to ERR (`10_state.md` R36). -/
def errLegal (w : Word) : Bool :=
  w == 0#32 || w == 1#32 || w == 2#32 || w == 3#32 || w == 4#32 || w == 7#32 || w == 8#32

/-- The HELD bit: a tag has been constructed since reset (`10_state.md` R40). -/
def held (w : Word) : Bool := w.getLsbD 31

/-- The values TAGFLAGS can have: 0 at reset, else HELD set, bits 30:6 clear, IS_VALID equal to
RESERVED_OK, and STRICT_OK as `10_state.md` R40 computes it from the other bits. -/
def tagFlagsLegal (w : Word) : Bool :=
  w == 0#32 ||
  (held w && (w.extractLsb' 6 25 == 0#25) && (w.getLsbD 4 == w.getLsbD 2) &&
    (w.getLsbD 5 == (w.getLsbD 2 && !(w.getLsbD 0 && w.getLsbD 3))))

/-- The record registers name no record: all four are 0, as reset leaves them (`10_state.md` R26). -/
def noRecord (s : State) : Bool :=
  s.recLen == 0#32 && s.recTag == 0#32 && s.recPay == 0#32 && s.recCrc == 0#32

/-- The record registers name a record: REC_TAG is a tag, and a tag has been constructed
(`10_state.md` R26, R40). -/
def recordNamed (s : State) : Bool := tagOk (be32Bytes s.recTag) && held s.tagFlags

/-- The legal states.  Every run keeps them from reset on; no bound relates the host's own operand
registers, which may hold any value (`10_state.md` R23). -/
structure State.Inv (s : State) : Prop where
  /-- MEM is in canonical form. -/
  memCanonical : s.mem.wf = true
  /-- MEM lists no address at or above `MEM_BYTES` (`20_memory.md` R60). -/
  memInRange : s.mem.below (memBytes s) = true
  /-- ERR holds a legal value (`10_state.md` R36). -/
  errCode : errLegal s.err = true
  /-- ERR_OFF is 0 when ERR is 0 (`10_state.md` R37). -/
  errOffset : s.err = 0#32 → s.errOff = 0#32
  /-- TAGFLAGS is 0 or the flags of a tag (`10_state.md` R40). -/
  tagFlagsForm : tagFlagsLegal s.tagFlags = true
  /-- The record registers are all 0, or they name a record (`10_state.md` R26). -/
  recordForm : (noRecord s || recordNamed s) = true

/-- An action the spec gives a meaning to on a MEM of `n` bytes: no host MEM access outside MEM
(`20_memory.md` R60), no narrow register access (`10_state.md` R21). -/
def Event.meaningful (n : Nat) : Event → Bool
  | .readReg _ => true
  | .writeReg _ _ => true
  | .narrowReg _ _ => false
  | .readMem a => decide (a < n)
  | .writeMem a _ => decide (a < n)
  | .reset _ => true

/-- A safe state: every action still to come has a meaning. -/
def State.safe (s : State) : Bool := s.pending.all (Event.meaningful (memBytes s))

/-- The host's loop `while STATUS.EOS = 0 and ERR = 0 { frm.parse }` (`44_stream.md` R212): from the
first state, after the given number of successful FRM.PARSE commands, it ends in the last. -/
inductive ParseLoop : State → Nat → State → Prop where
  /-- The condition is false: the loop ends where it stands. -/
  | stop (s : State) (h : (!eos s && !errf s) = false) : ParseLoop s 0 s
  /-- A FRM.PARSE fails: ERR is set, and the loop ends after it. -/
  | fail (s t : State) (h : (!eos s && !errf s) = true) (run : exec .frmParse s = .next t)
      (bad : errf t = true) : ParseLoop s 0 t
  /-- A FRM.PARSE succeeds, and the loop goes on. -/
  | turn (s t u : State) (n : Nat) (h : (!eos s && !errf s) = true)
      (run : exec .frmParse s = .next t) (good : errf t = false) (rest : ParseLoop t n u) :
      ParseLoop s (n + 1) u

/-- A digest in progress (`41_crc.md` R147): from the first state, the bytes of the string are fed by
CRC.BYTE and CRC.BUF in any mixture, and between the pieces anything may happen that leaves CRC_ACC. -/
inductive Digest : State → List Byte → State → Prop where
  | done (s : State) : Digest s [] s
  | byte (s t u : State) (b : Byte) (bs : List Byte) (run : exec (.crcByte b) s = .next t)
      (rest : Digest t bs u) : Digest s (b :: bs) u
  | buf (s t u : State) (bs : List Byte) (window : srcOk s = true) (run : exec .crcBuf s = .next t)
      (rest : Digest t bs u) : Digest s (slice s ++ bs) u
  | between (s t u : State) (bs : List Byte) (kept : t.crcAcc = s.crcAcc) (rest : Digest t bs u) :
      Digest s bs u

end Sys2Proof.Machine
end

