-- ==== Sys2Proof/Certificates/Slice0/Obligations.lean ====
section
/-! DEFINITION. The statements about the machine.  Each docstring names the rule of spec/ it formalises. -/

open Sys2Proof Sys2Proof.Machine

/-! ## Encoding and decoding -/

/-- A word decodes to a command exactly when it is that command's encoding: no bit of an encoding is
dropped, and no word but the encoding of a command decodes (`30_encoding.md` R94, R96, R97). -/
def Obligations.DecodeIffEncode : Prop :=
  ∀ (w : Word) (i : Instr), decode w = .ok i ↔ w = encode i

/-- `30_encoding.md` R97: a row that matches decides the command that runs, no two rows match one word
(the patterns differ in bits 7:0, which every mask includes), and no row means IllegalCommand. -/
def Obligations.OpcodeTableDecidesDecoding : Prop :=
  ∀ (w : Word),
    (∀ r ∈ opcodeTable, r.selects w = true →
      ∃ i : Instr, i.mnemonic = r.mnemonic ∧ decode w = .ok i ∧
        ∀ s : State, runEvent (.writeReg 0 w) s = exec i s) ∧
    (∀ r ∈ opcodeTable, ∀ r' ∈ opcodeTable,
      (r.mask.extractLsb' 0 8 = 0xFF#8) ∧
      (r ≠ r' → r.pattern.extractLsb' 0 8 ≠ r'.pattern.extractLsb' 0 8) ∧
      (r.selects w = true → r'.selects w = true → r = r')) ∧
    ((∀ r ∈ opcodeTable, r.selects w = false) → ∀ s : State,
      runEvent (.writeReg 0 w) s = .next { s with err := 8#32, errOff := 0#32 })

/-- `30_encoding.md` R98: which words are illegal, and that writing one to CMD raises
IllegalCommand(0), nothing else changing. -/
def Obligations.IllegalWordRaisesIllegalCommand : Prop :=
  ∀ (w : Word),
    ((∀ r ∈ opcodeTable, r.selects w = false) ↔
      (let op := (w.extractLsb' 0 8).toNat
       (0x03 ≤ op ∧ op ≤ 0x0F) ∨ (0x15 ≤ op ∧ op ≤ 0x1F) ∨ (0x22 ≤ op ∧ op ≤ 0x2F) ∨ 0x33 ≤ op ∨
       w.extractLsb' 16 16 ≠ 0#16 ∨ (op ≠ 0x11 ∧ w.extractLsb' 8 8 ≠ 0#8))) ∧
    ((∀ r ∈ opcodeTable, r.selects w = false) → ∀ (s : State) (rest : List Event),
      s.pending = .writeReg 0 w :: rest →
      step s = .next { s with pending := rest, err := 8#32, errOff := 0#32 })

/-- A step whose next action is the host's write of `w` to CMD runs the command that `w` encodes, on the
state with that action taken; the word is not stored, so a read of CMD gives 0 (`10_state.md` R35). -/
def Obligations.StepRunsDecodedCommand : Prop :=
  (∀ (s : State) (w : Word) (i : Instr) (rest : List Event),
    s.pending = .writeReg 0 w :: rest → decode w = .ok i →
    step s = exec i { s with pending := rest }) ∧
  (∀ (s : State) (rest : List Event), s.pending = .readReg 0 :: rest →
    step s = .next { s with pending := rest, replies := .word 0#32 :: s.replies })

/-- A few words written out from `30_encoding.md` R94 and R96 decode to the commands they stand for. -/
def Obligations.WrittenWordsDecode : Prop :=
  decode 0x00000000#32 = .ok .nop ∧
  decode 0x00000002#32 = .ok .tagLds ∧
  decode 0x00005411#32 = .ok (.crcByte 0x54#8) ∧
  decode 0x00000012#32 = .ok .crcBuf ∧
  decode 0x00000021#32 = .ok .frmBuild ∧
  decode 0x00000030#32 = .ok .sigChk

/-! ## The host's side -/

/-- `10_state.md` R46: what every register reads after reset, for a MEM of any size and any contents,
both in the state a run starts from and after a reset event (`70_reset_and_hazards.md` R280).  That reset is
an event, and that it keeps `memLast`, `pending` and `replies`, is the model's choice (log entry 5), which
R46 does not say. -/
def Obligations.ResetLeavesListedValues : Prop :=
  (∀ (memLast : Word) (mem : Memory),
    (List.range 19).map (hostRead (State.launch memLast mem)) =
      [0#32, 4#32, 0#32, 0#32, 0#32, 0#32, 0#32, 0#32, 0#32, 0#32, 0#32, 0#32, 0#32, 0#32, 0#32, 0#32,
       0xFFFFFFFF#32, 0#32, 0#32] ∧
    (State.launch memLast mem).mem = mem) ∧
  (∀ (s : State) (contents : List Host.Cell), ∃ t : State,
    runEvent (.reset contents) s = .next t ∧
    (List.range 19).map (hostRead t) =
      [0#32, 4#32, 0#32, 0#32, 0#32, 0#32, 0#32, 0#32, 0#32, 0#32, 0#32, 0#32, 0#32, 0#32, 0#32, 0#32,
       0xFFFFFFFF#32, 0#32, 0#32] ∧
    t.memLast = s.memLast ∧ t.pending = s.pending ∧ t.replies = s.replies)

/-- `10_state.md` R21: reads by number, writes to read/write registers, writes that are ignored, and
narrower accesses refused. -/
def Obligations.HostRegisterAccess : Prop :=
  ∀ (s : State) (n : Nat) (v : Word),
    (let value : Word := [0#32, statusWord s, s.err, s.errOff, s.srcAddr, s.srcLen, s.rcur, s.dstAddr,
       s.dstCap, s.wcur, s.tag, s.tagFlags, s.recLen, s.recTag, s.recPay, s.recCrc, s.crcAcc, s.crcOut,
       s.count].getD n 0#32
     runEvent (.readReg n) s = .next { s with replies := .word value :: s.replies }) ∧
    runEvent (.writeReg 4 v) s = .next { s with srcAddr := v } ∧
    runEvent (.writeReg 5 v) s = .next { s with srcLen := v } ∧
    runEvent (.writeReg 6 v) s = .next { s with rcur := v } ∧
    runEvent (.writeReg 7 v) s = .next { s with dstAddr := v } ∧
    runEvent (.writeReg 8 v) s = .next { s with dstCap := v } ∧
    runEvent (.writeReg 9 v) s = .next { s with wcur := v } ∧
    runEvent (.writeReg 10 v) s = .next { s with tag := v } ∧
    runEvent (.writeReg 16 v) s = .next { s with crcAcc := v } ∧
    (n ∈ [1, 2, 3, 11, 12, 13, 14, 15, 17, 18] ∨ 19 ≤ n → runEvent (.writeReg n v) s = .next s) ∧
    (∀ (offset : Nat) (bytes : Fin 4),
      runEvent (.narrowReg offset bytes) s = .refused (.narrowRegisterAccess offset bytes))

/-- `10_state.md` R22: a stored register changes only in a command (a write to CMD), in reset, or by the
host's write to that very register, and MEM only in a command, in reset, or by a host MEM write; a write to
a register other than CMD changes that register and nothing else (STATUS is computed on read). -/
def Obligations.OnlyCommandsChangeEngineState : Prop :=
  (∀ (s t : State), step s = .next t →
    (∀ r : Reg, r ≠ .status → readReg t r ≠ readReg s r →
      (∃ w rest, s.pending = .writeReg 0 w :: rest) ∨ (∃ c rest, s.pending = .reset c :: rest) ∨
      (∃ v rest, s.pending = .writeReg r.number v :: rest ∧ readReg t r = v)) ∧
    (t.mem ≠ s.mem →
      (∃ w rest, s.pending = .writeReg 0 w :: rest) ∨ (∃ c rest, s.pending = .reset c :: rest) ∨
      (∃ a b rest, s.pending = .writeMem a b :: rest))) ∧
  (∀ (s : State) (n : Nat) (v : Word), n ≠ 0 → ∃ t : State,
    runEvent (.writeReg n v) s = .next t ∧
    (∀ r : Reg, r.number ≠ n → r ≠ .status → readReg t r = readReg s r) ∧
    t.mem = s.mem ∧ t.memLast = s.memLast ∧ t.pending = s.pending ∧ t.replies = s.replies)

/-- `10_state.md` R34: the bits of STATUS, for every state, and its value at reset. -/
def Obligations.StatusBits : Prop :=
  (∀ (s : State),
    (hostRead s 1).getLsbD 0 = false ∧
    ((hostRead s 1).getLsbD 1 = true ↔ s.err ≠ 0#32) ∧
    ((hostRead s 1).getLsbD 2 = true ↔ s.rcur = s.srcLen) ∧
    (∀ k, 3 ≤ k → (hostRead s 1).getLsbD k = false)) ∧
  (∀ (memLast : Word) (mem : Memory), hostRead (State.launch memLast mem) 1 = 0x00000004#32)

/-- Host access to MEM (`20_memory.md` R60): a read returns the byte and changes nothing of the engine, a
write is read back and changes that one byte.  The fault outside MEM is the model's choice (log entry 8). -/
def Obligations.HostMemoryAccess : Prop :=
  ∀ (s : State) (a : Nat) (b : Byte),
    (a < memBytes s →
      runEvent (.readMem a) s = .next { s with replies := .byte (s.mem.load a) :: s.replies }) ∧
    (a < memBytes s → s.mem.wf = true → ∃ m : Memory,
      runEvent (.writeMem a b) s = .next { s with mem := m } ∧
      m.load a = b ∧ ∀ a', a' ≠ a → m.load a' = s.mem.load a') ∧
    (memBytes s ≤ a →
      runEvent (.readMem a) s = .fault (.hostAddressOutsideMem a) ∧
      runEvent (.writeMem a b) s = .fault (.hostAddressOutsideMem a))

/-- `20_memory.md` R62 and R63: MemRead gives the bytes in ascending order, MemWrite sets exactly the
bytes written; a write of no byte changes nothing.  Canonical form is kept. -/
def Obligations.MemReadMemWrite : Prop :=
  (∀ (m : Memory) (addr n : Nat),
    (memRead m addr n).length = n ∧
    (∀ i, i < n → (memRead m addr n)[i]? = some (m.load (addr + i))) ∧
    memRead m addr 0 = []) ∧
  (∀ (m : Memory) (addr : Nat) (bs : List Byte), m.wf = true →
    (memWrite m addr bs).wf = true ∧
    (∀ i, i < bs.length → some ((memWrite m addr bs).load (addr + i)) = bs[i]?) ∧
    (∀ a, a < addr ∨ addr + bs.length ≤ a → (memWrite m addr bs).load a = m.load a) ∧
    memWrite m addr [] = m)

/-- `30_encoding.md` R101: the three convenience statements of a host script are the register writes they
abbreviate, in order; and `crc.byte v` writes the word of CRC.BYTE with that immediate. -/
def Obligations.PseudoInstructionsExpand : Prop :=
  (∀ addr len : Nat, addr < 2 ^ 32 → len < 2 ^ 32 →
    scriptEvents [.src addr len] =
      scriptEvents [.wr .srcAddr addr, .wr .srcLen len, .wr .rcur 0] ∧
    busWrites [.src addr len] =
      [(0x10, BitVec.ofNat 32 addr), (0x14, BitVec.ofNat 32 len), (0x18, 0#32)]) ∧
  (∀ addr cap : Nat, addr < 2 ^ 32 → cap < 2 ^ 32 →
    scriptEvents [.dst addr cap] =
      scriptEvents [.wr .dstAddr addr, .wr .dstCap cap, .wr .wcur 0] ∧
    busWrites [.dst addr cap] =
      [(0x1C, BitVec.ofNat 32 addr), (0x20, BitVec.ofNat 32 cap), (0x24, 0#32)]) ∧
  (∀ a b c d : Byte,
    scriptEvents [.tagOf [a, b, c, d]] = scriptEvents [.wr .tag (be32 a b c d).toNat] ∧
    busWrites [.tagOf [a, b, c, d]] = [(0x28, be32 a b c d)]) ∧
  (∀ v : Nat, v ≤ 255 →
    scriptEvents [.crcByteOf v] = scriptEvents [.cmd (.crcByte (BitVec.ofNat 8 v))])

/-! ## What every command has in common -/

/-- Every command, in every state, completes in a next state (`70_reset_and_hazards.md` R290). -/
def Obligations.EveryCommandCompletes : Prop :=
  ∀ (i : Instr) (s : State), ∃ t : State, exec i s = .next t

/-- `10_state.md` R38: a command that fails writes ERR and ERR_OFF and changes nothing else; one that
succeeds writes 0 to both in addition to its results. -/
def Obligations.FailureChangesOnlyErrorRegisters : Prop :=
  ∀ (i : Instr) (s t : State), exec i s = .next t →
    (t.err ≠ 0#32 ∧ t = { s with err := t.err, errOff := t.errOff }) ∨
    (t.err = 0#32 ∧ t.errOff = 0#32)

/-- Which error codes each command can leave in ERR (`60_exceptions.md` R251, `10_state.md` R36): NOP,
CRC.INIT, CRC.BYTE and CRC.FIN cannot fail, and no command leaves 5 or 6. -/
def Obligations.ErrorCodesOfEachCommand : Prop :=
  ∀ (i : Instr) (s t : State), exec i s = .next t →
    match i with
    | .nop => t.err = 0#32
    | .tagChk => t.err ∈ [0#32, 1#32]
    | .tagLds => t.err ∈ [0#32, 1#32, 7#32]
    | .crcInit => t.err = 0#32
    | .crcByte _ => t.err = 0#32
    | .crcBuf => t.err ∈ [0#32, 7#32]
    | .crcFin => t.err = 0#32
    | .crcCalc => t.err ∈ [0#32, 7#32]
    | .frmParse => t.err ∈ [0#32, 1#32, 2#32, 3#32, 7#32]
    | .frmBuild => t.err ∈ [0#32, 1#32, 7#32]
    | .sigChk => t.err ∈ [0#32, 4#32, 7#32]
    | .sigPut => t.err ∈ [0#32, 7#32]
    | .strScan => t.err ∈ [0#32, 1#32, 2#32, 3#32, 4#32, 7#32]

/-- `60_exceptions.md` R254: ERR_OFF after every command and after an illegal word. -/
def Obligations.ErrorOffsetRule : Prop :=
  (∀ (i : Instr) (s t : State), exec i s = .next t →
    (t.err = 0#32 → t.errOff = 0#32) ∧
    (t.err = 7#32 → t.errOff = 0#32) ∧
    (t.err = 1#32 → (i = .tagChk ∨ i = .frmBuild) → t.errOff = 0#32) ∧
    (t.err = 1#32 → i = .tagLds → t.errOff = s.rcur) ∧
    (t.err = 4#32 → t.errOff = s.rcur) ∧
    (t.err ∈ [1#32, 2#32, 3#32] → i = .frmParse → t.errOff = s.rcur) ∧
    (t.err ∈ [1#32, 2#32, 3#32, 4#32] → i = .strScan →
      ∃ f : Failure, parseStream (slice s) = .error f ∧ f.kind.code = t.err ∧
        t.errOff.toNat = s.rcur.toNat + f.off) ∧
    t.errOff.toNat ≤ s.srcLen.toNat) ∧
  (∀ (s : State) (w : Word), (∀ i : Instr, decode w ≠ .ok i) → ∃ t : State,
    runEvent (.writeReg 0 w) s = .next t ∧ t.err = 8#32 ∧ t.errOff = 0#32)

/-- The legal states hold right after reset, for a MEM of any size and any canonical contents.
`State.reset` has the model's own contents and size (log entries 1 and 2). -/
def Obligations.LaunchIsLegal : Prop :=
  (∀ (memLast : Word) (mem : Memory), mem.wf = true → mem.below (memLast.toNat + 1) = true →
    (State.launch memLast mem).Inv) ∧
  State.reset.Inv

/-- Every step from a legal state that answers a next state leads to a legal state (`10_state.md` R26,
R36, R37, R40; `20_memory.md` R60), whatever the host does. -/
def Obligations.StepKeepsLegalStates : Prop :=
  ∀ (s t : State), s.Inv → step s = .next t → t.Inv

/-- A safe state never stops: the step answers a next state, and that state is safe again.  What makes
an action meaningful is the model's reading (log entry 8) of `20_memory.md` R60 and `10_state.md` R21. -/
def Obligations.SafeStatesNeverStop : Prop :=
  ∀ (s : State), s.safe = true → ∃ t : State, step s = .next t ∧ t.safe = true

/-- `41_crc.md` R155: CRC_ACC changes only by CRC.INIT, CRC.BYTE, CRC.BUF, a host write and reset; and
FRM.PARSE, FRM.BUILD and STR.SCAN neither read nor write CRC_ACC and CRC_OUT. -/
def Obligations.DigestIsolation : Prop :=
  (∀ (s t : State), step s = .next t → t.crcAcc ≠ s.crcAcc →
    (∃ w rest, s.pending = .writeReg 0 w :: rest ∧
      (decode w = .ok .crcInit ∨ (∃ d, decode w = .ok (.crcByte d)) ∨ decode w = .ok .crcBuf)) ∨
    (∃ v rest, s.pending = .writeReg 16 v :: rest) ∨
    (∃ c rest, s.pending = .reset c :: rest)) ∧
  (∀ (i : Instr) (s t : State) (x y : Word), i = .frmParse ∨ i = .frmBuild ∨ i = .strScan →
    exec i s = .next t →
    t.crcAcc = s.crcAcc ∧ t.crcOut = s.crcOut ∧
    exec i { s with crcAcc := x, crcOut := y } = .next { t with crcAcc := x, crcOut := y })

/-- Who writes these registers.  `10_state.md` R28: CRC_OUT by CRC.FIN and CRC.CALC only, the finished
checksum; COUNT by a successful STR.SCAN only, the number of records.  The record registers by a successful
FRM.PARSE or FRM.BUILD only (R25), TAG by a successful TAG.LDS only (R24), the window registers by no
command (R23).  The host writes neither CRC_OUT nor COUNT.  That no command touches `memLast`, `pending`
or `replies` concerns the model's own fields (log entries 2, 3, 4). -/
def Obligations.RegisterWriters : Prop :=
  (∀ (s : State) (v : Word),
    runEvent (.writeReg 17 v) s = .next s ∧ runEvent (.writeReg 18 v) s = .next s) ∧
  ∀ (i : Instr) (s t : State), exec i s = .next t →
    (t.crcOut ≠ s.crcOut → i = .crcFin ∨ i = .crcCalc) ∧
    (i = .crcFin → t.crcOut = s.crcAcc ^^^ 0xFFFFFFFF#32) ∧
    (i = .crcCalc → t.err = 0#32 → t.crcOut = crc32 (slice s)) ∧
    (t.count ≠ s.count → i = .strScan ∧ t.err = 0#32) ∧
    (i = .strScan → t.err = 0#32 →
      ∃ chunks, parseStream (slice s) = .ok chunks ∧ t.count.toNat = chunks.length) ∧
    ([t.recLen, t.recTag, t.recPay, t.recCrc] ≠ [s.recLen, s.recTag, s.recPay, s.recCrc] →
      (i = .frmParse ∨ i = .frmBuild) ∧ t.err = 0#32) ∧
    t.srcAddr = s.srcAddr ∧ t.srcLen = s.srcLen ∧ t.dstAddr = s.dstAddr ∧ t.dstCap = s.dstCap ∧
    (t.tag ≠ s.tag → i = .tagLds ∧ t.err = 0#32) ∧
    t.memLast = s.memLast ∧ t.pending = s.pending ∧ t.replies = s.replies

/-- How the cursors move (`10_state.md` R31, R32): only on success, by exactly what was read or written,
never past the end of the window, and otherwise not at all. -/
def Obligations.CursorsAdvance : Prop :=
  ∀ (i : Instr) (s t : State), exec i s = .next t →
    (t.err ≠ 0#32 → t.rcur = s.rcur ∧ t.wcur = s.wcur) ∧
    (t.err = 0#32 → i = .sigChk →
      t.rcur.toNat = s.rcur.toNat + 8 ∧ t.rcur.toNat ≤ t.srcLen.toNat) ∧
    (t.err = 0#32 → i = .frmParse →
      t.rcur.toNat = s.rcur.toNat + 12 + t.recLen.toNat ∧ t.rcur.toNat ≤ t.srcLen.toNat) ∧
    (t.err = 0#32 → i = .strScan → t.rcur = t.srcLen) ∧
    (i ≠ .sigChk → i ≠ .frmParse → i ≠ .strScan → t.rcur = s.rcur) ∧
    (t.err = 0#32 → i = .sigPut →
      t.wcur.toNat = s.wcur.toNat + 8 ∧ t.wcur.toNat ≤ t.dstCap.toNat) ∧
    (t.err = 0#32 → i = .frmBuild →
      t.wcur.toNat = s.wcur.toNat + 12 + t.recLen.toNat ∧ t.wcur.toNat ≤ t.dstCap.toNat) ∧
    (i ≠ .sigPut → i ≠ .frmBuild → t.wcur = s.wcur)

/-- TAGFLAGS (`10_state.md` R40, R41): HELD stays set until reset, over every step; TAGFLAGS changes only
when a tag is constructed, to the flags of that tag: TAG in TAG.CHK, TAG.LDS and FRM.BUILD, REC_TAG in
FRM.PARSE. -/
def Obligations.TagFlagsFollowConstruction : Prop :=
  (∀ (s t : State), step s = .next t → held s.tagFlags = true →
    held t.tagFlags = true ∨ (∃ c rest, s.pending = .reset c :: rest)) ∧
  (∀ (i : Instr) (s t : State), exec i s = .next t →
    (i ∈ [.tagChk, .tagLds, .frmBuild] → t.err = 0#32 →
      tagOk (be32Bytes t.tag) = true ∧ t.tagFlags = (Tag.ofBytes (be32Bytes t.tag)).flags) ∧
    (i = .frmParse → t.err = 0#32 →
      tagOk (be32Bytes t.recTag) = true ∧ t.tagFlags = (Tag.ofBytes (be32Bytes t.recTag)).flags) ∧
    (t.err ≠ 0#32 ∨ i ∉ [.tagChk, .tagLds, .frmBuild, .frmParse] → t.tagFlags = s.tagFlags))

/-- No command reads a byte outside the remaining source slice (`20_memory.md` R77): on two memories
that agree on the slice a command does the same to every register, and to every byte it writes. -/
def Obligations.CommandsReadOnlyTheSlice : Prop :=
  ∀ (i : Instr) (s t : State) (m : Memory),
    s.mem.wf = true → m.wf = true →
    (∀ a, sliceBase s ≤ a → a < sliceBase s + avail s → m.load a = s.mem.load a) →
    exec i s = .next t →
    ∃ m' : Memory, exec i { s with mem := m } = .next { t with mem := m' } ∧
      ∀ a, (t.mem.load a = s.mem.load a ∧ m'.load a = m.load a) ∨ m'.load a = t.mem.load a

/-- No command writes a byte outside the destination window, and only a successful SIG.PUT or FRM.BUILD
writes at all, exactly the bytes from the write cursor on (`20_memory.md` R77). -/
def Obligations.CommandsWriteOnlyTheDestination : Prop :=
  ∀ (i : Instr) (s t : State), s.mem.wf = true → exec i s = .next t →
    (∀ a, t.mem.load a ≠ s.mem.load a →
      t.err = 0#32 ∧
      ((i = .sigPut ∧ writeBase s ≤ a ∧ a < writeBase s + 8) ∨
       (i = .frmBuild ∧ writeBase s ≤ a ∧ a < writeBase s + 12 + avail s)) ∧
      s.dstAddr.toNat ≤ a ∧ a < s.dstAddr.toNat + s.dstCap.toNat ∧ a < memBytes s) ∧
    (i ≠ .sigPut → i ≠ .frmBuild → t.mem = s.mem)

/-! ## The windows -/

/-- `20_memory.md` R66: a bad source window raises AccessFault(0) in each of the seven commands that
read it, whether or not a byte would be read; a good one has every byte of the slice in MEM. -/
def Obligations.BadSourceWindowFaults : Prop :=
  (∀ (i : Instr) (s : State),
    i ∈ [.tagLds, .crcBuf, .crcCalc, .frmParse, .frmBuild, .sigChk, .strScan] →
    ¬ (s.rcur.toNat ≤ s.srcLen.toNat ∧ s.srcAddr.toNat + s.srcLen.toNat ≤ s.memLast.toNat + 1) →
    exec i s = .next { s with err := 7#32, errOff := 0#32 }) ∧
  (∀ (s : State) (k : Nat),
    s.rcur.toNat ≤ s.srcLen.toNat → s.srcAddr.toNat + s.srcLen.toNat ≤ s.memLast.toNat + 1 →
    k < (slice s).length →
    (slice s)[k]? = some (s.mem.load (s.srcAddr.toNat + s.rcur.toNat + k)) ∧
    s.srcAddr.toNat + s.rcur.toNat + k < memBytes s)

/-- `20_memory.md` R67: a bad destination window raises AccessFault(0) in SIG.PUT (8 bytes) and FRM.BUILD
(12 + N bytes, once the checks before it pass) and nothing is written; a good one has every byte to be
written in MEM and in the window. -/
def Obligations.BadDestinationWindowFaults : Prop :=
  (∀ (s : State),
    ¬ (s.dstAddr.toNat + s.dstCap.toNat ≤ s.memLast.toNat + 1 ∧ s.wcur.toNat + 8 ≤ s.dstCap.toNat) →
    exec .sigPut s = .next { s with err := 7#32, errOff := 0#32 }) ∧
  (∀ (s : State), srcOk s = true → tagOk (be32Bytes s.tag) = true →
    ¬ (s.dstAddr.toNat + s.dstCap.toNat ≤ s.memLast.toNat + 1 ∧
       s.wcur.toNat + (12 + avail s) ≤ s.dstCap.toNat) →
    exec .frmBuild s = .next { s with err := 7#32, errOff := 0#32 }) ∧
  (∀ (s : State) (n k : Nat),
    s.dstAddr.toNat + s.dstCap.toNat ≤ s.memLast.toNat + 1 → s.wcur.toNat + n ≤ s.dstCap.toNat →
    k < n →
    s.dstAddr.toNat + s.wcur.toNat + k < memBytes s ∧
    s.dstAddr.toNat ≤ s.dstAddr.toNat + s.wcur.toNat + k ∧
    s.dstAddr.toNat + s.wcur.toNat + k < s.dstAddr.toNat + s.dstCap.toNat)

/-- `20_memory.md` R68: FRM.BUILD with a payload whose read and write ranges share an address raises
AccessFault(0); with no payload there is no overlap, and with no shared address the command succeeds;
no other command both reads and writes MEM. -/
def Obligations.OverlapFaults : Prop :=
  (∀ (s : State), srcOk s = true → tagOk (be32Bytes s.tag) = true → dstOk s (12 + avail s) = true →
    ((0 < avail s ∧ ∃ a, sliceBase s ≤ a ∧ a < sliceBase s + avail s ∧
        writeBase s ≤ a ∧ a < writeBase s + 12 + avail s) →
      exec .frmBuild s = .next { s with err := 7#32, errOff := 0#32 }) ∧
    ((avail s = 0 ∨ ∀ a, sliceBase s ≤ a → a < sliceBase s + avail s →
        ¬ (writeBase s ≤ a ∧ a < writeBase s + 12 + avail s)) →
      ∃ t : State, exec .frmBuild s = .next t ∧ t.err = 0#32)) ∧
  (∀ (i : Instr) (s t : State), i ≠ .frmBuild → exec i s = .next t →
    t.mem = s.mem ∨ (i = .sigPut ∧ ∀ m : Memory, ∃ m' : Memory,
      exec i { s with mem := m } = .next { t with mem := m' }))

/-! ## Tags -/

/-- `40_tag.md` R120: which bytes are letters, how many, and that the named neighbours are not.  R121:
constructing a tag succeeds iff the string has exactly four bytes, all letters; the tag then has those
bytes; otherwise InvalidTag; and tags are equal iff their bytes are. -/
def Obligations.LettersMakeTags : Prop :=
  (∀ b : Byte, isLetter b = true ↔
    (0x41 ≤ b.toNat ∧ b.toNat ≤ 0x5A) ∨ (0x61 ≤ b.toNat ∧ b.toNat ≤ 0x7A)) ∧
  ((List.range 256).filter fun n => isLetter (BitVec.ofNat 8 n)).length = 52 ∧
  ((List.range 256).filter fun n => !isLetter (BitVec.ofNat 8 n)).length = 204 ∧
  (∀ b : Byte, (0x5B ≤ b.toNat ∧ b.toNat ≤ 0x60) ∨ (0x30 ≤ b.toNat ∧ b.toNat ≤ 0x39) ∨
    b.toNat = 0x40 ∨ b.toNat = 0x7B ∨ b.toNat = 0x00 ∨ 0x80 ≤ b.toNat → isLetter b = false) ∧
  (∀ (s : List Byte) (t : Tag), constructTag s = .ok t ↔
    s.length = 4 ∧ (∀ b ∈ s, isLetter b = true) ∧ t.bytes = s) ∧
  (∀ (s : List Byte), ¬ (s.length = 4 ∧ ∀ b ∈ s, isLetter b = true) →
    constructTag s = .error .invalidTag) ∧
  (∀ (t t' : Tag), t = t' ↔ t.bytes = t'.bytes)

/-- `40_tag.md` R122 to R126, R132: each flag function by bit 5 of its byte, and TAGFLAGS as their sum,
bit by bit. -/
def Obligations.TagFlagFunctions : Prop :=
  ∀ (t : Tag),
    (t.critical = true ↔ t.b0.getLsbD 5 = false) ∧
    (t.isPublic = true ↔ t.b1.getLsbD 5 = false) ∧
    (t.reservedOk = true ↔ t.b2.getLsbD 5 = false) ∧
    (t.safeToCopy = true ↔ t.b3.getLsbD 5 = true) ∧
    t.isValid = t.reservedOk ∧
    (t.strictOk = true ↔ t.reservedOk = true ∧ ¬ (t.critical = true ∧ t.safeToCopy = true)) ∧
    t.flags.toNat = 2 ^ 31 + 32 * t.strictOk.toNat + 16 * t.isValid.toNat + 8 * t.safeToCopy.toNat
      + 4 * t.reservedOk.toNat + 2 * t.isPublic.toNat + 1 * t.critical.toNat ∧
    t.flags.getLsbD 4 = t.flags.getLsbD 2

/-- `40_tag.md` R128: TAG.CHK, its encoding, both outcomes, its corner cases and its example. -/
def Obligations.TagChkResult : Prop :=
  encode .tagChk = 0x00000001#32 ∧
  (∀ s : State, (∀ b ∈ be32Bytes s.tag, isLetter b = true) →
    exec .tagChk s = .next { s with
      tagFlags := (Tag.ofBytes (be32Bytes s.tag)).flags, err := 0#32, errOff := 0#32 }) ∧
  (∀ s : State, ¬ (∀ b ∈ be32Bytes s.tag, isLetter b = true) →
    exec .tagChk s = .next { s with err := 1#32, errOff := 0#32 }) ∧
  (∀ s : State, s.tag = 0#32 ∨ s.tag = 0x40414243#32 ∨ s.tag = 0x5A7A417B#32 →
    exec .tagChk s = .next { s with err := 1#32, errOff := 0#32 }) ∧
  (∀ s : State, s.tag = 0x5A7A4161#32 → ∃ t, exec .tagChk s = .next t ∧ t.err = 0#32) ∧
  (∀ s : State, s.tag = 0x52755374#32 →
    exec .tagChk s = .next { s with tagFlags := 0x8000001D#32, err := 0#32, errOff := 0#32 })

/-- `40_tag.md` R129: TAG.LDS, its encoding, its outcomes in the order of its tests, and its example. -/
def Obligations.TagLdsResult : Prop :=
  encode .tagLds = 0x00000002#32 ∧
  (∀ s : State, srcOk s = false → exec .tagLds s = .next { s with err := 7#32, errOff := 0#32 }) ∧
  (∀ s : State, srcOk s = true → s.srcLen.toNat - s.rcur.toNat ≠ 4 →
    exec .tagLds s = .next { s with err := 1#32, errOff := s.rcur }) ∧
  (∀ s : State, srcOk s = true → s.srcLen.toNat - s.rcur.toNat = 4 →
    ¬ (∀ b ∈ slice s, isLetter b = true) →
    exec .tagLds s = .next { s with err := 1#32, errOff := s.rcur }) ∧
  (∀ s : State, srcOk s = true → s.srcLen.toNat - s.rcur.toNat = 4 →
    (∀ b ∈ slice s, isLetter b = true) →
    exec .tagLds s = .next { s with
      tag := be32At (slice s) 0, tagFlags := (Tag.ofBytes (slice s)).flags,
      err := 0#32, errOff := 0#32 }) ∧
  (∀ s : State, srcOk s = true → slice s = [0x52#8, 0x75#8, 0x31#8, 0x74#8] →
    exec .tagLds s = .next { s with err := 1#32, errOff := s.rcur }) ∧
  (∀ s : State, srcOk s = true → slice s = [0x54#8, 0x45#8, 0x53#8, 0x54#8] →
    exec .tagLds s = .next { s with
      tag := 0x54455354#32, tagFlags := 0x80000037#32, err := 0#32, errOff := 0#32 })

/-! ## The checksum engine -/

/-- `41_crc.md` R144: the table form equals the bitwise form for every register and byte, and the 256
printed values are the eight shifts of their index. -/
def Obligations.CrcTableForm : Prop :=
  (∀ (r : Word) (d : Byte), Machine.crcByte r d =
    crcTable.getD ((r ^^^ d.setWidth 32).extractLsb' 0 8).toNat 0#32 ^^^ (r >>> 8)) ∧
  crcTable.length = 256 ∧
  (∀ n, n < 256 → crcTable[n]? = some (crcShifts 8 (BitVec.ofNat 32 n)))

/-- `41_crc.md` R145: (a) the checksum of nothing; (b) the byte step is a bijection of the register for
each byte and injective in the byte, so strings that differ in one byte (hence in one bit) have different
checksums; (c) linearity over exclusive-or; (d) the checksum appended least significant byte FIRST gives
a fixed residue, and (a record stores it big-endian) the checksum of a record's tag, payload and CRC field
need not be that residue. -/
def Obligations.CrcProperties : Prop :=
  crc32 [] = 0x00000000#32 ∧
  (∀ d : Byte, Function.Bijective fun r => Machine.crcByte r d) ∧
  (∀ r : Word, Function.Injective (Machine.crcByte r)) ∧
  (∀ (a b : List Byte) (d d' : Byte), d ≠ d' → crc32 (a ++ d :: b) ≠ crc32 (a ++ d' :: b)) ∧
  (∀ (r r' : Word) (s s' : List Byte), s.length = s'.length →
    crcUpdate (r ^^^ r') (List.zipWith (fun a b => a ^^^ b) s s') = crcUpdate r s ^^^ crcUpdate r' s') ∧
  (∀ n : Nat, crcUpdate 0#32 (List.replicate n 0#8) = 0#32) ∧
  (∀ s : List Byte, crc32 (s ++ (be32Bytes (crc32 s)).reverse) = 0x2144DF1C#32) ∧
  (∃ x : Record, x.valid = true ∧ crc32 (x.tag.bytes ++ x.payload ++ be32Bytes x.crc) ≠ 0x2144DF1C#32)

/-- `41_crc.md` R150 and R153: CRC.INIT and CRC.FIN, with their encodings, corner cases and examples. -/
def Obligations.CrcInitAndFinResult : Prop :=
  encode .crcInit = 0x00000010#32 ∧ encode .crcFin = 0x00000013#32 ∧
  (∀ s : State, exec .crcInit s = .next { s with crcAcc := 0xFFFFFFFF#32, err := 0#32, errOff := 0#32 }) ∧
  (∀ s t u : State, exec .crcInit s = .next t → exec .crcInit t = .next u → u = t) ∧
  (∀ s : State, exec .crcFin s = .next { s with
    crcOut := s.crcAcc ^^^ 0xFFFFFFFF#32, err := 0#32, errOff := 0#32 }) ∧
  (∀ s : State, s.crcAcc = 0xFFFFFFFF#32 → ∃ t, exec .crcFin s = .next t ∧
    t.crcOut = 0x00000000#32 ∧ t.crcOut = crc32 []) ∧
  (∀ s : State, s.crcAcc = 0x2225DFF2#32 → ∃ t, exec .crcFin s = .next t ∧
    t.crcOut = 0xDDDA200D#32 ∧
    t.crcOut = crc32 [0x54#8, 0x45#8, 0x53#8, 0x54#8, 0x68#8, 0x65#8, 0x6C#8, 0x6C#8, 0x6F#8])

/-- `41_crc.md` R151 over R141: CRC.BYTE, its encoding, its effect as eight turns of the shift written
out, its corner cases and its example. -/
def Obligations.CrcByteResult : Prop :=
  (∀ d : Byte, (encode (.crcByte d)).toNat = 0x00000011 + d.toNat * 2 ^ 8) ∧
  (∀ (s : State) (d : Byte), exec (.crcByte d) s = .next { s with
    crcAcc := ((fun r : Word => if r.getLsbD 0 = true then (r >>> 1) ^^^ 0xEDB88320#32 else r >>> 1)^[8])
      (s.crcAcc ^^^ d.setWidth 32),
    err := 0#32, errOff := 0#32 }) ∧
  Machine.crcByte 0xFFFFFFFF#32 0x00#8 = 0x2DFD1072#32 ∧
  (∀ r : Word, Machine.crcByte r 0x00#8 = r ↔ r = 0#32) ∧
  encode (.crcByte 0x54#8) = 0x00005411#32 ∧
  (∀ s : State, s.crcAcc = 0xFFFFFFFF#32 →
    exec (.crcByte 0x54#8) s = .next { s with crcAcc := 0x41FB859F#32, err := 0#32, errOff := 0#32 })

/-- `41_crc.md` R152 and R154: CRC.BUF and CRC.CALC, with their encodings, their outcomes, the empty
slice and the examples.  Their operands are the remaining slice and, for CRC.BUF, CRC_ACC. -/
def Obligations.CrcBufAndCalcResult : Prop :=
  encode .crcBuf = 0x00000012#32 ∧ encode .crcCalc = 0x00000014#32 ∧
  (∀ s : State, srcOk s = false →
    exec .crcBuf s = .next { s with err := 7#32, errOff := 0#32 } ∧
    exec .crcCalc s = .next { s with err := 7#32, errOff := 0#32 }) ∧
  (∀ s : State, srcOk s = true →
    exec .crcBuf s = .next { s with
      crcAcc := (slice s).foldl Machine.crcByte s.crcAcc, err := 0#32, errOff := 0#32 } ∧
    exec .crcCalc s = .next { s with
      crcOut := (slice s).foldl Machine.crcByte 0xFFFFFFFF#32 ^^^ 0xFFFFFFFF#32,
      err := 0#32, errOff := 0#32 }) ∧
  (∀ s : State, srcOk s = true → s.rcur = s.srcLen →
    exec .crcBuf s = .next { s with err := 0#32, errOff := 0#32 } ∧
    exec .crcCalc s = .next { s with crcOut := 0#32, err := 0#32, errOff := 0#32 }) ∧
  (∀ s : State, srcOk s = true → s.crcAcc = 0x11156C47#32 →
    slice s = [0x68#8, 0x65#8, 0x6C#8, 0x6C#8, 0x6F#8] →
    exec .crcBuf s = .next { s with crcAcc := 0x2225DFF2#32, err := 0#32, errOff := 0#32 }) ∧
  (∀ s : State, srcOk s = true →
    slice s = [0x31#8, 0x32#8, 0x33#8, 0x34#8, 0x35#8, 0x36#8, 0x37#8, 0x38#8, 0x39#8] →
    exec .crcCalc s = .next { s with crcOut := 0xCBF43926#32, err := 0#32, errOff := 0#32 })

/-- `41_crc.md` R147 and R156: CRC.INIT, then a string fed in pieces by CRC.BYTE and CRC.BUF in any
mixture, with anything in between that leaves CRC_ACC (which every other command does), then CRC.FIN,
leaves the checksum of the string, equal to what CRC.CALC leaves for a slice equal to it. -/
def Obligations.StreamingEqualsOneShot : Prop :=
  (∀ (s t u x : State) (bs : List Byte),
    exec .crcInit s = .next t → Digest t bs u → exec .crcFin u = .next x →
    u.crcAcc = crcUpdate 0xFFFFFFFF#32 bs ∧ x.crcOut = crc32 bs ∧
    ∀ c d : State, srcOk c = true → slice c = bs → exec .crcCalc c = .next d → d.crcOut = x.crcOut) ∧
  (∀ (s t u : State) (a b : List Byte), Digest s a t → Digest t b u → Digest s (a ++ b) u) ∧
  (∀ (i : Instr) (s t : State), i ≠ .crcInit → (∀ d, i ≠ .crcByte d) → i ≠ .crcBuf →
    exec i s = .next t → t.crcAcc = s.crcAcc)

/-! ## Records -/

/-- `42_frame_parse.md` R170 and R171: what parse_record answers for EVERY byte string: truncation before
the tag, the tag before the checksum, and the record when every test passes. -/
def Obligations.ParseRecordOutcomes : Prop :=
  ∀ (s : List Byte),
    let n := (be32At s 0).toNat
    let t := Tag.ofBytes (sub s 4 8)
    let payload := sub s 8 (8 + n)
    (s.length < 12 → parseRecord s = .error .truncatedRecord) ∧
    (12 ≤ s.length → s.length < 8 + n + 4 → parseRecord s = .error .truncatedRecord) ∧
    (12 ≤ s.length → 8 + n + 4 ≤ s.length → tagOk (sub s 4 8) = false →
      parseRecord s = .error .invalidTag) ∧
    (12 ≤ s.length → 8 + n + 4 ≤ s.length → tagOk (sub s 4 8) = true →
      crc32 (sub s 4 8 ++ payload) ≠ be32At s (8 + n) → parseRecord s = .error .crcMismatch) ∧
    (12 ≤ s.length → 8 + n + 4 ≤ s.length → tagOk (sub s 4 8) = true →
      crc32 (sub s 4 8 ++ payload) = be32At s (8 + n) →
      parseRecord s = .ok ⟨be32At s 0, t, payload, be32At s (8 + n)⟩)

/-- `42_frame_parse.md` R173: bytes after a record are no error of a single parse; with none after it
this is the round trip of `43_frame_build.md` R193 (a). -/
def Obligations.ParseOfSerializedRecord : Prop :=
  (∀ (x : Record) (z : List Byte), x.valid = true → parseRecord (serialize x ++ z) = .ok x) ∧
  (∀ (t : Tag) (p : List Byte), tagOk t.bytes = true → p.length < 2 ^ 32 →
    parseRecord (serialize (newRecord t p)) = .ok (newRecord t p))

/-- `42_frame_parse.md` R178 and `43_frame_build.md` R193 (b): a successful parse gives a record, and
serialising it gives back the bytes it came from; rebuilding it gives the same record. -/
def Obligations.ParsedRecordIsARecord : Prop :=
  ∀ (s : List Byte) (x : Record), parseRecord s = .ok x →
    tagOk x.tag.bytes = true ∧ x.payload.length = x.length.toNat ∧
    x.crc = crc32 (x.tag.bytes ++ x.payload) ∧
    serialize x = s.take (12 + x.length.toNat) ∧ 12 + x.length.toNat ≤ s.length ∧
    newRecord x.tag x.payload = x

/-- `42_frame_parse.md` R177: every proper prefix of a serialised record, the empty one too, is
truncated. -/
def Obligations.ProperPrefixIsTruncated : Prop :=
  ∀ (x : Record) (k : Nat), x.valid = true → k < (serialize x).length →
    parseRecord ((serialize x).take k) = .error .truncatedRecord

/-- `42_frame_parse.md` R179, for any change of one byte (so for any flipped bit): in the payload or to a
letter in the tag, CrcMismatch; to a non-letter in the tag, InvalidTag; in the CRC field, CrcMismatch; a
LENGTH field that asks for more than is there, TruncatedRecord. -/
def Obligations.CorruptionIsDetected : Prop :=
  ∀ (x : Record) (k : Nat) (b : Byte), x.valid = true →
    k < (serialize x).length → (serialize x)[k]? ≠ some b →
    (8 ≤ k → parseRecord ((serialize x).set k b) = .error .crcMismatch) ∧
    (4 ≤ k → k < 8 → isLetter b = true →
      parseRecord ((serialize x).set k b) = .error .crcMismatch) ∧
    (4 ≤ k → k < 8 → isLetter b = false →
      parseRecord ((serialize x).set k b) = .error .invalidTag) ∧
    (k < 4 → x.length.toNat < (be32At ((serialize x).set k b) 0).toNat →
      parseRecord ((serialize x).set k b) = .error .truncatedRecord)

/-- `42_frame_parse.md` R172: FRM.PARSE, its encoding, its outcome for each outcome of parse_record, and
its example. -/
def Obligations.FrmParseResult : Prop :=
  encode .frmParse = 0x00000020#32 ∧
  (∀ s : State, srcOk s = false → exec .frmParse s = .next { s with err := 7#32, errOff := 0#32 }) ∧
  (∀ s : State, srcOk s = true →
    (parseRecord (slice s) = .error .truncatedRecord →
      exec .frmParse s = .next { s with err := 2#32, errOff := s.rcur }) ∧
    (parseRecord (slice s) = .error .invalidTag →
      exec .frmParse s = .next { s with err := 1#32, errOff := s.rcur }) ∧
    (parseRecord (slice s) = .error .crcMismatch →
      exec .frmParse s = .next { s with err := 3#32, errOff := s.rcur }) ∧
    (∀ x : Record, parseRecord (slice s) = .ok x →
      ∃ pay cur : Word,
        pay.toNat = s.srcAddr.toNat + s.rcur.toNat + 8 ∧
        cur.toNat = s.rcur.toNat + 12 + x.length.toNat ∧
        exec .frmParse s = .next { s with
          recLen := x.length, recTag := be32 x.tag.b0 x.tag.b1 x.tag.b2 x.tag.b3, recPay := pay,
          recCrc := x.crc, tagFlags := x.tag.flags, rcur := cur, err := 0#32, errOff := 0#32 })) ∧
  (∀ s : State, srcOk s = true → s.srcAddr = 0x100#32 → s.srcLen = 17#32 → s.rcur = 0#32 →
    slice s = [0x00#8, 0x00#8, 0x00#8, 0x05#8, 0x54#8, 0x45#8, 0x53#8, 0x54#8, 0x68#8, 0x65#8, 0x6C#8,
      0x6C#8, 0x6F#8, 0xDD#8, 0xDA#8, 0x20#8, 0x0D#8] →
    ∃ t : State, exec .frmParse s = .next t ∧
      t = { s with
        recLen := 5#32, recTag := 0x54455354#32, recPay := 0x108#32,
        recCrc := 0xDDDA200D#32, tagFlags := 0x80000037#32, rcur := 17#32, err := 0#32, errOff := 0#32 } ∧
      hostRead t 1 = 0x00000004#32)

/-- `10_state.md` R25 and R26, `42_frame_parse.md` R178, `43_frame_build.md` R195: when FRM.PARSE or
FRM.BUILD succeeds the record registers denote a record whose payload is in MEM at REC_PAY. -/
def Obligations.RecordRegistersDenoteARecord : Prop :=
  ∀ (i : Instr) (s t : State), i = .frmParse ∨ i = .frmBuild → s.mem.wf = true →
    exec i s = .next t → t.err = 0#32 →
    tagOk (be32Bytes t.recTag) = true ∧
    t.recCrc = crc32 (be32Bytes t.recTag ++ memRead t.mem t.recPay.toNat t.recLen.toNat) ∧
    t.recPay.toNat + t.recLen.toNat ≤ memBytes t

/-- `43_frame_build.md` R191: FRM.BUILD, its encoding, its errors in the order of its tests, and its
whole effect. -/
def Obligations.FrmBuildResult : Prop :=
  encode .frmBuild = 0x00000021#32 ∧
  (∀ s : State, srcOk s = false → exec .frmBuild s = .next { s with err := 7#32, errOff := 0#32 }) ∧
  (∀ s : State, srcOk s = true → tagOk (be32Bytes s.tag) = false →
    exec .frmBuild s = .next { s with err := 1#32, errOff := 0#32 }) ∧
  (∀ s : State, srcOk s = true → tagOk (be32Bytes s.tag) = true → dstOk s (12 + avail s) = false →
    exec .frmBuild s = .next { s with err := 7#32, errOff := 0#32 }) ∧
  (∀ s : State, srcOk s = true → tagOk (be32Bytes s.tag) = true → dstOk s (12 + avail s) = true →
    0 < avail s → sliceBase s < writeBase s + 12 + avail s → writeBase s < sliceBase s + avail s →
    exec .frmBuild s = .next { s with err := 7#32, errOff := 0#32 }) ∧
  (∀ s : State, srcOk s = true → tagOk (be32Bytes s.tag) = true → dstOk s (12 + avail s) = true →
    (avail s = 0 ∨ writeBase s + 12 + avail s ≤ sliceBase s ∨ sliceBase s + avail s ≤ writeBase s) →
    ∃ len pay cur : Word,
      len.toNat = s.srcLen.toNat - s.rcur.toNat ∧
      pay.toNat = s.dstAddr.toNat + s.wcur.toNat + 8 ∧
      cur.toNat = s.wcur.toNat + 12 + (s.srcLen.toNat - s.rcur.toNat) ∧
      exec .frmBuild s = .next { s with
        mem := memWrite s.mem (s.dstAddr.toNat + s.wcur.toNat)
          (be32Bytes len ++ be32Bytes s.tag ++ slice s ++
            be32Bytes (crc32 (be32Bytes s.tag ++ slice s))),
        recLen := len, recTag := s.tag, recPay := pay,
        recCrc := crc32 (be32Bytes s.tag ++ slice s),
        tagFlags := (Tag.ofBytes (be32Bytes s.tag)).flags, wcur := cur,
        err := 0#32, errOff := 0#32 }) ∧
  (∀ s : State, srcOk s = true → s.tag = 0x54455354#32 → s.mem.wf = true →
    slice s = [0x68#8, 0x65#8, 0x6C#8, 0x6C#8, 0x6F#8] → s.dstAddr = 0x200#32 → s.dstCap = 64#32 →
    s.wcur = 0#32 → 0x240 ≤ memBytes s → rangesMeet (sliceBase s) 5 0x200 17 = false →
    ∃ t : State, exec .frmBuild s = .next t ∧
      memRead t.mem 0x200 17 = [0x00#8, 0x00#8, 0x00#8, 0x05#8, 0x54#8, 0x45#8, 0x53#8, 0x54#8, 0x68#8,
        0x65#8, 0x6C#8, 0x6C#8, 0x6F#8, 0xDD#8, 0xDA#8, 0x20#8, 0x0D#8] ∧
      t.recLen = 5#32 ∧ t.recTag = 0x54455354#32 ∧ t.recPay = 0x208#32 ∧ t.recCrc = 0xDDDA200D#32 ∧
      t.tagFlags = 0x80000037#32 ∧ t.wcur = 17#32)

/-- The bytes the two storing commands leave in MEM: at the address their meanings store to, the bytes
stored; at every other address what was there before (`43_frame_build.md` R191, R195; `44_stream.md`
R208). -/
def Obligations.StoredBytesAndFrame : Prop :=
  (∀ (s t : State), s.mem.wf = true → exec .frmBuild s = .next t → t.err = 0#32 →
    memRead t.mem (writeBase s) (12 + avail s) =
      serialize (newRecord (Tag.ofBytes (be32Bytes s.tag)) (slice s)) ∧
    (∀ a, a < writeBase s ∨ writeBase s + 12 + avail s ≤ a → t.mem.load a = s.mem.load a)) ∧
  (∀ (s t : State), s.mem.wf = true → exec .sigPut s = .next t → t.err = 0#32 →
    memRead t.mem (writeBase s) 8 = sig ∧
    (∀ a, a < writeBase s ∨ writeBase s + 8 ≤ a → t.mem.load a = s.mem.load a))

/-- `43_frame_build.md` R195: what a successful FRM.BUILD guarantees, up to a FRM.PARSE of the bytes it
wrote by any later state with the same MEM, which gives the same record registers and TAGFLAGS. -/
def Obligations.BuiltRecordParsesBack : Prop :=
  ∀ (s t : State), s.mem.wf = true → exec .frmBuild s = .next t → t.err = 0#32 →
    t.recLen.toNat = avail s ∧ t.recTag = s.tag ∧ tagOk (be32Bytes s.tag) = true ∧
    t.recCrc = crc32 (be32Bytes s.tag ++ slice s) ∧
    memRead t.mem t.recPay.toNat t.recLen.toNat = slice s ∧
    memRead t.mem (t.recPay.toNat - 8) (12 + t.recLen.toNat) =
      serialize (newRecord (Tag.ofBytes (be32Bytes s.tag)) (slice s)) ∧
    (∀ u : State, u.mem = t.mem → srcOk u = true → sliceBase u = t.recPay.toNat - 8 →
      12 + t.recLen.toNat ≤ avail u →
      ∃ v : State, exec .frmParse u = .next v ∧ v.err = 0#32 ∧ v.recLen = t.recLen ∧
        v.recTag = t.recTag ∧ v.recCrc = t.recCrc ∧ v.tagFlags = t.tagFlags)

/-- `43_frame_build.md` R197, one turn of it for any earlier contents: what stands before the write cursor
in the destination window stays, and a successful SIG.PUT or FRM.BUILD adds its bytes right after. -/
def Obligations.BuildsConcatenate : Prop :=
  ∀ (s t : State) (before : List Byte), s.mem.wf = true →
    memRead s.mem s.dstAddr.toNat s.wcur.toNat = before → t.err = 0#32 →
    (exec .sigPut s = .next t →
      memRead t.mem t.dstAddr.toNat t.wcur.toNat = before ++ sig) ∧
    (exec .frmBuild s = .next t →
      memRead t.mem t.dstAddr.toNat t.wcur.toNat =
        before ++ serialize (newRecord (Tag.ofBytes (be32Bytes s.tag)) (slice s)))

/-! ## Streams -/

/-- `44_stream.md` R207 with R206: SIG.CHK, its encoding, its outcomes, its corner cases and its
example. -/
def Obligations.SigChkResult : Prop :=
  encode .sigChk = 0x00000030#32 ∧
  (∀ s : State, srcOk s = false → exec .sigChk s = .next { s with err := 7#32, errOff := 0#32 }) ∧
  (∀ s : State, srcOk s = true → (slice s).take 8 ≠ sig →
    exec .sigChk s = .next { s with err := 4#32, errOff := s.rcur }) ∧
  (∀ s : State, srcOk s = true → avail s < 8 →
    exec .sigChk s = .next { s with err := 4#32, errOff := s.rcur }) ∧
  (∀ s : State, srcOk s = true → (slice s).take 8 = sig →
    ∃ cur : Word, cur.toNat = s.rcur.toNat + 8 ∧
      exec .sigChk s = .next { s with rcur := cur, err := 0#32, errOff := 0#32 }) ∧
  (∀ s : State, srcOk s = true → slice s = sig →
    ∃ t : State, exec .sigChk s = .next t ∧ t.err = 0#32 ∧ eos t = true) ∧
  sig = [0x89#8, 0x50#8, 0x4E#8, 0x47#8, 0x0D#8, 0x0A#8, 0x1A#8, 0x0A#8]

/-- `44_stream.md` R208: SIG.PUT, its encoding, its outcomes and its example. -/
def Obligations.SigPutResult : Prop :=
  encode .sigPut = 0x00000031#32 ∧
  (∀ s : State, dstOk s 8 = false → exec .sigPut s = .next { s with err := 7#32, errOff := 0#32 }) ∧
  (∀ s : State, dstOk s 8 = true →
    ∃ cur : Word, cur.toNat = s.wcur.toNat + 8 ∧
      exec .sigPut s = .next { s with
        mem := memWrite s.mem (s.dstAddr.toNat + s.wcur.toNat)
          [0x89#8, 0x50#8, 0x4E#8, 0x47#8, 0x0D#8, 0x0A#8, 0x1A#8, 0x0A#8],
        wcur := cur, err := 0#32, errOff := 0#32 }) ∧
  (∀ s : State, s.mem.wf = true → s.dstAddr = 0x200#32 → s.dstCap = 64#32 → s.wcur = 0#32 →
    0x240 ≤ memBytes s →
    ∃ t : State, exec .sigPut s = .next t ∧
      memRead t.mem 0x200 8 = [0x89#8, 0x50#8, 0x4E#8, 0x47#8, 0x0D#8, 0x0A#8, 0x1A#8, 0x0A#8] ∧
      t.wcur = 8#32)

/-- `44_stream.md` R209 (with R211): parse_stream tests the signature, then runs its loop; given enough
turns the loop obeys its own equation at every offset, so the turn limit is never what ends it; and it
finds at most `(len - 8) / 12` records. -/
def Obligations.ParseStreamLoop : Prop :=
  (∀ s : List Byte, ¬ (8 ≤ s.length ∧ s.take 8 = sig) → parseStream s = .error ⟨.badSignature, 0⟩) ∧
  (∀ s : List Byte, 8 ≤ s.length → s.take 8 = sig → parseStream s = parseRecords s.length s 8) ∧
  (∀ (s : List Byte) (cur n : Nat), cur ≤ s.length → s.length ≤ cur + 12 * n →
    (cur = s.length → parseRecords n s cur = .ok []) ∧
    (cur < s.length → ∀ k, parseRecord (s.drop cur) = .error k →
      parseRecords n s cur = .error ⟨k, cur⟩) ∧
    (cur < s.length → ∀ x, parseRecord (s.drop cur) = .ok x →
      cur + 12 + x.length.toNat ≤ s.length ∧
      parseRecords n s cur =
        (parseRecords n s (cur + 12 + x.length.toNat)).map fun xs => x :: xs)) ∧
  (∀ (s : List Byte) (chunks : List Record), parseStream s = .ok chunks →
    chunks.length ≤ (s.length - 8) / 12)

/-- `44_stream.md` R216: the stream round trip in both directions. -/
def Obligations.StreamRoundTrip : Prop :=
  (∀ (s : List Byte) (chunks : List Record), parseStream s = .ok chunks →
    serializeStream chunks = s) ∧
  (∀ (chunks : List Record), (∀ x ∈ chunks, x.valid = true) →
    parseStream (serializeStream chunks) = .ok chunks)

/-- `44_stream.md` R214: whatever follows the last record is parsed as the next record, 1 to 11 stray
bytes are TruncatedRecord, 12 or more are whatever parse_record makes of them, and no record ends the
stream. -/
def Obligations.TrailingBytesAreAnError : Prop :=
  ∀ (chunks : List Record) (z : List Byte), (∀ x ∈ chunks, x.valid = true) → z ≠ [] →
    (z.length ≤ 11 → parseStream (serializeStream chunks ++ z) =
      .error ⟨.truncatedRecord, (serializeStream chunks).length⟩) ∧
    (∀ k, parseRecord z = .error k → parseStream (serializeStream chunks ++ z) =
      .error ⟨k, (serializeStream chunks).length⟩) ∧
    (∀ y, parseRecord z = .ok y → parseStream (serializeStream chunks ++ z) =
      parseStream (serializeStream (chunks ++ [y]) ++ z.drop (12 + y.length.toNat)))

/-- `44_stream.md` R210: STR.SCAN, its encoding, its outcomes, its corner cases and its example. -/
def Obligations.StrScanResult : Prop :=
  encode .strScan = 0x00000032#32 ∧
  (∀ s : State, srcOk s = false → exec .strScan s = .next { s with err := 7#32, errOff := 0#32 }) ∧
  (∀ (s : State) (f : Failure), srcOk s = true → parseStream (slice s) = .error f →
    ∃ off : Word, off.toNat = s.rcur.toNat + f.off ∧
      exec .strScan s = .next { s with err := f.kind.code, errOff := off }) ∧
  (∀ (s : State) (chunks : List Record), srcOk s = true → parseStream (slice s) = .ok chunks →
    ∃ n : Word, n.toNat = chunks.length ∧ chunks.length ≤ (2 ^ 32 - 9) / 12 ∧
      exec .strScan s = .next { s with count := n, rcur := s.srcLen, err := 0#32, errOff := 0#32 }) ∧
  (∀ s : State, srcOk s = true → slice s = sig →
    exec .strScan s = .next { s with count := 0#32, rcur := s.srcLen, err := 0#32, errOff := 0#32 }) ∧
  (∀ s : State, srcOk s = true → slice s = [] →
    exec .strScan s = .next { s with err := 4#32, errOff := s.rcur }) ∧
  (∀ s : State, srcOk s = true → slice s = sig ++ [0x00#8, 0x00#8, 0x00#8, 0x00#8, 0x49#8, 0x45#8,
      0x4E#8, 0x44#8, 0xAE#8, 0x42#8, 0x60#8, 0x82#8] →
    exec .strScan s = .next { s with count := 1#32, rcur := s.srcLen, err := 0#32, errOff := 0#32 })

/-- `44_stream.md` R212: from the same registers and MEM, the host's script `sig.chk` and FRM.PARSE while
EOS = 0 and ERR = 0 ends, and however it ends it ends as STR.SCAN would: the same ERR and ERR_OFF; with no
error, after COUNT successful FRM.PARSE commands and with RCUR at the end of the window.  With an error in
a record the loop leaves RCUR at that record, and STR.SCAN leaves all but ERR and ERR_OFF untouched.  After
one successful FRM.PARSE or more, the record registers and TAGFLAGS describe the record that ends at
RCUR. -/
def Obligations.ScanAgreesWithParseLoop : Prop :=
  ∀ (s a t : State), exec .sigChk s = .next a → exec .strScan s = .next t →
    (∃ (n : Nat) (b : State), ParseLoop a n b) ∧
    (∀ (n : Nat) (b : State), ParseLoop a n b →
      b.err = t.err ∧ b.errOff = t.errOff ∧
      (t.err = 0#32 → n = t.count.toNat ∧ b.rcur = s.srcLen ∧ t.rcur = s.srcLen) ∧
      (t.err ≠ 0#32 → t = { s with err := t.err, errOff := t.errOff }) ∧
      (t.err ∈ [1#32, 2#32, 3#32] → b.rcur = b.errOff) ∧
      (0 < n → b.mem = s.mem ∧
        b.recPay.toNat + b.recLen.toNat + 4 = s.srcAddr.toNat + b.rcur.toNat ∧
        tagOk (be32Bytes b.recTag) = true ∧
        b.recCrc = crc32 (be32Bytes b.recTag ++ memRead b.mem b.recPay.toNat b.recLen.toNat) ∧
        b.tagFlags = (Tag.ofBytes (be32Bytes b.recTag)).flags))

/-- `44_stream.md` R220: NOP, its encoding and its whole effect. -/
def Obligations.NopResult : Prop :=
  encode .nop = 0x00000000#32 ∧
  (∀ s : State, exec .nop s = .next { s with err := 0#32, errOff := 0#32 }) ∧
  (∀ s : State, s.err = 3#32 → ∃ t, exec .nop s = .next t ∧ t.err = 0#32)

/-- `70_reset_and_hazards.md` R281: the commands it names, right after reset, for a MEM of any size and any
contents. -/
def Obligations.CommandsRightAfterReset : Prop :=
  ∀ (memLast : Word) (mem : Memory),
    let s := State.launch memLast mem
    srcOk s = true ∧ (∀ n, 0 < n → dstOk s n = false) ∧
    exec .crcBuf s = .next s ∧
    exec .crcCalc s = .next s ∧
    exec .tagLds s = .next { s with err := 1#32 } ∧
    exec .frmParse s = .next { s with err := 2#32 } ∧
    exec .sigChk s = .next { s with err := 4#32 } ∧
    exec .strScan s = .next { s with err := 4#32 } ∧
    exec .sigPut s = .next { s with err := 7#32 } ∧
    exec .frmBuild s = .next { s with err := 1#32 } ∧
    exec .tagChk s = .next { s with err := 1#32 } ∧
    exec .crcFin s = .next s ∧ crc32 [] = 0#32

/-! ## The host-level container -/

/-- `45_host_container.md` R232, R233, R234: append puts the record last, chunk-by-type gives the first
match, remove-by-type deletes it and nothing else, or fails with NoSuchChunk. -/
def Obligations.ContainerOperations : Prop :=
  ∀ (c : Container) (x : Record) (str : List Byte),
    (c.append x).chunks = c.chunks ++ [x] ∧ (c.append x).signature = c.signature ∧
    ((∀ y ∈ c.chunks, y.tag.bytes ≠ str) →
      c.chunkByType str = none ∧ c.removeByType str = .error .noSuchChunk) ∧
    (∀ (before after : List Record) (y : Record), c.chunks = before ++ y :: after →
      (∀ z ∈ before, z.tag.bytes ≠ str) → y.tag.bytes = str →
      c.chunkByType str = some y ∧
      c.removeByType str = .ok ⟨c.signature, before ++ after⟩) ∧
    ((∀ y ∈ c.chunks, y.valid = true) → tagOk str = false → c.chunkByType str = none)

/-- `45_host_container.md` R235: the serialised form is the signature and then each chunk's; a valid
container parses back from its serialised form, and append and remove keep a container valid, from the
empty one on. -/
def Obligations.ContainerRoundTrip : Prop :=
  (∀ c : Container, c.serialize = c.signature ++ c.chunks.flatMap serialize) ∧
  emptyContainer.valid = true ∧
  (∀ (c : Container) (x : Record), c.valid = true → x.valid = true → (c.append x).valid = true) ∧
  (∀ (c c' : Container) (str : List Byte), c.valid = true → c.removeByType str = .ok c' →
    c'.valid = true) ∧
  (∀ (s : List Byte) (c : Container), parseContainer s = .ok c → c.valid = true ∧ c.serialize = s) ∧
  (∀ (c : Container), c.valid = true → parseContainer c.serialize = .ok c)
end

