-- ==== Sys2Proof/Laws/Bytes.lean ====
section
/-! SUPPORT. Big-endian words, tags as bytes, and parts of byte strings. -/

namespace Sys2Proof.Laws

open Sys2Proof.Machine

/-! ## Big-endian words -/

/-- Which bit of which byte a bit of `be32` is. -/
theorem be32_getLsbD (a b c d : Byte) (i : Nat) : (be32 a b c d).getLsbD i =
    if i < 8 then d.getLsbD i else if i < 16 then c.getLsbD (i - 8)
    else if i < 24 then b.getLsbD (i - 16) else a.getLsbD (i - 24) := by
  have h : (be32 a b c d).getLsbD i = BitVec.getLsbD (w := 8 + 8 + 8 + 8)
      (((a ++ b : BitVec (8 + 8)) ++ c : BitVec (8 + 8 + 8)) ++ d) i := rfl
  rw [h]
  simp only [BitVec.getLsbD_append]
  by_cases h1 : i < 8
  · simp [h1]
  · by_cases h2 : i < 16
    · simp [h1, h2, show i - 8 < 8 by omega]
    · have h3 : ¬ (i - 8 < 8) := by omega
      by_cases h4 : i < 24
      · simp only [h1, h2, h3, h4, if_true, if_false, Nat.sub_sub]
        rw [if_pos (by omega)]
      · simp only [h1, h2, h3, h4, if_false, Nat.sub_sub]
        rw [if_neg (by omega)]

@[simp] theorem be32Bytes_be32 (a b c d : Byte) : be32Bytes (be32 a b c d) = [a, b, c, d] := by
  simp only [be32Bytes, List.cons.injEq, and_true]
  refine ⟨?_, ?_, ?_, ?_⟩ <;>
  · apply BitVec.eq_of_getLsbD_eq
    intro i hi
    simp only [BitVec.getLsbD_extractLsb', hi, be32_getLsbD, decide_true, Bool.true_and]
    repeat' split
    all_goals first | omega | (congr 1; omega)

@[simp] theorem be32_of_bytes (v : Word) :
    be32 (v.extractLsb' 24 8) (v.extractLsb' 16 8) (v.extractLsb' 8 8) (v.extractLsb' 0 8) = v := by
  apply BitVec.eq_of_getLsbD_eq
  intro i hi
  simp only [be32_getLsbD, BitVec.getLsbD_extractLsb']
  by_cases h1 : i < 8
  · simp [h1]
  · by_cases h2 : i < 16
    · simp [h1, h2, show i - 8 < 8 by omega, show 8 + (i - 8) = i by omega]
    · by_cases h3 : i < 24
      · simp [h1, h2, h3, show i - 16 < 8 by omega, show 16 + (i - 16) = i by omega]
      · simp [h1, h2, h3, show i - 24 < 8 by omega, show 24 + (i - 24) = i by omega]

@[simp] theorem be32Bytes_length (v : Word) : (be32Bytes v).length = 4 := rfl

/-- The big-endian word written at the end of a string is read there. -/
theorem be32At_append (p z : List Byte) (v : Word) :
    be32At (p ++ (be32Bytes v ++ z)) p.length = v := by
  simp [be32At, be32Bytes, List.getD_eq_getElem?_getD]

theorem be32At_zero_append (v : Word) (z : List Byte) : be32At (be32Bytes v ++ z) 0 = v :=
  be32At_append [] z v

/-- Four bytes of a string and the big-endian word there. -/
theorem be32Bytes_be32At {s : List Byte} {i : Nat} (h : i + 4 ≤ s.length) :
    be32Bytes (be32At s i) = sub s i (i + 4) := by
  rw [be32At, be32Bytes_be32]
  apply List.ext_getElem (by simp [sub]; omega)
  intro k h1 h2
  simp only [List.length_cons, List.length_nil] at h1
  simp only [sub, List.getElem_take, List.getElem_drop, List.getD_eq_getElem?_getD]
  match k, h1 with
  | 0, _ => simp [List.getElem?_eq_getElem (show i < s.length by omega)]
  | 1, _ => simp [List.getElem?_eq_getElem (show i + 1 < s.length by omega)]
  | 2, _ => simp [List.getElem?_eq_getElem (show i + 2 < s.length by omega)]
  | 3, _ => simp [List.getElem?_eq_getElem (show i + 3 < s.length by omega)]

/-! ## Parts of strings -/

theorem sub_length {s : List Byte} {a b : Nat} (h : b ≤ s.length) : (sub s a b).length = b - a := by
  simp [sub]; omega

/-- Two neighbouring parts make one. -/
theorem sub_append_sub {s : List Byte} {a b c : Nat} (h1 : a ≤ b) (h2 : b ≤ c) :
    sub s a b ++ sub s b c = sub s a c := by
  simp only [sub]
  have hb : s.drop b = (s.drop a).drop (b - a) := by rw [List.drop_drop]; congr 1; omega
  have hc : c - a = (b - a) + (c - b) := by omega
  rw [hb, hc, List.take_add]

theorem sub_zero (s : List Byte) (b : Nat) : sub s 0 b = s.take b := by simp [sub]

/-- The part of a concatenation that is its middle. -/
theorem sub_middle (p m z : List Byte) : sub (p ++ (m ++ z)) p.length (p.length + m.length) = m := by
  simp [sub]

/-! ## Tags -/

@[simp] theorem tag_bytes_length (t : Tag) : t.bytes.length = 4 := rfl

@[simp] theorem ofBytes_bytes (t : Tag) : Tag.ofBytes t.bytes = t := rfl

theorem bytes_ofBytes {s : List Byte} (h : s.length = 4) : (Tag.ofBytes s).bytes = s := by
  match s, h with
  | [a, b, c, d], _ => rfl

@[simp] theorem be32Bytes_toWord (t : Tag) : be32Bytes t.toWord = t.bytes := be32Bytes_be32 _ _ _ _

@[simp] theorem toWord_ofBytes_be32Bytes (v : Word) : (Tag.ofBytes (be32Bytes v)).toWord = v :=
  be32_of_bytes v

theorem tagOk_length {s : List Byte} (h : tagOk s = true) : s.length = 4 := by
  simp [tagOk] at h; exact h.1

/-- Constructing a tag, said once. -/
theorem constructTag_of_ok {s : List Byte} (h : tagOk s = true) :
    constructTag s = .ok (Tag.ofBytes s) := by simp [constructTag, h]

theorem constructTag_of_not_ok {s : List Byte} (h : tagOk s = false) :
    constructTag s = .error .invalidTag := by simp [constructTag, h]

theorem constructTag_cases {s : List Byte} {t : Tag} (h : constructTag s = .ok t) :
    tagOk s = true ∧ t = Tag.ofBytes s := by
  simp only [constructTag] at h
  split at h
  · exact ⟨‹_›, by cases h; rfl⟩
  · cases h

theorem constructTag_error {s : List Byte} {k : ErrKind} (h : constructTag s = .error k) :
    k = .invalidTag ∧ tagOk s = false := by
  simp only [constructTag] at h
  split at h
  · cases h
  · exact ⟨by cases h; rfl, by simpa using ‹¬ tagOk s = true›⟩

end Sys2Proof.Laws
end

