-- ==== Sys2Proof/Laws/Memory.lean ====
section
/-! SUPPORT. The laws of MEM: read after write, what a write leaves alone, and the canonical form. -/

namespace Sys2Proof.Laws

open Sys2Proof.Machine

/-! ## One byte -/

/-- Every entry of a canonical memory differs from the fill byte. -/
theorem wf_tail {c : Host.Cell} {m : Memory} (h : Memory.wf (c :: m) = true) : m.wf = true := by
  cases m with
  | nil => rfl
  | cons d m => simp [Memory.wf] at h; exact h.2

theorem wf_head_ne_fill {c : Host.Cell} {m : Memory} (h : Memory.wf (c :: m) = true) :
    c.2 ≠ Memory.fill := by
  cases m with
  | nil => simpa [Memory.wf] using h
  | cons d m => simp [Memory.wf] at h; exact h.1.1

/-- In a canonical memory the addresses after the first are larger. -/
theorem wf_head_lt {c : Host.Cell} {m : Memory} (h : Memory.wf (c :: m) = true) :
    ∀ d ∈ m, c.1 < d.1 := by
  induction m generalizing c with
  | nil => simp
  | cons d m ih =>
    have hd : c.1 < d.1 := by simp [Memory.wf] at h; exact h.1.2
    intro e he
    rcases List.mem_cons.1 he with rfl | he
    · exact hd
    · exact lt_trans hd (ih (wf_tail h) e he)

/-- The canonical form, said once: a head that differs from the fill, lies below the rest, and a
canonical rest. -/
theorem wf_cons {c : Host.Cell} {m : Memory} (h1 : c.2 ≠ Memory.fill)
    (h2 : ∀ d ∈ m, c.1 < d.1) (h3 : m.wf = true) : Memory.wf (c :: m) = true := by
  cases m with
  | nil => simpa [Memory.wf] using h1
  | cons d m => simp [Memory.wf, h1, h2 d (by simp), h3]

/-- An address below every listed one reads as the fill byte. -/
theorem load_below_head {m : Memory} {a : Nat} (h : ∀ d ∈ m, a < d.1) : m.load a = Memory.fill := by
  induction m with
  | nil => rfl
  | cons c m ih =>
    have hc : a < c.1 := h c (by simp)
    simp only [Memory.load, if_neg (Nat.ne_of_gt hc)]
    exact ih fun d hd => h d (by simp [hd])

/-- The addresses of a memory after a store: the old ones and perhaps the stored one. -/
theorem mem_store {m : Memory} {a : Nat} {b : Byte} {d : Host.Cell} (h : d ∈ m.store a b) :
    d = (a, b) ∨ d ∈ m := by
  induction m with
  | nil => simp only [Memory.store] at h; split at h <;> simp_all
  | cons c m ih =>
    simp only [Memory.store] at h
    split at h
    · split at h
      · exact .inr h
      · rcases List.mem_cons.1 h with h | h
        · exact .inl h
        · exact .inr h
    · split at h
      · split at h
        · exact .inr (List.mem_cons_of_mem _ h)
        · rcases List.mem_cons.1 h with h | h
          · exact .inl h
          · exact .inr (List.mem_cons_of_mem _ h)
      · rcases List.mem_cons.1 h with h | h
        · exact .inr (h ▸ List.mem_cons_self)
        · rcases ih h with h | h
          · exact .inl h
          · exact .inr (List.mem_cons_of_mem _ h)

/-- A store keeps the canonical form. -/
theorem store_wf {m : Memory} (a : Nat) (b : Byte) (h : m.wf = true) : (m.store a b).wf = true := by
  induction m with
  | nil =>
    simp only [Memory.store]
    split
    · rfl
    · simpa [Memory.wf] using ‹¬ b = Memory.fill›
  | cons c m ih =>
    simp only [Memory.store]
    split
    · next hlt =>
      split
      · exact h
      · next hb =>
        refine wf_cons hb (fun d hd => ?_) h
        rcases List.mem_cons.1 hd with rfl | hd
        · exact hlt
        · exact lt_trans hlt (wf_head_lt h d hd)
    · split
      · next hle heq =>
        split
        · exact wf_tail h
        · next hb => exact wf_cons hb (fun d hd => heq ▸ wf_head_lt h d hd) (wf_tail h)
      · next hle hne =>
        refine wf_cons (wf_head_ne_fill h) (fun d hd => ?_) (ih (wf_tail h))
        rcases mem_store hd with rfl | hd
        · simp only; omega
        · exact wf_head_lt h d hd

/-- Read after write: the written byte there, the old byte everywhere else. -/
theorem load_store {m : Memory} (a a' : Nat) (b : Byte) (h : m.wf = true) :
    (m.store a b).load a' = if a' = a then b else m.load a' := by
  induction m with
  | nil =>
    simp only [Memory.store]
    split
    · next hb => subst hb; simp [Memory.load]
    · simp only [Memory.load, eq_comm (a := a) (b := a')]
  | cons c m ih =>
    simp only [Memory.store]
    split
    · next hlt =>
      split
      · next hb =>
        subst hb
        split
        · next ha =>
          subst ha
          refine load_below_head fun d hd => ?_
          rcases List.mem_cons.1 hd with rfl | hd
          · exact hlt
          · exact lt_trans hlt (wf_head_lt h d hd)
        · rfl
      · simp only [Memory.load, eq_comm (a := a) (b := a')]
    · split
      · next hle heq =>
        split
        · next hb =>
          subst hb
          split
          · next ha => subst ha heq; exact load_below_head (wf_head_lt h)
          · next ha => simp [Memory.load, ← heq, Ne.symm ha]
        · simp only [Memory.load, ← heq, eq_comm (a := a) (b := a')]
          split <;> rfl
      · next hle hne =>
        simp only [Memory.load, ih (wf_tail h)]
        by_cases h1 : c.1 = a'
        · simp [h1]; omega
        · simp [h1]

/-- A store at an address in range keeps every listed address in range. -/
theorem store_below {m : Memory} {n a : Nat} (b : Byte) (ha : a < n) (h : m.below n = true) :
    (m.store a b).below n = true := by
  simp only [Memory.below, List.all_eq_true, decide_eq_true_eq] at h ⊢
  intro d hd
  rcases mem_store hd with rfl | hd
  · exact ha
  · exact h d hd

/-! ## Strings of bytes -/

@[simp] theorem memRead_length (m : Memory) (addr n : Nat) : (memRead m addr n).length = n := by
  simp [memRead]

@[simp] theorem memRead_zero (m : Memory) (addr : Nat) : memRead m addr 0 = [] := rfl

theorem memRead_succ (m : Memory) (addr n : Nat) :
    memRead m addr (n + 1) = m.load addr :: memRead m (addr + 1) n := by
  simp [memRead, List.range'_succ]

theorem memRead_add (m : Memory) (addr n k : Nat) :
    memRead m addr (n + k) = memRead m addr n ++ memRead m (addr + n) k := by
  induction n generalizing addr with
  | zero => simp
  | succ n ih => rw [Nat.succ_add, memRead_succ, memRead_succ, ih]; simp [Nat.add_assoc, Nat.add_comm 1]

theorem memRead_getElem? (m : Memory) (addr n i : Nat) (h : i < n) :
    (memRead m addr n)[i]? = some (m.load (addr + i)) := by
  simp [memRead, h]

theorem memRead_drop (m : Memory) (addr n k : Nat) :
    (memRead m addr n).drop k = memRead m (addr + k) (n - k) := by
  rcases Nat.le_total k n with h | h
  · obtain ⟨j, rfl⟩ := Nat.exists_eq_add_of_le h
    rw [memRead_add, List.drop_append_of_le_length (by simp)]
    simp
  · simp [Nat.sub_eq_zero_of_le h, h]

theorem memRead_take (m : Memory) (addr n k : Nat) (h : k ≤ n) :
    (memRead m addr n).take k = memRead m addr k := by
  obtain ⟨j, rfl⟩ := Nat.exists_eq_add_of_le h
  rw [memRead_add, List.take_append_of_le_length (by simp)]
  simp

/-- Two memories that agree on a range read the same there. -/
theorem memRead_congr {m m' : Memory} {addr n : Nat}
    (h : ∀ a, addr ≤ a → a < addr + n → m.load a = m'.load a) :
    memRead m addr n = memRead m' addr n := by
  induction n generalizing addr with
  | zero => rfl
  | succ n ih =>
    rw [memRead_succ, memRead_succ, h addr (by omega) (by omega),
      ih fun a h1 h2 => h a (by omega) (by omega)]

theorem memWrite_wf {m : Memory} (addr : Nat) (bs : List Byte) (h : m.wf = true) :
    (memWrite m addr bs).wf = true := by
  induction bs generalizing m addr with
  | nil => exact h
  | cons b bs ih => exact ih _ (store_wf _ _ h)

theorem memWrite_below {m : Memory} {n addr : Nat} (bs : List Byte) (ha : addr + bs.length ≤ n)
    (h : m.below n = true) : (memWrite m addr bs).below n = true := by
  induction bs generalizing m addr with
  | nil => exact h
  | cons b bs ih =>
    simp only [List.length_cons] at ha
    exact ih (by omega) (store_below _ (by omega) h)

/-- What MEM holds after a write: the written byte in the range, the old byte outside it. -/
theorem load_memWrite {m : Memory} (addr : Nat) (bs : List Byte) (a : Nat) (h : m.wf = true) :
    (memWrite m addr bs).load a =
      if addr ≤ a ∧ a < addr + bs.length then bs.getD (a - addr) 0#8 else m.load a := by
  induction bs generalizing m addr with
  | nil => simp [memWrite]
  | cons b bs ih =>
    rw [memWrite, ih _ (store_wf _ _ h), load_store _ _ _ h]
    by_cases h1 : a = addr
    · subst h1; simp
    · by_cases h2 : addr + 1 ≤ a ∧ a < addr + 1 + bs.length
      · have h3 : addr ≤ a ∧ a < addr + (bs.length + 1) := by omega
        obtain ⟨k, hk⟩ : ∃ k, a - addr = k + 1 := ⟨a - addr - 1, by omega⟩
        have hk' : a - (addr + 1) = k := by omega
        simp [h2, h3, hk, hk']
      · have h3 : ¬ (addr ≤ a ∧ a < addr + (bs.length + 1)) := by omega
        simp only [List.length_cons]
        rw [if_neg h2, if_neg h3, if_neg h1]

theorem load_memWrite_outside {m : Memory} {addr a : Nat} {bs : List Byte} (h : m.wf = true)
    (ha : a < addr ∨ addr + bs.length ≤ a) : (memWrite m addr bs).load a = m.load a := by
  rw [load_memWrite _ _ _ h, if_neg (by omega)]

/-- Reading back what was written. -/
theorem memRead_memWrite {m : Memory} (addr : Nat) (bs : List Byte) (h : m.wf = true) :
    memRead (memWrite m addr bs) addr bs.length = bs := by
  apply List.ext_getElem? fun i => ?_
  by_cases hi : i < bs.length
  · rw [memRead_getElem? _ _ _ _ hi, load_memWrite _ _ _ h,
      if_pos ⟨Nat.le_add_right _ _, by omega⟩, Nat.add_sub_cancel_left]
    simp [List.getD_eq_getElem?_getD, hi]
  · simp [Nat.le_of_not_lt hi]

/-- Reading a range that a write does not touch. -/
theorem memRead_memWrite_outside {m : Memory} {addr base n : Nat} {bs : List Byte} (h : m.wf = true)
    (hr : base + n ≤ addr ∨ addr + bs.length ≤ base) :
    memRead (memWrite m addr bs) base n = memRead m base n :=
  memRead_congr fun a h1 h2 => load_memWrite_outside h (by omega)

/-- Memory built from cells is canonical. -/
theorem ofCells_wf (n : Nat) (cells : List Host.Cell) : (Memory.ofCells n cells).wf = true := by
  have key : ∀ (m : Memory), m.wf = true →
      (cells.foldl (fun m c => if c.1 < n then m.store c.1 c.2 else m) m).wf = true := by
    induction cells with
    | nil => exact fun m h => h
    | cons c cells ih =>
      intro m h
      simp only [List.foldl_cons]
      split
      · exact ih _ (store_wf _ _ h)
      · exact ih _ h
  exact key [] rfl

/-- Memory built from cells lists addresses below the bound only. -/
theorem ofCells_below (n : Nat) (cells : List Host.Cell) :
    (Memory.ofCells n cells).below n = true := by
  have key : ∀ (m : Memory), m.below n = true →
      (cells.foldl (fun m c => if c.1 < n then m.store c.1 c.2 else m) m).below n = true := by
    induction cells with
    | nil => exact fun m h => h
    | cons c cells ih =>
      intro m h
      simp only [List.foldl_cons]
      split
      · next hc => exact ih _ (store_below _ hc h)
      · exact ih _ h
  exact key [] rfl

end Sys2Proof.Laws
end

