-- ==== Sys2Proof/Laws/Record.lean ====
section
/-! SUPPORT. What a parse answers, said once per function, and the shape of serialised records. -/

namespace Sys2Proof.Laws

open Sys2Proof.Machine

/-! ## One record -/

/-- Everything a successful parse says about the string and the record. -/
theorem parseRecord_ok {s : List Byte} {x : Record} (h : parseRecord s = .ok x) :
    12 + x.length.toNat ≤ s.length ∧ x.length = be32At s 0 ∧ tagOk (sub s 4 8) = true ∧
    x.tag = Tag.ofBytes (sub s 4 8) ∧ x.payload = sub s 8 (8 + x.length.toNat) ∧
    x.crc = be32At s (8 + x.length.toNat) ∧ recordCrc x.tag x.payload = x.crc := by
  simp only [parseRecord] at h
  split at h
  · cases h
  · split at h
    · cases h
    · split at h
      · cases h
      · next t ht =>
        obtain ⟨hok, rfl⟩ := constructTag_cases ht
        split at h
        · next hc =>
          cases h
          exact ⟨by simp only; omega, rfl, hok, rfl, rfl, rfl, hc⟩
        · cases h

/-- A parse that finds room, a tag and the right checksum gives the record. -/
theorem parseRecord_of_fields {s : List Byte} (h1 : 12 ≤ s.length)
    (h2 : 8 + (be32At s 0).toNat + 4 ≤ s.length) (h3 : tagOk (sub s 4 8) = true)
    (h4 : recordCrc (Tag.ofBytes (sub s 4 8)) (sub s 8 (8 + (be32At s 0).toNat)) =
      be32At s (8 + (be32At s 0).toNat)) :
    parseRecord s = .ok ⟨be32At s 0, Tag.ofBytes (sub s 4 8), sub s 8 (8 + (be32At s 0).toNat),
      be32At s (8 + (be32At s 0).toNat)⟩ := by
  simp only [parseRecord]
  rw [if_neg (by omega), if_neg (by omega), constructTag_of_ok h3]
  exact if_pos h4

/-- The three kinds a failing parse reports. -/
theorem parseRecord_error {s : List Byte} {k : ErrKind} (h : parseRecord s = .error k) :
    k = .truncatedRecord ∨ k = .invalidTag ∨ k = .crcMismatch := by
  simp only [parseRecord] at h
  split at h
  · cases h; exact .inl rfl
  · split at h
    · cases h; exact .inl rfl
    · split at h
      · next ht => cases h; exact .inr (.inl (constructTag_error ht).1)
      · split at h
        · cases h
        · cases h; exact .inr (.inr rfl)

/-! ## Serialised records -/

@[simp] theorem serialize_length (x : Record) : (serialize x).length = 12 + x.payload.length := by
  simp [serialize]; omega

theorem valid_length {x : Record} (h : x.valid = true) : x.length.toNat = x.payload.length := by
  simp [Record.valid] at h; exact h.1.1

theorem valid_tag {x : Record} (h : x.valid = true) : tagOk x.tag.bytes = true := by
  simp [Record.valid] at h; exact h.1.2

theorem valid_crc {x : Record} (h : x.valid = true) : x.crc = recordCrc x.tag x.payload := by
  simp [Record.valid] at h; exact h.2

theorem valid_intro {x : Record} (h1 : x.length.toNat = x.payload.length)
    (h2 : tagOk x.tag.bytes = true) (h3 : x.crc = recordCrc x.tag x.payload) : x.valid = true := by
  simp [Record.valid, h1, h2, h3]

/-- `new_record` of a tag and a payload that fits is a record. -/
theorem newRecord_valid {t : Tag} {p : List Byte} (ht : tagOk t.bytes = true)
    (hp : p.length < 2 ^ 32) : (newRecord t p).valid = true :=
  valid_intro (by simp [newRecord]; omega) ht rfl

/-- The fields of a string that begins with a serialised record. -/
theorem serialize_fields (x : Record) (z : List Byte) (hl : x.length.toNat = x.payload.length) :
    be32At (serialize x ++ z) 0 = x.length ∧
    sub (serialize x ++ z) 4 8 = x.tag.bytes ∧
    sub (serialize x ++ z) 8 (8 + x.length.toNat) = x.payload ∧
    be32At (serialize x ++ z) (8 + x.length.toNat) = x.crc := by
  have e1 : serialize x ++ z = be32Bytes x.length ++ (x.tag.bytes ++ (x.payload ++
      (be32Bytes x.crc ++ z))) := by simp [serialize]
  have e2 : serialize x ++ z = (be32Bytes x.length ++ x.tag.bytes) ++ (x.payload ++
      (be32Bytes x.crc ++ z)) := by simp [serialize]
  have e3 : serialize x ++ z = (be32Bytes x.length ++ x.tag.bytes ++ x.payload) ++
      (be32Bytes x.crc ++ z) := by simp [serialize]
  refine ⟨?_, ?_, ?_, ?_⟩
  · rw [e1]; exact be32At_zero_append _ _
  · rw [e1]; exact sub_middle (be32Bytes x.length) x.tag.bytes _
  · rw [e2, hl]; exact sub_middle (be32Bytes x.length ++ x.tag.bytes) x.payload _
  · have := be32At_append (be32Bytes x.length ++ x.tag.bytes ++ x.payload) z x.crc
    have e : 8 + x.payload.length = (be32Bytes x.length ++ x.tag.bytes ++ x.payload).length := by
      simp; omega
    rw [e3, hl, e, this]

/-! ## Streams -/

@[simp] theorem sig_length : sig.length = 8 := rfl

/-- The kinds and the offset a failing run of the loop reports. -/
theorem parseRecords_error {n : Nat} {s : List Byte} {cur : Nat} {f : Failure}
    (h : parseRecords n s cur = .error f) :
    (f.kind = .truncatedRecord ∨ f.kind = .invalidTag ∨ f.kind = .crcMismatch) ∧ f.off < s.length := by
  induction n generalizing cur with
  | zero => cases h
  | succ n ih =>
    simp only [parseRecords] at h
    split at h
    · next hlt =>
      split at h
      · next k hk => cases h; exact ⟨parseRecord_error hk, hlt⟩
      · split at h
        · next f' hf => cases h; exact ih hf
        · cases h
    · cases h

/-- The kinds and the offset of a failing stream parse. -/
theorem parseStream_error {s : List Byte} {f : Failure} (h : parseStream s = .error f) :
    (f.kind = .badSignature ∧ f.off = 0 ∧ sigOk s = false) ∨
    (sigOk s = true ∧ (f.kind = .truncatedRecord ∨ f.kind = .invalidTag ∨ f.kind = .crcMismatch) ∧
      f.off < s.length) := by
  simp only [parseStream] at h
  split at h
  · next hs => exact .inr ⟨hs, (parseRecords_error h).1, (parseRecords_error h).2⟩
  · next hs => cases h; exact .inl ⟨rfl, rfl, by simpa using hs⟩

end Sys2Proof.Laws
end

