-- ==== Sys2Proof/Laws/State.lean ====
section
/-! SUPPORT. One lemma per field per named update of the state, so that no later proof unfolds a record update. -/

namespace Sys2Proof.Laws

open Sys2Proof.Machine

/-! ## `complete` -/

@[simp] theorem complete_err (s : State) : (complete s).err = 0#32 := rfl
@[simp] theorem complete_errOff (s : State) : (complete s).errOff = 0#32 := rfl
@[simp] theorem complete_srcAddr (s : State) : (complete s).srcAddr = s.srcAddr := rfl
@[simp] theorem complete_srcLen (s : State) : (complete s).srcLen = s.srcLen := rfl
@[simp] theorem complete_rcur (s : State) : (complete s).rcur = s.rcur := rfl
@[simp] theorem complete_dstAddr (s : State) : (complete s).dstAddr = s.dstAddr := rfl
@[simp] theorem complete_dstCap (s : State) : (complete s).dstCap = s.dstCap := rfl
@[simp] theorem complete_wcur (s : State) : (complete s).wcur = s.wcur := rfl
@[simp] theorem complete_tag (s : State) : (complete s).tag = s.tag := rfl
@[simp] theorem complete_tagFlags (s : State) : (complete s).tagFlags = s.tagFlags := rfl
@[simp] theorem complete_recLen (s : State) : (complete s).recLen = s.recLen := rfl
@[simp] theorem complete_recTag (s : State) : (complete s).recTag = s.recTag := rfl
@[simp] theorem complete_recPay (s : State) : (complete s).recPay = s.recPay := rfl
@[simp] theorem complete_recCrc (s : State) : (complete s).recCrc = s.recCrc := rfl
@[simp] theorem complete_crcAcc (s : State) : (complete s).crcAcc = s.crcAcc := rfl
@[simp] theorem complete_crcOut (s : State) : (complete s).crcOut = s.crcOut := rfl
@[simp] theorem complete_count (s : State) : (complete s).count = s.count := rfl
@[simp] theorem complete_mem (s : State) : (complete s).mem = s.mem := rfl
@[simp] theorem complete_memLast (s : State) : (complete s).memLast = s.memLast := rfl
@[simp] theorem complete_pending (s : State) : (complete s).pending = s.pending := rfl
@[simp] theorem complete_replies (s : State) : (complete s).replies = s.replies := rfl

/-! ## `raiseError` -/

@[simp] theorem raiseError_err (k : ErrKind) (off : Nat) (s : State) :
    (raiseError k off s).err = k.code := rfl
@[simp] theorem raiseError_errOff (k : ErrKind) (off : Nat) (s : State) :
    (raiseError k off s).errOff = BitVec.ofNat 32 off := rfl
@[simp] theorem raiseError_srcAddr (k : ErrKind) (off : Nat) (s : State) :
    (raiseError k off s).srcAddr = s.srcAddr := rfl
@[simp] theorem raiseError_srcLen (k : ErrKind) (off : Nat) (s : State) :
    (raiseError k off s).srcLen = s.srcLen := rfl
@[simp] theorem raiseError_rcur (k : ErrKind) (off : Nat) (s : State) :
    (raiseError k off s).rcur = s.rcur := rfl
@[simp] theorem raiseError_dstAddr (k : ErrKind) (off : Nat) (s : State) :
    (raiseError k off s).dstAddr = s.dstAddr := rfl
@[simp] theorem raiseError_dstCap (k : ErrKind) (off : Nat) (s : State) :
    (raiseError k off s).dstCap = s.dstCap := rfl
@[simp] theorem raiseError_wcur (k : ErrKind) (off : Nat) (s : State) :
    (raiseError k off s).wcur = s.wcur := rfl
@[simp] theorem raiseError_tag (k : ErrKind) (off : Nat) (s : State) :
    (raiseError k off s).tag = s.tag := rfl
@[simp] theorem raiseError_tagFlags (k : ErrKind) (off : Nat) (s : State) :
    (raiseError k off s).tagFlags = s.tagFlags := rfl
@[simp] theorem raiseError_recLen (k : ErrKind) (off : Nat) (s : State) :
    (raiseError k off s).recLen = s.recLen := rfl
@[simp] theorem raiseError_recTag (k : ErrKind) (off : Nat) (s : State) :
    (raiseError k off s).recTag = s.recTag := rfl
@[simp] theorem raiseError_recPay (k : ErrKind) (off : Nat) (s : State) :
    (raiseError k off s).recPay = s.recPay := rfl
@[simp] theorem raiseError_recCrc (k : ErrKind) (off : Nat) (s : State) :
    (raiseError k off s).recCrc = s.recCrc := rfl
@[simp] theorem raiseError_crcAcc (k : ErrKind) (off : Nat) (s : State) :
    (raiseError k off s).crcAcc = s.crcAcc := rfl
@[simp] theorem raiseError_crcOut (k : ErrKind) (off : Nat) (s : State) :
    (raiseError k off s).crcOut = s.crcOut := rfl
@[simp] theorem raiseError_count (k : ErrKind) (off : Nat) (s : State) :
    (raiseError k off s).count = s.count := rfl
@[simp] theorem raiseError_mem (k : ErrKind) (off : Nat) (s : State) :
    (raiseError k off s).mem = s.mem := rfl
@[simp] theorem raiseError_memLast (k : ErrKind) (off : Nat) (s : State) :
    (raiseError k off s).memLast = s.memLast := rfl
@[simp] theorem raiseError_pending (k : ErrKind) (off : Nat) (s : State) :
    (raiseError k off s).pending = s.pending := rfl
@[simp] theorem raiseError_replies (k : ErrKind) (off : Nat) (s : State) :
    (raiseError k off s).replies = s.replies := rfl

/-! ## `resetEngine` -/

@[simp] theorem resetEngine_mem (c : List Host.Cell) (s : State) :
    (resetEngine c s).mem = Memory.ofCells (memBytes s) c := rfl
@[simp] theorem resetEngine_crcAcc (c : List Host.Cell) (s : State) :
    (resetEngine c s).crcAcc = 0xFFFFFFFF#32 := rfl
@[simp] theorem resetEngine_err (c : List Host.Cell) (s : State) :
    (resetEngine c s).err = 0#32 := rfl
@[simp] theorem resetEngine_errOff (c : List Host.Cell) (s : State) :
    (resetEngine c s).errOff = 0#32 := rfl
@[simp] theorem resetEngine_srcAddr (c : List Host.Cell) (s : State) :
    (resetEngine c s).srcAddr = 0#32 := rfl
@[simp] theorem resetEngine_srcLen (c : List Host.Cell) (s : State) :
    (resetEngine c s).srcLen = 0#32 := rfl
@[simp] theorem resetEngine_rcur (c : List Host.Cell) (s : State) :
    (resetEngine c s).rcur = 0#32 := rfl
@[simp] theorem resetEngine_dstAddr (c : List Host.Cell) (s : State) :
    (resetEngine c s).dstAddr = 0#32 := rfl
@[simp] theorem resetEngine_dstCap (c : List Host.Cell) (s : State) :
    (resetEngine c s).dstCap = 0#32 := rfl
@[simp] theorem resetEngine_wcur (c : List Host.Cell) (s : State) :
    (resetEngine c s).wcur = 0#32 := rfl
@[simp] theorem resetEngine_tag (c : List Host.Cell) (s : State) :
    (resetEngine c s).tag = 0#32 := rfl
@[simp] theorem resetEngine_tagFlags (c : List Host.Cell) (s : State) :
    (resetEngine c s).tagFlags = 0#32 := rfl
@[simp] theorem resetEngine_recLen (c : List Host.Cell) (s : State) :
    (resetEngine c s).recLen = 0#32 := rfl
@[simp] theorem resetEngine_recTag (c : List Host.Cell) (s : State) :
    (resetEngine c s).recTag = 0#32 := rfl
@[simp] theorem resetEngine_recPay (c : List Host.Cell) (s : State) :
    (resetEngine c s).recPay = 0#32 := rfl
@[simp] theorem resetEngine_recCrc (c : List Host.Cell) (s : State) :
    (resetEngine c s).recCrc = 0#32 := rfl
@[simp] theorem resetEngine_crcOut (c : List Host.Cell) (s : State) :
    (resetEngine c s).crcOut = 0#32 := rfl
@[simp] theorem resetEngine_count (c : List Host.Cell) (s : State) :
    (resetEngine c s).count = 0#32 := rfl
@[simp] theorem resetEngine_memLast (c : List Host.Cell) (s : State) :
    (resetEngine c s).memLast = s.memLast := rfl
@[simp] theorem resetEngine_pending (c : List Host.Cell) (s : State) :
    (resetEngine c s).pending = s.pending := rfl
@[simp] theorem resetEngine_replies (c : List Host.Cell) (s : State) :
    (resetEngine c s).replies = s.replies := rfl

/-! ## `writeReg`: the fields no host write to a register touches -/

@[simp] theorem writeReg_err (s : State) (v : Word) (r : Reg) :
    (writeReg s v r).err = s.err := by cases r <;> rfl
@[simp] theorem writeReg_errOff (s : State) (v : Word) (r : Reg) :
    (writeReg s v r).errOff = s.errOff := by cases r <;> rfl
@[simp] theorem writeReg_tagFlags (s : State) (v : Word) (r : Reg) :
    (writeReg s v r).tagFlags = s.tagFlags := by cases r <;> rfl
@[simp] theorem writeReg_recLen (s : State) (v : Word) (r : Reg) :
    (writeReg s v r).recLen = s.recLen := by cases r <;> rfl
@[simp] theorem writeReg_recTag (s : State) (v : Word) (r : Reg) :
    (writeReg s v r).recTag = s.recTag := by cases r <;> rfl
@[simp] theorem writeReg_recPay (s : State) (v : Word) (r : Reg) :
    (writeReg s v r).recPay = s.recPay := by cases r <;> rfl
@[simp] theorem writeReg_recCrc (s : State) (v : Word) (r : Reg) :
    (writeReg s v r).recCrc = s.recCrc := by cases r <;> rfl
@[simp] theorem writeReg_crcOut (s : State) (v : Word) (r : Reg) :
    (writeReg s v r).crcOut = s.crcOut := by cases r <;> rfl
@[simp] theorem writeReg_count (s : State) (v : Word) (r : Reg) :
    (writeReg s v r).count = s.count := by cases r <;> rfl
@[simp] theorem writeReg_mem (s : State) (v : Word) (r : Reg) :
    (writeReg s v r).mem = s.mem := by cases r <;> rfl
@[simp] theorem writeReg_memLast (s : State) (v : Word) (r : Reg) :
    (writeReg s v r).memLast = s.memLast := by cases r <;> rfl
@[simp] theorem writeReg_pending (s : State) (v : Word) (r : Reg) :
    (writeReg s v r).pending = s.pending := by cases r <;> rfl
@[simp] theorem writeReg_replies (s : State) (v : Word) (r : Reg) :
    (writeReg s v r).replies = s.replies := by cases r <;> rfl

/-! ## `withFetchWord` -/

@[simp] theorem withFetchWord_pending (s : State) (nbits w : Nat) :
    (s.withFetchWord nbits w).pending = .writeReg 0 (tableWord nbits w) :: s.pending := rfl
@[simp] theorem withFetchWord_mem (s : State) (nbits w : Nat) :
    (s.withFetchWord nbits w).mem = s.mem := rfl

/-! ## Computed quantities that read only some fields -/

@[simp] theorem memBytes_complete (s : State) : memBytes (complete s) = memBytes s := rfl
@[simp] theorem memBytes_raiseError (k : ErrKind) (off : Nat) (s : State) :
    memBytes (raiseError k off s) = memBytes s := rfl

/-- Every code but the host-level ones is legal in ERR, and none is 0 (`60_exceptions.md` R251). -/
@[simp] theorem code_ne_zero (k : ErrKind) : k.code ≠ 0#32 := by cases k <;> decide

end Sys2Proof.Laws
end

