-- ==== Sys2Proof/Laws/Command.lean ====
section
/-! SUPPORT. One inversion lemma per command: everything it can do when it answers a next state. -/

namespace Sys2Proof.Laws

open Sys2Proof.Machine

/-- A command ends in one of two ways. -/
theorem conclude_cases {s t : State} {r : Except Failure State} (h : conclude s r = .next t) :
    (∃ f, r = .error f ∧ t = raiseError f.kind f.off s) ∨ (∃ s', r = .ok s' ∧ t = complete s') := by
  cases r with
  | error f => cases h; exact .inl ⟨f, rfl, rfl⟩
  | ok s' => cases h; exact .inr ⟨s', rfl, rfl⟩

@[simp] theorem conclude_ok (s s' : State) : conclude s (.ok s') = .next (complete s') := rfl

@[simp] theorem conclude_error (s : State) (f : Failure) :
    conclude s (.error f) = .next (raiseError f.kind f.off s) := rfl

theorem withSource_good {s : State} (h : srcOk s = true) (body : Except Failure State) :
    withSource s body = body := by simp [withSource, h]

theorem withSource_bad {s : State} (h : srcOk s = false) (body : Except Failure State) :
    withSource s body = .error ⟨.accessFault, 0⟩ := by simp [withSource, h]

/-- What a good source window means. -/
theorem srcOk_iff (s : State) : srcOk s = true ↔
    s.rcur.toNat ≤ s.srcLen.toNat ∧ s.srcAddr.toNat + s.srcLen.toNat ≤ memBytes s := by
  simp [srcOk]

/-- What a good destination window means. -/
theorem dstOk_iff (s : State) (n : Nat) : dstOk s n = true ↔
    s.dstAddr.toNat + s.dstCap.toNat ≤ memBytes s ∧ s.wcur.toNat + n ≤ s.dstCap.toNat := by
  simp [dstOk]

@[simp] theorem slice_length (s : State) : (slice s).length = avail s := by simp [slice]

theorem avail_lt (s : State) : avail s < 2 ^ 32 := by
  have := s.srcLen.isLt; simp only [avail]; omega

theorem memBytes_le (s : State) : memBytes s ≤ 2 ^ 32 := by
  have := s.memLast.isLt; simp only [memBytes]; omega

theorem nop_cases {s t : State} (h : execNop s = .next t) : t = complete s := by cases h; rfl

theorem tagChk_cases {s t : State} (h : execTagChk s = .next t) :
    (tagOk (be32Bytes s.tag) = false ∧ t = raiseError .invalidTag 0 s) ∨
    (tagOk (be32Bytes s.tag) = true ∧
      t = complete { s with tagFlags := (Tag.ofBytes (be32Bytes s.tag)).flags }) := by
  simp only [execTagChk] at h
  split at h
  · next k hk => obtain ⟨rfl, h2⟩ := constructTag_error hk; cases h; exact .inl ⟨h2, rfl⟩
  · next t hk => obtain ⟨h1, rfl⟩ := constructTag_cases hk; cases h; exact .inr ⟨h1, rfl⟩

theorem tagLds_cases {s t : State} (h : execTagLds s = .next t) :
    (srcOk s = false ∧ t = raiseError .accessFault 0 s) ∨
    (srcOk s = true ∧ tagOk (slice s) = false ∧ t = raiseError .invalidTag s.rcur.toNat s) ∨
    (srcOk s = true ∧ avail s = 4 ∧ tagOk (slice s) = true ∧
      t = complete { s with
        tag := (Tag.ofBytes (slice s)).toWord, tagFlags := (Tag.ofBytes (slice s)).flags }) := by
  simp only [execTagLds] at h
  by_cases hs : srcOk s = true
  · rw [withSource_good hs] at h
    split at h
    · next ha =>
      have e : memRead s.mem (sliceBase s) 4 = slice s := by rw [slice, ha]
      rw [e] at h
      split at h
      · next k hk => obtain ⟨rfl, h2⟩ := constructTag_error hk; cases h; exact .inr (.inl ⟨hs, h2, rfl⟩)
      · next t hk =>
        obtain ⟨h1, rfl⟩ := constructTag_cases hk; cases h; exact .inr (.inr ⟨hs, ha, h1, rfl⟩)
    · next ha =>
      cases h
      refine .inr (.inl ⟨hs, ?_, rfl⟩)
      by_contra hc
      exact ha (by rw [← slice_length]; exact tagOk_length (by simpa using hc))
  · have hs : srcOk s = false := by simpa using hs
    rw [withSource_bad hs] at h; cases h; exact .inl ⟨hs, rfl⟩

theorem crcInit_cases {s t : State} (h : execCrcInit s = .next t) :
    t = complete { s with crcAcc := crcInitial } := by cases h; rfl

theorem crcByte_cases {s t : State} {d : Byte} (h : execCrcByte d s = .next t) :
    t = complete { s with crcAcc := crcByte s.crcAcc d } := by cases h; rfl

theorem crcFin_cases {s t : State} (h : execCrcFin s = .next t) :
    t = complete { s with crcOut := s.crcAcc ^^^ crcXorOut } := by cases h; rfl

theorem crcBuf_cases {s t : State} (h : execCrcBuf s = .next t) :
    (srcOk s = false ∧ t = raiseError .accessFault 0 s) ∨
    (srcOk s = true ∧ t = complete { s with crcAcc := crcUpdate s.crcAcc (slice s) }) := by
  simp only [execCrcBuf] at h
  by_cases hs : srcOk s = true
  · rw [withSource_good hs] at h; cases h; exact .inr ⟨hs, rfl⟩
  · have hs : srcOk s = false := by simpa using hs
    rw [withSource_bad hs] at h; cases h; exact .inl ⟨hs, rfl⟩

theorem crcCalc_cases {s t : State} (h : execCrcCalc s = .next t) :
    (srcOk s = false ∧ t = raiseError .accessFault 0 s) ∨
    (srcOk s = true ∧ t = complete { s with crcOut := crc32 (slice s) }) := by
  simp only [execCrcCalc] at h
  by_cases hs : srcOk s = true
  · rw [withSource_good hs] at h; cases h; exact .inr ⟨hs, rfl⟩
  · have hs : srcOk s = false := by simpa using hs
    rw [withSource_bad hs] at h; cases h; exact .inl ⟨hs, rfl⟩

theorem frmParse_cases {s t : State} (h : execFrmParse s = .next t) :
    (srcOk s = false ∧ t = raiseError .accessFault 0 s) ∨
    (∃ k, srcOk s = true ∧ parseRecord (slice s) = .error k ∧ t = raiseError k s.rcur.toNat s) ∨
    (∃ x, srcOk s = true ∧ parseRecord (slice s) = .ok x ∧ t = complete { s with
      recLen := x.length
      recTag := x.tag.toWord
      recPay := BitVec.ofNat 32 (sliceBase s + 8)
      recCrc := x.crc
      tagFlags := x.tag.flags
      rcur := BitVec.ofNat 32 (s.rcur.toNat + 12 + x.length.toNat) }) := by
  simp only [execFrmParse] at h
  by_cases hs : srcOk s = true
  · rw [withSource_good hs] at h
    split at h
    · next k hk => cases h; exact .inr (.inl ⟨k, hs, hk, rfl⟩)
    · next x hx => cases h; exact .inr (.inr ⟨x, hs, hx, rfl⟩)
  · have hs : srcOk s = false := by simpa using hs
    rw [withSource_bad hs] at h; cases h; exact .inl ⟨hs, rfl⟩

/-- When the two ranges of FRM.BUILD share an address (`20_memory.md` R68). -/
theorem rangesMeet_iff (a n b m : Nat) : rangesMeet a n b m = true ↔
    0 < n ∧ 0 < m ∧ a < b + m ∧ b < a + n := by
  simp [rangesMeet, and_assoc]

theorem frmBuild_cases {s t : State} (h : execFrmBuild s = .next t) :
    (srcOk s = false ∧ t = raiseError .accessFault 0 s) ∨
    (srcOk s = true ∧ tagOk (be32Bytes s.tag) = false ∧ t = raiseError .invalidTag 0 s) ∨
    (srcOk s = true ∧ tagOk (be32Bytes s.tag) = true ∧
      (dstOk s (12 + avail s) = false ∨
        rangesMeet (sliceBase s) (avail s) (writeBase s) (12 + avail s) = true) ∧
      t = raiseError .accessFault 0 s) ∨
    (srcOk s = true ∧ tagOk (be32Bytes s.tag) = true ∧ dstOk s (12 + avail s) = true ∧
      rangesMeet (sliceBase s) (avail s) (writeBase s) (12 + avail s) = false ∧
      t = complete { s with
        mem := memWrite s.mem (writeBase s)
          (serialize (newRecord (Tag.ofBytes (be32Bytes s.tag)) (slice s)))
        recLen := BitVec.ofNat 32 (avail s)
        recTag := s.tag
        recPay := BitVec.ofNat 32 (writeBase s + 8)
        recCrc := recordCrc (Tag.ofBytes (be32Bytes s.tag)) (slice s)
        tagFlags := (Tag.ofBytes (be32Bytes s.tag)).flags
        wcur := BitVec.ofNat 32 (s.wcur.toNat + 12 + avail s) }) := by
  simp only [execFrmBuild] at h
  by_cases hs : srcOk s = true
  · rw [withSource_good hs] at h
    split at h
    · next k hk => obtain ⟨rfl, h2⟩ := constructTag_error hk; cases h; exact .inr (.inl ⟨hs, h2, rfl⟩)
    · next tg hk =>
      obtain ⟨h1, rfl⟩ := constructTag_cases hk
      split at h
      · next hd =>
        split at h
        · next ho => cases h; exact .inr (.inr (.inl ⟨hs, h1, .inr ho, rfl⟩))
        · next ho =>
          cases h
          refine .inr (.inr (.inr ⟨hs, h1, hd, by simpa using ho, ?_⟩))
          simp [newRecord]
      · next hd => cases h; exact .inr (.inr (.inl ⟨hs, h1, .inl (by simpa using hd), rfl⟩))
  · have hs : srcOk s = false := by simpa using hs
    rw [withSource_bad hs] at h; cases h; exact .inl ⟨hs, rfl⟩

theorem sigChk_cases {s t : State} (h : execSigChk s = .next t) :
    (srcOk s = false ∧ t = raiseError .accessFault 0 s) ∨
    (srcOk s = true ∧ sigOk (slice s) = false ∧ t = raiseError .badSignature s.rcur.toNat s) ∨
    (srcOk s = true ∧ sigOk (slice s) = true ∧
      t = complete { s with rcur := BitVec.ofNat 32 (s.rcur.toNat + 8) }) := by
  simp only [execSigChk] at h
  by_cases hs : srcOk s = true
  · rw [withSource_good hs] at h
    split at h
    · next hg => cases h; exact .inr (.inr ⟨hs, hg, rfl⟩)
    · next hg => cases h; exact .inr (.inl ⟨hs, by simpa using hg, rfl⟩)
  · have hs : srcOk s = false := by simpa using hs
    rw [withSource_bad hs] at h; cases h; exact .inl ⟨hs, rfl⟩

theorem sigPut_cases {s t : State} (h : execSigPut s = .next t) :
    (dstOk s 8 = false ∧ t = raiseError .accessFault 0 s) ∨
    (dstOk s 8 = true ∧ t = complete { s with
      mem := memWrite s.mem (writeBase s) sig
      wcur := BitVec.ofNat 32 (s.wcur.toNat + 8) }) := by
  simp only [execSigPut] at h
  split at h
  · next hd => cases h; exact .inr ⟨hd, rfl⟩
  · next hd => cases h; exact .inl ⟨by simpa using hd, rfl⟩

theorem strScan_cases {s t : State} (h : execStrScan s = .next t) :
    (srcOk s = false ∧ t = raiseError .accessFault 0 s) ∨
    (∃ f, srcOk s = true ∧ parseStream (slice s) = .error f ∧
      t = raiseError f.kind (s.rcur.toNat + f.off) s) ∨
    (∃ chunks, srcOk s = true ∧ parseStream (slice s) = .ok chunks ∧
      t = complete { s with count := BitVec.ofNat 32 chunks.length, rcur := s.srcLen }) := by
  simp only [execStrScan] at h
  by_cases hs : srcOk s = true
  · rw [withSource_good hs] at h
    split at h
    · next f hf => cases h; exact .inr (.inl ⟨f, hs, hf, rfl⟩)
    · next c hc => cases h; exact .inr (.inr ⟨c, hs, hc, rfl⟩)
  · have hs : srcOk s = false := by simpa using hs
    rw [withSource_bad hs] at h; cases h; exact .inl ⟨hs, rfl⟩

/-- Every command ends by `conclude`, so in a next state, and a failing one changes nothing but ERR and
ERR_OFF (`10_state.md` R38). -/
theorem exec_concludes (i : Instr) (s : State) : ∃ r, exec i s = conclude s r := by
  cases i
  · exact ⟨.ok s, rfl⟩
  · exact ⟨_, rfl⟩
  · exact ⟨_, rfl⟩
  · exact ⟨.ok { s with crcAcc := crcInitial }, rfl⟩
  · next d => exact ⟨.ok { s with crcAcc := crcByte s.crcAcc d }, rfl⟩
  · exact ⟨_, rfl⟩
  · exact ⟨.ok { s with crcOut := s.crcAcc ^^^ crcXorOut }, rfl⟩
  all_goals exact ⟨_, rfl⟩

/-- What no command touches: the size of MEM, the actions to come, the replies, and the window registers
(`10_state.md` R23). -/
theorem exec_keeps {i : Instr} {s t : State} (h : exec i s = .next t) :
    t.memLast = s.memLast ∧ t.pending = s.pending ∧ t.replies = s.replies ∧
    t.srcAddr = s.srcAddr ∧ t.srcLen = s.srcLen ∧ t.dstAddr = s.dstAddr ∧ t.dstCap = s.dstCap := by
  cases i
  · rw [nop_cases h]; simp
  · rcases tagChk_cases h with ⟨_, rfl⟩ | ⟨_, rfl⟩ <;> simp
  · rcases tagLds_cases h with ⟨_, rfl⟩ | ⟨_, _, rfl⟩ | ⟨_, _, _, rfl⟩ <;> simp
  · rw [crcInit_cases h]; simp
  · rw [crcByte_cases h]; simp
  · rcases crcBuf_cases h with ⟨_, rfl⟩ | ⟨_, rfl⟩ <;> simp
  · rw [crcFin_cases h]; simp
  · rcases crcCalc_cases h with ⟨_, rfl⟩ | ⟨_, rfl⟩ <;> simp
  · rcases frmParse_cases h with ⟨_, rfl⟩ | ⟨_, _, _, rfl⟩ | ⟨_, _, _, rfl⟩ <;> simp
  · rcases frmBuild_cases h with ⟨_, rfl⟩ | ⟨_, _, rfl⟩ | ⟨_, _, _, rfl⟩ | ⟨_, _, _, _, rfl⟩ <;> simp
  · rcases sigChk_cases h with ⟨_, rfl⟩ | ⟨_, _, rfl⟩ | ⟨_, _, rfl⟩ <;> simp
  · rcases sigPut_cases h with ⟨_, rfl⟩ | ⟨_, rfl⟩ <;> simp
  · rcases strScan_cases h with ⟨_, rfl⟩ | ⟨_, _, _, rfl⟩ | ⟨_, _, _, rfl⟩ <;> simp

end Sys2Proof.Laws
end

