-- ==== Sys2Proof/Laws/Crc.lean ====
section
/-! SUPPORT. The checksum function: pieces, and the shift of one bit as a linear, injective map. -/

namespace Sys2Proof.Laws

open Sys2Proof.Machine

/-! ## Pieces of a string -/

@[simp] theorem crcUpdate_nil (r : Word) : crcUpdate r [] = r := rfl

@[simp] theorem crcUpdate_cons (r : Word) (d : Byte) (s : List Byte) :
    crcUpdate r (d :: s) = crcUpdate (crcByte r d) s := rfl

/-- A digest can be computed piecewise (`41_crc.md` R142). -/
theorem crcUpdate_append (r : Word) (a b : List Byte) :
    crcUpdate r (a ++ b) = crcUpdate (crcUpdate r a) b := by
  induction a generalizing r with
  | nil => rfl
  | cons d a ih => simp [ih]

theorem crcUpdate_eq_foldl (r : Word) (s : List Byte) : crcUpdate r s = s.foldl crcByte r := by
  induction s generalizing r with
  | nil => rfl
  | cons d s ih => simp [ih]

/-! ## One bit -/

theorem crcShift_xor (x y : Word) : crcShift (x ^^^ y) = crcShift x ^^^ crcShift y := by
  simp only [crcShift, BitVec.getLsbD_xor, BitVec.ushiftRight_xor_distrib]
  cases x.getLsbD 0 <;> cases y.getLsbD 0 <;> simp [BitVec.xor_assoc]
  · exact BitVec.xor_comm _ _

theorem crcShift_zero : crcShift 0#32 = 0#32 := by decide

/-- The bit that falls out comes back as bit 31, because the polynomial has bit 31 set. -/
theorem crcShift_msb (x : Word) : (crcShift x).getLsbD 31 = x.getLsbD 0 := by
  simp only [crcShift]
  split
  · next h => rw [h]; simp [crcPoly]
  · next h => simp at h; simp [h]

theorem crcShift_eq_zero {x : Word} (h : crcShift x = 0#32) : x = 0#32 := by
  have h0 : x.getLsbD 0 = false := by rw [← crcShift_msb, h]; rfl
  apply BitVec.eq_of_getLsbD_eq
  intro i hi
  match i with
  | 0 => simpa using h0
  | i + 1 =>
    have h1 := congrArg (fun w : Word => w.getLsbD i) h
    rw [crcShift, if_neg (by rw [h0]; decide)] at h1
    simpa [Nat.add_comm] using h1

theorem crcShift_injective : Function.Injective crcShift := by
  intro x y h
  have : crcShift (x ^^^ y) = 0#32 := by rw [crcShift_xor, h, BitVec.xor_self]
  have := crcShift_eq_zero this
  exact BitVec.xor_eq_zero_iff.1 this

/-! ## Several bits -/

theorem crcShifts_xor (n : Nat) (x y : Word) :
    crcShifts n (x ^^^ y) = crcShifts n x ^^^ crcShifts n y := by
  induction n generalizing x y with
  | zero => rfl
  | succ n ih => simp [crcShifts, crcShift_xor, ih]

theorem crcShifts_zero (n : Nat) : crcShifts n 0#32 = 0#32 := by
  induction n with
  | zero => rfl
  | succ n ih => simp [crcShifts, crcShift_zero, ih]

theorem crcShifts_injective (n : Nat) : Function.Injective (crcShifts n) := by
  induction n with
  | zero => exact fun _ _ h => h
  | succ n ih => exact fun x y h => crcShift_injective (ih h)

/-- With the low bits clear the register only moves. -/
theorem crcShifts_of_low_zero (n : Nat) (x : Word) (h : ∀ i, i < n → x.getLsbD i = false) :
    crcShifts n x = x >>> n := by
  induction n generalizing x with
  | zero => simp [crcShifts]
  | succ n ih =>
    have h0 : crcShift x = x >>> 1 := by rw [crcShift, if_neg (by rw [h 0 (by omega)]; decide)]
    rw [crcShifts, h0, ih]
    · rw [← BitVec.shiftRight_add, Nat.add_comm]
    · intro i hi
      simpa [Nat.add_comm] using h (i + 1) (by omega)

theorem crcByte_xor (r r' : Word) (d d' : Byte) :
    crcByte (r ^^^ r') (d ^^^ d') = crcByte r d ^^^ crcByte r' d' := by
  simp only [crcByte, ← crcShifts_xor]
  congr 1
  rw [BitVec.setWidth_xor, BitVec.xor_assoc, BitVec.xor_assoc, ← BitVec.xor_assoc r',
    ← BitVec.xor_assoc (d.setWidth 32), BitVec.xor_comm r']

/-- The register before a byte is fed is settled by the register after it. -/
theorem crcByte_register_injective (d : Byte) : Function.Injective fun r => crcByte r d := by
  intro x y h
  exact (BitVec.xor_left_inj _).1 (crcShifts_injective 8 h)

/-- So a whole string fed keeps different registers different. -/
theorem crcUpdate_injective (s : List Byte) : Function.Injective fun r => crcUpdate r s := by
  induction s with
  | nil => exact fun _ _ h => h
  | cons d s ih => exact fun x y h => crcByte_register_injective d (ih h)

/-- The byte fed is settled by the register before and after it. -/
theorem crcByte_byte_injective (r : Word) : Function.Injective (crcByte r) := by
  intro x y h
  have h1 := crcShifts_injective 8 h
  have h2 : x.setWidth 32 = y.setWidth 32 := (BitVec.xor_right_inj _).1 h1
  have h3 := congrArg (fun w : Word => w.setWidth 8) h2
  simpa using h3

theorem crc32_injective_of_update {s s' : List Byte}
    (h : crc32 s = crc32 s') : crcUpdate crcInitial s = crcUpdate crcInitial s' :=
  (BitVec.xor_left_inj _).1 h

end Sys2Proof.Laws
end

