-- ==== Sys2Proof/Laws/Decode.lean ====
section
/-! SUPPORT. The fields of a written-out command word. -/

namespace Sys2Proof.Laws

/-- A format B word as a number: `OP + (IMM8 << 8)` (`30_encoding.md` R94, R95). -/
theorem wordB_toNat (imm8 op : Byte) : (wordB imm8 op).toNat = imm8.toNat * 256 + op.toNat := by
  have h : (wordB imm8 op).toNat = ((0#16 ++ imm8 : BitVec (16 + 8)) ++ op).toNat := rfl
  rw [h, BitVec.toNat_append, BitVec.toNat_append, ← Nat.shiftLeft_add_eq_or_of_lt op.isLt]
  simp [Nat.shiftLeft_eq]

/-- A word is a written-out word exactly when its three fields are. -/
theorem eq_wordB_iff (w : Word) (imm8 op : Byte) :
    w = wordB imm8 op ↔ highField w = 0#16 ∧ immField w = imm8 ∧ opField w = op := by
  have h1 := imm8.isLt
  have h2 := op.isLt
  have h3 := w.isLt
  rw [← BitVec.toNat_inj, wordB_toNat, ← BitVec.toNat_inj, ← BitVec.toNat_inj, ← BitVec.toNat_inj]
  simp only [highField, immField, opField, BitVec.extractLsb'_toNat, Nat.shiftRight_eq_div_pow,
    BitVec.toNat_ofNat]
  omega

theorem eq_wordN_iff (w : Word) (op : Byte) :
    w = wordN op ↔ highField w = 0#16 ∧ immField w = 0#8 ∧ opField w = op :=
  eq_wordB_iff w 0#8 op

/-- Each CRC.BYTE word selects the CRC.BYTE row, whatever its immediate (`30_encoding.md` R96). -/
theorem crcByte_word_selects (imm8 : Byte) : wordB imm8 0x11#8 &&& 0xFFFF00FF#32 = 0x00000011#32 := by
  revert imm8; decide

end Sys2Proof.Laws
end

