-- ==== Sys2Proof/Laws/Forward.lean ====
section
/-! SUPPORT. One lemma per command and outcome: under which tests of the operands a command ends how.
They are the other direction of the inversion lemmas of `Laws/Command.lean`. -/

namespace Sys2Proof.Laws

open Sys2Proof.Machine

theorem tagChk_good {s : State} (h : tagOk (be32Bytes s.tag) = true) :
    execTagChk s = .next (complete { s with tagFlags := (Tag.ofBytes (be32Bytes s.tag)).flags }) := by
  simp only [execTagChk, constructTag_of_ok h, conclude_ok]

theorem tagChk_bad {s : State} (h : tagOk (be32Bytes s.tag) = false) :
    execTagChk s = .next (raiseError .invalidTag 0 s) := by
  simp only [execTagChk, constructTag_of_not_ok h, conclude_error]

theorem tagLds_bad_source {s : State} (h : srcOk s = false) :
    execTagLds s = .next (raiseError .accessFault 0 s) := by
  simp only [execTagLds]; rw [withSource_bad h]; rfl

theorem tagLds_bad {s : State} (h : srcOk s = true) (ht : tagOk (slice s) = false) :
    execTagLds s = .next (raiseError .invalidTag s.rcur.toNat s) := by
  simp only [execTagLds]
  rw [withSource_good h]
  split
  · next ha =>
    have e : memRead s.mem (sliceBase s) 4 = slice s := by rw [slice, ha]
    rw [e, constructTag_of_not_ok ht]; rfl
  · rfl

theorem tagLds_good {s : State} (h : srcOk s = true) (ht : tagOk (slice s) = true) :
    execTagLds s = .next (complete { s with
      tag := (Tag.ofBytes (slice s)).toWord, tagFlags := (Tag.ofBytes (slice s)).flags }) := by
  have ha : avail s = 4 := by rw [← slice_length, tagOk_length ht]
  have e : memRead s.mem (sliceBase s) 4 = slice s := by rw [slice, ha]
  simp only [execTagLds]
  rw [withSource_good h, if_pos ha, e, constructTag_of_ok ht]; rfl

theorem crcBuf_bad_source {s : State} (h : srcOk s = false) :
    execCrcBuf s = .next (raiseError .accessFault 0 s) := by
  simp only [execCrcBuf]; rw [withSource_bad h]; rfl

theorem crcBuf_good {s : State} (h : srcOk s = true) :
    execCrcBuf s = .next (complete { s with crcAcc := crcUpdate s.crcAcc (slice s) }) := by
  simp only [execCrcBuf]; rw [withSource_good h]; rfl

theorem crcCalc_bad_source {s : State} (h : srcOk s = false) :
    execCrcCalc s = .next (raiseError .accessFault 0 s) := by
  simp only [execCrcCalc]; rw [withSource_bad h]; rfl

theorem crcCalc_good {s : State} (h : srcOk s = true) :
    execCrcCalc s = .next (complete { s with crcOut := crc32 (slice s) }) := by
  simp only [execCrcCalc]; rw [withSource_good h]; rfl

theorem frmParse_bad_source {s : State} (h : srcOk s = false) :
    execFrmParse s = .next (raiseError .accessFault 0 s) := by
  simp only [execFrmParse]; rw [withSource_bad h]; rfl

theorem frmParse_bad {s : State} {k : ErrKind} (h : srcOk s = true)
    (hk : parseRecord (slice s) = .error k) :
    execFrmParse s = .next (raiseError k s.rcur.toNat s) := by
  simp only [execFrmParse]; rw [withSource_good h, hk]; rfl

theorem frmParse_good {s : State} {x : Record} (h : srcOk s = true)
    (hx : parseRecord (slice s) = .ok x) :
    execFrmParse s = .next (complete { s with
      recLen := x.length
      recTag := x.tag.toWord
      recPay := BitVec.ofNat 32 (sliceBase s + 8)
      recCrc := x.crc
      tagFlags := x.tag.flags
      rcur := BitVec.ofNat 32 (s.rcur.toNat + 12 + x.length.toNat) }) := by
  simp only [execFrmParse]; rw [withSource_good h, hx]; rfl

theorem frmBuild_bad_source {s : State} (h : srcOk s = false) :
    execFrmBuild s = .next (raiseError .accessFault 0 s) := by
  simp only [execFrmBuild]; rw [withSource_bad h]; rfl

theorem frmBuild_bad_tag {s : State} (h : srcOk s = true) (ht : tagOk (be32Bytes s.tag) = false) :
    execFrmBuild s = .next (raiseError .invalidTag 0 s) := by
  simp only [execFrmBuild]; rw [withSource_good h, constructTag_of_not_ok ht]; rfl

theorem frmBuild_bad_windows {s : State} (h : srcOk s = true)
    (ht : tagOk (be32Bytes s.tag) = true)
    (hd : dstOk s (12 + avail s) = false ∨
      rangesMeet (sliceBase s) (avail s) (writeBase s) (12 + avail s) = true) :
    execFrmBuild s = .next (raiseError .accessFault 0 s) := by
  simp only [execFrmBuild]
  rw [withSource_good h, constructTag_of_ok ht]
  simp only
  split
  · next hd' =>
    rw [if_pos (hd.resolve_left (by rw [hd']; decide))]; rfl
  · rfl

theorem frmBuild_good {s : State} (h : srcOk s = true) (ht : tagOk (be32Bytes s.tag) = true)
    (hd : dstOk s (12 + avail s) = true)
    (ho : rangesMeet (sliceBase s) (avail s) (writeBase s) (12 + avail s) = false) :
    execFrmBuild s = .next (complete { s with
      mem := memWrite s.mem (writeBase s)
        (serialize (newRecord (Tag.ofBytes (be32Bytes s.tag)) (slice s)))
      recLen := BitVec.ofNat 32 (avail s)
      recTag := s.tag
      recPay := BitVec.ofNat 32 (writeBase s + 8)
      recCrc := recordCrc (Tag.ofBytes (be32Bytes s.tag)) (slice s)
      tagFlags := (Tag.ofBytes (be32Bytes s.tag)).flags
      wcur := BitVec.ofNat 32 (s.wcur.toNat + 12 + avail s) }) := by
  simp only [execFrmBuild]
  rw [withSource_good h, constructTag_of_ok ht]
  simp only [hd, if_true, ho]
  simp [newRecord]

theorem sigChk_bad_source {s : State} (h : srcOk s = false) :
    execSigChk s = .next (raiseError .accessFault 0 s) := by
  simp only [execSigChk]; rw [withSource_bad h]; rfl

theorem sigChk_bad {s : State} (h : srcOk s = true) (hg : sigOk (slice s) = false) :
    execSigChk s = .next (raiseError .badSignature s.rcur.toNat s) := by
  simp only [execSigChk]; rw [withSource_good h, if_neg (by rw [hg]; decide)]; rfl

theorem sigChk_good {s : State} (h : srcOk s = true) (hg : sigOk (slice s) = true) :
    execSigChk s = .next (complete { s with rcur := BitVec.ofNat 32 (s.rcur.toNat + 8) }) := by
  simp only [execSigChk]; rw [withSource_good h, if_pos hg]; rfl

theorem sigPut_bad {s : State} (h : dstOk s 8 = false) :
    execSigPut s = .next (raiseError .accessFault 0 s) := by
  simp only [execSigPut]; rw [if_neg (by rw [h]; decide)]; rfl

theorem sigPut_good {s : State} (h : dstOk s 8 = true) :
    execSigPut s = .next (complete { s with
      mem := memWrite s.mem (writeBase s) sig
      wcur := BitVec.ofNat 32 (s.wcur.toNat + 8) }) := by
  simp only [execSigPut]; rw [if_pos h]; rfl

theorem strScan_bad_source {s : State} (h : srcOk s = false) :
    execStrScan s = .next (raiseError .accessFault 0 s) := by
  simp only [execStrScan]; rw [withSource_bad h]; rfl

theorem strScan_bad {s : State} {f : Failure} (h : srcOk s = true)
    (hf : parseStream (slice s) = .error f) :
    execStrScan s = .next (raiseError f.kind (s.rcur.toNat + f.off) s) := by
  simp only [execStrScan]; rw [withSource_good h, hf]; rfl

theorem strScan_good {s : State} {chunks : List Record} (h : srcOk s = true)
    (hc : parseStream (slice s) = .ok chunks) :
    execStrScan s = .next (complete { s with
      count := BitVec.ofNat 32 chunks.length, rcur := s.srcLen }) := by
  simp only [execStrScan]; rw [withSource_good h, hc]; rfl

end Sys2Proof.Laws
end

