-- ==== Sys2Proof/Laws/PerInstr.lean ====
section
/-! SUPPORT. One lemma per command: its row of the opcode table selects its word, and the word is well
formed. -/

namespace Sys2Proof.Laws

/-- The command word passes the three checks on words, and the row of the opcode table with the
command's own mnemonic selects it (`30_encoding.md` R94, R96). -/
def EncodedRow.Statement (i : Instr) : Prop :=
  wordWellFormed (encode i) = true ∧
  ∃ r ∈ opcodeTable, r.mnemonic = i.mnemonic ∧ r.selects (encode i) = true

theorem EncodedRow.nop : EncodedRow.Statement .nop := by
  unfold EncodedRow.Statement; decide

theorem EncodedRow.tagChk : EncodedRow.Statement .tagChk := by
  unfold EncodedRow.Statement; decide

theorem EncodedRow.tagLds : EncodedRow.Statement .tagLds := by
  unfold EncodedRow.Statement; decide

theorem EncodedRow.crcInit : EncodedRow.Statement .crcInit := by
  unfold EncodedRow.Statement; decide

theorem EncodedRow.crcByte (imm8 : Byte) : EncodedRow.Statement (.crcByte imm8) := by
  refine ⟨?_, ⟨"CRC.BYTE", 0x00000011#32, 0xFFFF00FF#32⟩, by decide, rfl, ?_⟩
  · obtain ⟨hHigh, -, hOp⟩ := (eq_wordB_iff (wordB imm8 0x11#8) imm8 0x11#8).1 rfl
    simp only [highField] at hHigh
    simp only [opField] at hOp
    simp only [wordWellFormed, opAssigned, highBitsZero, midBitsAllowed, encode, hHigh, hOp,
      Bool.and_eq_true]
    exact ⟨⟨by decide, by decide⟩, by simp⟩
  · simpa [OpRow.selects, encode] using crcByte_word_selects imm8

theorem EncodedRow.crcBuf : EncodedRow.Statement .crcBuf := by
  unfold EncodedRow.Statement; decide

theorem EncodedRow.crcFin : EncodedRow.Statement .crcFin := by
  unfold EncodedRow.Statement; decide

theorem EncodedRow.crcCalc : EncodedRow.Statement .crcCalc := by
  unfold EncodedRow.Statement; decide

theorem EncodedRow.frmParse : EncodedRow.Statement .frmParse := by
  unfold EncodedRow.Statement; decide

theorem EncodedRow.frmBuild : EncodedRow.Statement .frmBuild := by
  unfold EncodedRow.Statement; decide

theorem EncodedRow.sigChk : EncodedRow.Statement .sigChk := by
  unfold EncodedRow.Statement; decide

theorem EncodedRow.sigPut : EncodedRow.Statement .sigPut := by
  unfold EncodedRow.Statement; decide

theorem EncodedRow.strScan : EncodedRow.Statement .strScan := by
  unfold EncodedRow.Statement; decide

end Sys2Proof.Laws
end

