-- ==== Sys2Proof/Laws/Step.lean ====
section
/-! SUPPORT. Everything one step can do. -/

namespace Sys2Proof.Laws

open Sys2Proof.Machine

/-- With nothing to come the machine is idle. -/
theorem step_idle {s : State} (h : s.pending = []) : step s = .next s := by
  simp [step, runPending, h]

/-- A step performs the oldest action. -/
theorem step_cons {s : State} {e : Event} {rest : List Event} (h : s.pending = e :: rest) :
    step s = runEvent e { s with pending := rest } := by
  simp [step, runPending, h]

theorem runWord_ok {w : Word} {i : Instr} (h : decode w = .ok i) (s : State) :
    runWord w s = exec i s := by simp [runWord, h]

theorem runWord_error {w : Word} {e : DecodeError} (h : decode w = .error e) (s : State) :
    runWord w s = .next (raiseError .illegalCommand 0 s) := by
  simp [runWord, h, illegalCommand]

/-- A write of a word by number, said once. -/
theorem hostWrite_cases {n : Nat} {v : Word} {s t : State} (h : hostWrite n v s = .next t) :
    (n = 0 ∧ ∃ i, decode v = .ok i ∧ exec i s = .next t) ∨
    (n = 0 ∧ (∃ e, decode v = .error e) ∧ t = raiseError .illegalCommand 0 s) ∨
    (∃ r, r ≠ .cmd ∧ Reg.ofNumber n = some r ∧ t = writeReg s v r) ∨
    (Reg.ofNumber n = none ∧ t = s) := by
  simp only [hostWrite] at h
  split at h
  · next hn =>
    have h0 : n = 0 := by
      unfold Reg.ofNumber at hn
      split at hn <;> first | rfl | cases hn
    simp only [runWord] at h
    split at h
    · next i hi => exact .inl ⟨h0, i, hi, h⟩
    · next e he => cases h; exact .inr (.inl ⟨h0, ⟨e, he⟩, rfl⟩)
  · next r hr hn => cases h; exact .inr (.inr (.inl ⟨r, hr, hn, rfl⟩))
  · next hn => cases h; exact .inr (.inr (.inr ⟨hn, rfl⟩))

/-- Everything a step that answers a next state can have done: idle, a command, an illegal word, a
register write, an ignored write, a read, a MEM write, or reset. -/
theorem step_cases {s t : State} (h : step s = .next t) :
    (s.pending = [] ∧ t = s) ∨
    ∃ e rest, s.pending = e :: rest ∧
      ((∃ w i, e = .writeReg 0 w ∧ decode w = .ok i ∧ exec i { s with pending := rest } = .next t) ∨
       (∃ w, e = .writeReg 0 w ∧ (∃ d, decode w = .error d) ∧
         t = raiseError .illegalCommand 0 { s with pending := rest }) ∨
       (∃ n v r, e = .writeReg n v ∧ r ≠ .cmd ∧ Reg.ofNumber n = some r ∧
         t = writeReg { s with pending := rest } v r) ∨
       (∃ n v, e = .writeReg n v ∧ Reg.ofNumber n = none ∧ t = { s with pending := rest }) ∨
       (∃ r, t = { s with pending := rest, replies := r :: s.replies }) ∨
       (∃ a b, e = .writeMem a b ∧ a < memBytes s ∧
         t = { s with pending := rest, mem := s.mem.store a b }) ∨
       (∃ c, e = .reset c ∧ t = resetEngine c { s with pending := rest })) := by
  cases hp : s.pending with
  | nil => rw [step_idle hp] at h; cases h; exact .inl ⟨rfl, rfl⟩
  | cons e rest =>
    refine .inr ⟨e, rest, rfl, ?_⟩
    rw [step_cons hp] at h
    cases e with
    | readReg n => cases h; exact .inr (.inr (.inr (.inr (.inl ⟨_, rfl⟩))))
    | writeReg n v =>
      rcases hostWrite_cases h with ⟨rfl, i, hi, h⟩ | ⟨rfl, hd, h⟩ | ⟨r, hr, hn, h⟩ | ⟨hn, h⟩
      · exact .inl ⟨v, i, rfl, hi, h⟩
      · exact .inr (.inl ⟨v, rfl, hd, h⟩)
      · exact .inr (.inr (.inl ⟨n, v, r, rfl, hr, hn, h⟩))
      · exact .inr (.inr (.inr (.inl ⟨n, v, rfl, hn, h⟩)))
    | narrowReg o b => cases h
    | readMem a =>
      simp only [runEvent] at h
      split at h
      · cases h; exact .inr (.inr (.inr (.inr (.inl ⟨_, rfl⟩))))
      · cases h
    | writeMem a b =>
      simp only [runEvent] at h
      split at h
      · next ha => cases h; exact .inr (.inr (.inr (.inr (.inr (.inl ⟨a, b, rfl, ha, rfl⟩)))))
      · cases h
    | reset c => cases h; exact .inr (.inr (.inr (.inr (.inr (.inr ⟨c, rfl, rfl⟩)))))

end Sys2Proof.Laws
end

