-- ==== Sys2Proof/Tests/Slice0.lean ====
section
/-! SUPPORT. The model's own tests: words and ill-formed words, one step per command against the spec's
vectors, and a witness for the hypotheses of every statement that has some. -/

namespace Sys2Proof.Tests

open Sys2Proof.Machine

set_option maxRecDepth 8000

/-! ## Well-formedness: each check refuses something -/

/-- Check 1, R98: OP `0x03`, the first unassigned value. -/
theorem test_unassigned_op_refused :
    opAssigned 0x00000003#32 = false ∧ wordWellFormed 0x00000003#32 = false := by decide

/-- Check 2, V-CMD-4: the OP of NOP with bit 16 set. -/
theorem test_high_bits_refused :
    highBitsZero 0x00010000#32 = false ∧ wordWellFormed 0x00010000#32 = false := by decide

/-- Check 3, V-CMD-6: the OP of FRM.PARSE with bits 15:8 not zero. -/
theorem test_mid_bits_refused :
    midBitsAllowed 0x00000120#32 = false ∧ wordWellFormed 0x00000120#32 = false := by decide

/-- A format B word may have any bits 15:8 (V-CRC-48). -/
theorem test_format_b_accepted : wordWellFormed 0x0000FF11#32 = true := by decide

/-- R100: `crc.byte v` has `0 <= v <= 255`. -/
theorem test_script_crc_byte_refused :
    (Stmt.crcByteOf 256).wf = false ∧ (Stmt.crcByteOf 255).wf = true := by decide

/-- R100: `wr REG, v` writes a 32-bit value. -/
theorem test_script_wr_refused :
    (Stmt.wr .tag (2 ^ 32)).wf = false ∧ (Stmt.wr .tag (2 ^ 32 - 1)).wf = true := by decide

/-- R101: the operands of `src` and `dst` are 32-bit values. -/
theorem test_script_windows_refused :
    (Stmt.src (2 ^ 32) 0).wf = false ∧ (Stmt.src 0 (2 ^ 32)).wf = false ∧
    (Stmt.dst (2 ^ 32) 0).wf = false ∧ (Stmt.dst 0 (2 ^ 32)).wf = false := by decide

/-- R101: `tag` takes a text of four bytes. -/
theorem test_script_tag_refused :
    (Stmt.tagOf [0x54#8, 0x45#8, 0x53#8]).wf = false := by decide

/-! ## Decoding: one word for every constructor, written out from R94 and R96 as
bits 31:16, bits 15:8 and bits 7:0 -/

theorem test_decode_nop : decode 0b00000000000000000000000000000000#32 = .ok .nop := by decide
theorem test_decode_tagChk : decode 0b00000000000000000000000000000001#32 = .ok .tagChk := by decide
theorem test_decode_tagLds : decode 0b00000000000000000000000000000010#32 = .ok .tagLds := by decide
theorem test_decode_crcInit : decode 0b00000000000000000000000000010000#32 = .ok .crcInit := by decide
/-- R151: `crc.byte 0x54` is the word `0x00005411`. -/
theorem test_decode_crcByte :
    decode 0b00000000000000000101010000010001#32 = .ok (.crcByte 0x54#8) := by decide
theorem test_decode_crcBuf : decode 0b00000000000000000000000000010010#32 = .ok .crcBuf := by decide
theorem test_decode_crcFin : decode 0b00000000000000000000000000010011#32 = .ok .crcFin := by decide
theorem test_decode_crcCalc : decode 0b00000000000000000000000000010100#32 = .ok .crcCalc := by decide
theorem test_decode_frmParse : decode 0b00000000000000000000000000100000#32 = .ok .frmParse := by decide
theorem test_decode_frmBuild : decode 0b00000000000000000000000000100001#32 = .ok .frmBuild := by decide
theorem test_decode_sigChk : decode 0b00000000000000000000000000110000#32 = .ok .sigChk := by decide
theorem test_decode_sigPut : decode 0b00000000000000000000000000110001#32 = .ok .sigPut := by decide
theorem test_decode_strScan : decode 0b00000000000000000000000000110010#32 = .ok .strScan := by decide

/-- Each rejection under its own name (R98): V-CMD-2, V-CMD-6, V-CMD-5. -/
theorem test_decode_rejects_by_name :
    decode 0x00000003#32 = .error (.unassignedOp 0x03#8) ∧
    decode 0x00000120#32 = .error (.midBitsSet 0x20#8 0x01#8) ∧
    decode 0x80000020#32 = .error (.highBitsSet 0x8000#16) := by decide

/-- The encoder writes the opcode map of R96. -/
theorem test_encode_words :
    encode .crcInit = 0x00000010#32 ∧ encode (.crcByte 0xFF#8) = 0x0000FF11#32 ∧
    encode .frmBuild = 0x00000021#32 ∧ encode .strScan = 0x00000032#32 := by decide

/-- Words as the opcode table numbers them. -/
theorem test_decode_table_word :
    decodeTableWord 32 0x32 = some .strScan ∧ decodeTableWord 32 0x5411 = some (.crcByte 0x54#8) ∧
    decodeTableWord 32 0x33 = none := by decide

/-- R100, R101: the first bus writes of program P1 of `95_test_vectors.md`. -/
theorem test_program_p1_encoding :
    busWrites [.mem 0x100 [0x68#8], .src 0x100 5, .dst 0x200 64, .tagOf [0x54#8, 0x45#8, 0x53#8, 0x54#8],
      .cmd .frmBuild] =
    [(0x10, 0x00000100#32), (0x14, 0x00000005#32), (0x18, 0x00000000#32), (0x1C, 0x00000200#32),
     (0x20, 0x00000040#32), (0x24, 0x00000000#32), (0x28, 0x54455354#32), (0x00, 0x00000021#32)] := by decide

/-! ## Small states -/

/-- The source window of the spec's vectors: the bytes at `0x100` (`src 0x100, len`), with TAG "TEST" and
the destination window `dst 0x200, 64`. -/
def source (bytes : List Byte) : State :=
  { State.launch 0xFFF#32 (memWrite [] 0x100 bytes) with
    srcAddr := 0x100#32, srcLen := BitVec.ofNat 32 bytes.length,
    dstAddr := 0x200#32, dstCap := 64#32, tag := 0x54455354#32 }

def hello : List Byte := [0x68#8, 0x65#8, 0x6C#8, 0x6C#8, 0x6F#8]

def tagTest : Tag := ⟨0x54#8, 0x45#8, 0x53#8, 0x54#8⟩

/-- `REC_TEST` of `95_test_vectors.md`. -/
def recTest : List Byte :=
  [0x00#8, 0x00#8, 0x00#8, 0x05#8, 0x54#8, 0x45#8, 0x53#8, 0x54#8, 0x68#8, 0x65#8, 0x6C#8, 0x6C#8, 0x6F#8,
   0xDD#8, 0xDA#8, 0x20#8, 0x0D#8]

/-- `REC_IEND` of `95_test_vectors.md`. -/
def recIend : List Byte :=
  [0x00#8, 0x00#8, 0x00#8, 0x00#8, 0x49#8, 0x45#8, 0x4E#8, 0x44#8, 0xAE#8, 0x42#8, 0x60#8, 0x82#8]

/-- The record of `REC_IEND`. -/
def iend : Record := ⟨0#32, ⟨0x49#8, 0x45#8, 0x4E#8, 0x44#8⟩, [], 0xAE426082#32⟩

/-- The registers named, after an outcome that is a next state. -/
def regsAfter (o : Host.Outcome State Fault Refusal) (rs : List Reg) : Option (List Word) :=
  match o with
  | .next t => some (rs.map (readReg t))
  | .fault _ => none
  | .refused _ => none

/-- Bytes of MEM after an outcome that is a next state. -/
def bytesAfter (o : Host.Outcome State Fault Refusal) (addr n : Nat) : Option (List Byte) :=
  match o with
  | .next t => some (memRead t.mem addr n)
  | .fault _ => none
  | .refused _ => none

/-- The state with one action to come. -/
def doing (e : Event) (s : State) : State := { s with pending := [e] }

/-! ## One step per command, against `95_test_vectors.md` and the rules' examples -/

/-- R220. -/
theorem test_nop : regsAfter (exec .nop { State.reset with err := 3#32, errOff := 9#32 })
    [.err, .errOff, .crcAcc] = some [0#32, 0#32, 0xFFFFFFFF#32] := by decide

/-- V-TAG-1. -/
theorem test_tagChk : regsAfter (exec .tagChk { State.reset with tag := 0x52755374#32 })
    [.err, .tagFlags, .tag] = some [0#32, 0x8000001D#32, 0x52755374#32] := by decide

/-- V-TAG-4 and V-TAG-17: a failure keeps the old flags. -/
theorem test_tagChk_bad :
    regsAfter (exec .tagChk { State.reset with tag := 0x52753174#32, tagFlags := 0x8000001D#32 })
      [.err, .errOff, .tagFlags, .status] = some [1#32, 0#32, 0x8000001D#32, 6#32] := by decide

/-- V-TAG-25: the slice is the last four bytes. -/
theorem test_tagLds :
    regsAfter (exec .tagLds { source [0x78#8, 0x78#8, 0x54#8, 0x45#8, 0x53#8, 0x54#8] with
      rcur := 2#32, tag := 0#32 }) [.err, .tag, .tagFlags, .rcur] =
    some [0#32, 0x54455354#32, 0x80000037#32, 2#32] := by decide

/-- V-TAG-26: five bytes remain. -/
theorem test_tagLds_length :
    regsAfter (exec .tagLds { source [0x78#8, 0x78#8, 0x54#8, 0x45#8, 0x53#8, 0x54#8] with
      rcur := 1#32, tag := 0#32 }) [.err, .errOff, .tag] = some [1#32, 1#32, 0#32] := by decide

/-- R150. -/
theorem test_crcInit : regsAfter (exec .crcInit { State.reset with crcAcc := 7#32 })
    [.crcAcc, .crcOut] = some [0xFFFFFFFF#32, 0#32] := by decide

/-- V-CRC-38. -/
theorem test_crcByte : regsAfter (exec (.crcByte 0x54#8) State.reset) [.crcAcc, .err] =
    some [0x41FB859F#32, 0#32] := by decide

/-- V-CRC-43. -/
theorem test_crcBuf :
    regsAfter (exec .crcBuf { source hello with crcAcc := 0x11156C47#32 }) [.crcAcc, .rcur] =
    some [0x2225DFF2#32, 0#32] := by decide

/-- V-CRC-46: the window ends at `0x1010`. -/
theorem test_crcBuf_window :
    regsAfter (exec .crcBuf { State.reset with srcAddr := 0xFF0#32, srcLen := 0x20#32 })
      [.err, .errOff, .crcAcc] = some [7#32, 0#32, 0xFFFFFFFF#32] := by decide

/-- V-CRC-50. -/
theorem test_crcFin : regsAfter (exec .crcFin { State.reset with crcAcc := 0x12345678#32 })
    [.crcOut, .crcAcc] = some [0xEDCBA987#32, 0x12345678#32] := by decide

/-- V-CRC-44: only "hello" is covered. -/
theorem test_crcCalc :
    regsAfter (exec .crcCalc { source (tagTest.bytes ++ hello) with rcur := 4#32 })
      [.crcOut, .rcur, .crcAcc] = some [0x3610A686#32, 4#32, 0xFFFFFFFF#32] := by decide

/-- V-PARSE-1. -/
theorem test_frmParse :
    regsAfter (exec .frmParse (source recTest))
      [.recLen, .recTag, .recPay, .recCrc, .tagFlags, .rcur, .status] =
    some [5#32, 0x54455354#32, 0x108#32, 0xDDDA200D#32, 0x80000037#32, 0x11#32, 4#32] := by decide

/-- V-PARSE-16: a bad tag and a bad checksum, InvalidTag wins. -/
theorem test_frmParse_priority :
    regsAfter (exec .frmParse (source [0x00#8, 0x00#8, 0x00#8, 0x00#8, 0x54#8, 0x31#8, 0x53#8, 0x54#8,
      0x00#8, 0x00#8, 0x00#8, 0x00#8])) [.err, .errOff, .recTag] = some [1#32, 0#32, 0#32] := by decide

/-- V-BUILD-1. -/
theorem test_frmBuild :
    bytesAfter (exec .frmBuild (source hello)) 0x200 17 = some recTest ∧
    regsAfter (exec .frmBuild (source hello)) [.recLen, .recTag, .recPay, .recCrc, .wcur, .rcur] =
      some [5#32, 0x54455354#32, 0x208#32, 0xDDDA200D#32, 0x11#32, 0#32] := by decide

/-- V-BUILD-13 and V-BUILD-12: the write range shares `0x100`, or ends just before it. -/
theorem test_frmBuild_overlap :
    regsAfter (exec .frmBuild { source hello with dstAddr := 0xF0#32, dstCap := 17#32 }) [.err, .wcur] =
      some [7#32, 0#32] ∧
    regsAfter (exec .frmBuild { source hello with dstAddr := 0xEF#32, dstCap := 17#32 }) [.err, .recPay] =
      some [0#32, 0xF7#32] := by decide

/-- V-STR-7: the signature at a cursor that is not 0. -/
theorem test_sigChk :
    regsAfter (exec .sigChk { source ([0x7A#8, 0x7A#8] ++ sig) with rcur := 2#32 })
      [.err, .rcur, .status] = some [0#32, 10#32, 4#32] := by decide

/-- V-STR-8: seven bytes remain. -/
theorem test_sigChk_short :
    regsAfter (exec .sigChk { source ([0x7A#8, 0x7A#8] ++ sig) with rcur := 3#32 })
      [.err, .errOff, .rcur] = some [4#32, 3#32, 3#32] := by decide

/-- V-STR-12: the last eight bytes of the window. -/
theorem test_sigPut :
    bytesAfter (exec .sigPut { source [] with wcur := 56#32 }) 0x238 8 =
      some [0x89#8, 0x50#8, 0x4E#8, 0x47#8, 0x0D#8, 0x0A#8, 0x1A#8, 0x0A#8] ∧
    regsAfter (exec .sigPut { source [] with wcur := 56#32 }) [.wcur] = some [0x40#32] := by decide

/-- V-STR-13: nothing is written. -/
theorem test_sigPut_full :
    regsAfter (exec .sigPut { source [] with wcur := 57#32 }) [.err, .wcur] = some [7#32, 57#32] ∧
    bytesAfter (exec .sigPut { source [] with wcur := 57#32 }) 0x239 1 = some [0x00#8] := by decide

/-- R210: the signature and `REC_IEND`. -/
theorem test_strScan :
    regsAfter (exec .strScan (source (sig ++ recIend))) [.count, .rcur, .err, .recTag] =
      some [1#32, 20#32, 0#32, 0#32] := by decide

/-- R214: one stray byte after the last record is TruncatedRecord at its offset. -/
theorem test_strScan_trailing :
    regsAfter (exec .strScan (source (sig ++ recIend ++ [0x00#8]))) [.err, .errOff, .count, .rcur] =
      some [2#32, 20#32, 0#32, 0#32] := by decide

/-- V-CMD-8 through the fetch of a word: the first command after reset. -/
theorem test_fetched_word_runs :
    regsAfter (step (State.reset.withFetchWord 32 0x0111)) [.crcAcc, .cmd] =
      some [0x5AFA20E4#32, 0#32] := by decide

/-- V-CMD-9: CRC.BYTE's OP with bit 24 set. -/
theorem test_illegal_word :
    regsAfter (step (State.reset.withFetchWord 32 0x01000011)) [.err, .errOff, .crcAcc] =
      some [8#32, 0#32, 0xFFFFFFFF#32] := by decide

/-! ## The checksum and the host-level functions -/

/-- V-CRC-4, the check value, and V-CRC-35. -/
theorem test_crc_values :
    crc32 [0x31#8, 0x32#8, 0x33#8, 0x34#8, 0x35#8, 0x36#8, 0x37#8, 0x38#8, 0x39#8] = 0xCBF43926#32 ∧
    Machine.crcByte 0x80000000#32 0x00#8 = 0x00800000#32 := by decide

/-- R237, "Append/remove semantics", the lookup before the removal. -/
theorem test_container_append :
    (emptyContainer.append (newRecord tagTest hello)).chunkByType tagTest.bytes =
      some (newRecord tagTest hello) ∧
    payloadAsText utf8Usual (newRecord tagTest hello) = .ok hello := by decide

/-- R237, the two removals. -/
theorem test_container_remove :
    (emptyContainer.append (newRecord tagTest hello)).removeByType tagTest.bytes = .ok emptyContainer ∧
    emptyContainer.removeByType tagTest.bytes = .error .noSuchChunk ∧
    payloadAsText utf8Usual ⟨1#32, tagTest, [0xFF#8], 0#32⟩ = .error .notUtf8 := by decide

/-! ## Witnesses: for each statement with hypotheses, concrete values that meet them -/

theorem test_witness_OpcodeTableDecidesDecoding :
    (∃ r ∈ opcodeTable, r.selects 0x00005411#32 = true) ∧
    (∃ r ∈ opcodeTable, ∃ r' ∈ opcodeTable, r ≠ r') ∧
    (∀ r ∈ opcodeTable, r.selects 0x00000003#32 = false) := by decide

theorem test_witness_IllegalWordRaisesIllegalCommand :
    (∀ r ∈ opcodeTable, r.selects 0x00000033#32 = false) ∧
    (∀ r ∈ opcodeTable, r.selects 0x00010000#32 = false) ∧
    (∀ r ∈ opcodeTable, r.selects 0x00000132#32 = false) ∧
    (doing (.writeReg 0 0x33#32) State.reset).pending = .writeReg 0 0x33#32 :: [] := by decide

/-- The boundary values of every range of R98 (V-CMD-2, V-CMD-3) and their assigned neighbours. -/
theorem test_illegal_boundaries :
    ([0x03#32, 0x0F#32, 0x15#32, 0x1F#32, 0x22#32, 0x2F#32, 0x33#32, 0xFF#32].all fun w => !opAssigned w) ∧
    ([0x00#32, 0x02#32, 0x10#32, 0x14#32, 0x20#32, 0x21#32, 0x30#32, 0x32#32].all opAssigned) := by decide

theorem test_witness_StepRunsDecodedCommand :
    (doing (.writeReg 0 0x32#32) State.reset).pending = .writeReg 0 0x32#32 :: [] ∧
    decode 0x32#32 = .ok .strScan ∧
    (doing (.readReg 0) State.reset).pending = .readReg 0 :: [] := by decide

/-- The read-only registers, and the first number past the last register. -/
theorem test_witness_HostRegisterAccess :
    (1 ∈ [1, 2, 3, 11, 12, 13, 14, 15, 17, 18] ∨ 19 ≤ 1) ∧
    (18 ∈ [1, 2, 3, 11, 12, 13, 14, 15, 17, 18] ∨ 19 ≤ 18) ∧
    (19 ∈ [1, 2, 3, 11, 12, 13, 14, 15, 17, 18] ∨ 19 ≤ 19) := by decide

/-- A command that changes CRC_ACC, one that changes MEM, and a host write of a register. -/
theorem test_witness_OnlyCommandsChangeEngineState :
    (∃ t, step (doing (.writeReg 0 0x12#32) (source hello)) = .next t ∧
      readReg t .crcAcc ≠ readReg (doing (.writeReg 0 0x12#32) (source hello)) .crcAcc) ∧
    (∃ t, step (doing (.writeReg 0 0x31#32) (source hello)) = .next t ∧
      t.mem ≠ (doing (.writeReg 0 0x31#32) (source hello)).mem) ∧
    (18 : Nat) ≠ 0 :=
  ⟨⟨_, rfl, by decide⟩, ⟨_, rfl, by decide⟩, by decide⟩

theorem test_witness_StatusBits : 3 ≤ 31 := by decide

/-- The last address of MEM and the first past it. -/
theorem test_witness_HostMemoryAccess :
    0xFFF < memBytes State.reset ∧ State.reset.mem.wf = true ∧ (0x100 : Nat) ≠ 0xFFF ∧
    memBytes State.reset ≤ 0x1000 := by decide

theorem test_witness_MemReadMemWrite :
    (4 : Nat) < hello.length ∧ Memory.wf (memWrite [] 0x100 hello) = true ∧
    ((0xFF : Nat) < 0x100 ∨ 0x100 + hello.length ≤ 0xFF) ∧
    ((0x105 : Nat) < 0x100 ∨ 0x100 + hello.length ≤ 0x105) := by decide

/-- Also the hypothesis of the two statements on ERR and of the one on register writers. -/
theorem test_witness_FailureChangesOnlyErrorRegisters :
    (∃ t, exec .frmParse (source []) = .next t ∧ t.err ≠ 0#32) ∧
    (∃ t, exec .frmParse (source recTest) = .next t ∧ t.err = 0#32) :=
  ⟨⟨_, rfl, by decide⟩, ⟨_, rfl, by decide⟩⟩

theorem test_witness_ErrorCodesOfEachCommand :
    ∃ t, exec .strScan (source sig) = .next t := ⟨_, rfl⟩

/-- One failing command for each clause, and a word that is no command. -/
theorem test_witness_ErrorOffsetRule :
    regsAfter (exec .sigPut { source [] with dstCap := 7#32 }) [.err] = some [7#32] ∧
    regsAfter (exec .tagChk State.reset) [.err] = some [1#32] ∧
    regsAfter (exec .frmBuild State.reset) [.err] = some [1#32] ∧
    regsAfter (exec .tagLds (source hello)) [.err] = some [1#32] ∧
    regsAfter (exec .sigChk (source hello)) [.err] = some [4#32] ∧
    regsAfter (exec .frmParse (source hello)) [.err] = some [2#32] ∧
    regsAfter (exec .strScan (source hello)) [.err] = some [4#32] ∧
    regsAfter (exec .nop State.reset) [.err] = some [0#32] ∧
    decode 0xFF#32 = .error (.unassignedOp 0xFF#8) := by decide

theorem test_witness_LaunchIsLegal :
    Memory.wf (memWrite [] 0x100 hello) = true ∧
    Memory.below (0x104#32 : Word).toNat.succ (memWrite [] 0x100 hello) = true := by decide

/-- A legal state that a command leaves for another. -/
theorem test_witness_StepKeepsLegalStates :
    (doing (.writeReg 0 0x21#32) (source hello)).Inv ∧
    ∃ t, step (doing (.writeReg 0 0x21#32) (source hello)) = .next t :=
  ⟨⟨by decide, by decide, by decide, by decide, by decide, by decide⟩, ⟨_, rfl⟩⟩

theorem test_witness_SafeStatesNeverStop :
    (doing (.readMem 0xFFF) State.reset).safe = true ∧
    (doing (.readMem 0x1000) State.reset).safe = false := by decide

theorem test_witness_DigestIsolation :
    (∃ t, step (doing (.writeReg 0 0x12#32) (source hello)) = .next t ∧
      t.crcAcc ≠ (doing (.writeReg 0 0x12#32) (source hello)).crcAcc) ∧
    (∃ t, exec .frmBuild (source hello) = .next t) :=
  ⟨⟨_, rfl, by decide⟩, ⟨_, rfl⟩⟩

/-- Each register that a clause names changes somewhere. -/
theorem test_witness_RegisterWriters :
    regsAfter (exec .crcFin { State.reset with crcAcc := 0#32 }) [.crcOut] = some [0xFFFFFFFF#32] ∧
    regsAfter (exec .crcCalc (source tagTest.bytes)) [.err, .crcOut] = some [0#32, 0xEEEA93B8#32] ∧
    regsAfter (exec .strScan (source (sig ++ recIend))) [.err, .count] = some [0#32, 1#32] ∧
    regsAfter (exec .frmParse (source recIend)) [.err, .recTag] = some [0#32, 0x49454E44#32] ∧
    regsAfter (exec .tagLds { source tagTest.bytes with tag := 0#32 }) [.err, .tag] =
      some [0#32, 0x54455354#32] := by decide

/-- Each cursor clause has a command that succeeds. -/
theorem test_witness_CursorsAdvance :
    regsAfter (exec .sigChk (source sig)) [.err, .rcur] = some [0#32, 8#32] ∧
    regsAfter (exec .frmParse (source recIend)) [.err, .rcur] = some [0#32, 12#32] ∧
    regsAfter (exec .strScan (source sig)) [.err, .rcur] = some [0#32, 8#32] ∧
    regsAfter (exec .sigPut (source [])) [.err, .wcur] = some [0#32, 8#32] ∧
    regsAfter (exec .frmBuild (source [])) [.err, .wcur] = some [0#32, 12#32] ∧
    regsAfter (exec .sigChk (source [])) [.err, .rcur] = some [4#32, 0#32] ∧
    regsAfter (exec .nop (source [])) [.rcur, .wcur] = some [0#32, 0#32] := by decide

theorem test_witness_TagFlagsFollowConstruction :
    (∃ t, step (doing (.writeReg 10 0#32) { State.reset with tagFlags := 0x80000000#32 }) = .next t ∧
      held t.tagFlags = true) ∧
    regsAfter (exec .tagChk (source [])) [.err, .tagFlags] = some [0#32, 0x80000037#32] ∧
    regsAfter (exec .frmParse (source recIend)) [.err, .tagFlags] = some [0#32, 0x80000037#32] ∧
    regsAfter (exec .nop (source [])) [.tagFlags] = some [0#32] :=
  ⟨⟨_, rfl, by decide⟩, by decide, by decide, by decide⟩

/-- Two memories that agree on the slice "hello" and differ right after it. -/
theorem test_witness_CommandsReadOnlyTheSlice :
    (source hello).mem.wf = true ∧ Memory.wf (memWrite [] 0x100 (hello ++ [0x01#8])) = true ∧
    (∀ a, sliceBase (source hello) ≤ a → a < sliceBase (source hello) + avail (source hello) →
      Memory.load (memWrite [] 0x100 (hello ++ [0x01#8])) a = (source hello).mem.load a) ∧
    ∃ t, exec .frmBuild (source hello) = .next t := by
  refine ⟨by decide, by decide, ?_, ⟨_, rfl⟩⟩
  have hb : sliceBase (source hello) = 0x100 := by decide
  have ha : avail (source hello) = 5 := by decide
  rw [hb, ha]
  intro a h1 h2
  obtain ⟨k, rfl⟩ := Nat.exists_eq_add_of_le h1
  have hk : k < 5 := by omega
  clear h1 h2
  revert hk; revert k; decide

theorem test_witness_CommandsWriteOnlyTheDestination :
    (source hello).mem.wf = true ∧
    (∃ t, exec .frmBuild (source hello) = .next t ∧
      t.mem.load 0x210 ≠ (source hello).mem.load 0x210) ∧
    (∃ t, exec .nop (source hello) = .next t) :=
  ⟨by decide, ⟨_, rfl, by decide⟩, ⟨_, rfl⟩⟩

/-- A cursor one past the end, a window one past MEM, and a good window at the end of MEM. -/
theorem test_witness_BadSourceWindowFaults :
    ¬ ((6#32 : Word).toNat ≤ (5#32 : Word).toNat) ∧
    ¬ ((0xFFC#32 : Word).toNat + (5#32 : Word).toNat ≤ State.reset.memLast.toNat + 1) ∧
    (let s : State := { State.reset with srcAddr := 0xFFC#32, srcLen := 4#32 }
     s.rcur.toNat ≤ s.srcLen.toNat ∧ s.srcAddr.toNat + s.srcLen.toNat ≤ s.memLast.toNat + 1 ∧
     3 < (slice s).length) := by decide

/-- A capacity one too small for each command, and a window that just fits. -/
theorem test_witness_BadDestinationWindowFaults :
    ¬ ((0#32 : Word).toNat + 8 ≤ (7#32 : Word).toNat) ∧
    (let s : State := { source hello with dstCap := 16#32 }
     srcOk s = true ∧ tagOk (be32Bytes s.tag) = true ∧
     ¬ (s.wcur.toNat + (12 + avail s) ≤ s.dstCap.toNat)) ∧
    (let s : State := { State.reset with dstAddr := 0xFF0#32, dstCap := 16#32, wcur := 8#32 }
     s.dstAddr.toNat + s.dstCap.toNat ≤ s.memLast.toNat + 1 ∧ s.wcur.toNat + 8 ≤ s.dstCap.toNat ∧
     7 < 8) := by decide

/-- V-BUILD-13 shares one address; V-BUILD-11 starts right after the read range; no payload at all. -/
theorem test_witness_OverlapFaults :
    (let s : State := { source hello with dstAddr := 0xF0#32, dstCap := 17#32 }
     srcOk s = true ∧ tagOk (be32Bytes s.tag) = true ∧ dstOk s (12 + avail s) = true ∧ 0 < avail s ∧
     sliceBase s ≤ 0x100 ∧ 0x100 < sliceBase s + avail s ∧
     writeBase s ≤ 0x100 ∧ 0x100 < writeBase s + 12 + avail s) ∧
    (let s : State := { source hello with dstAddr := 0x105#32 }
     srcOk s = true ∧ tagOk (be32Bytes s.tag) = true ∧ dstOk s (12 + avail s) = true ∧
     sliceBase s + avail s ≤ writeBase s) ∧
    (let s : State := { source [] with dstAddr := 0xFC#32 }
     srcOk s = true ∧ tagOk (be32Bytes s.tag) = true ∧ dstOk s (12 + avail s) = true ∧ avail s = 0) ∧
    regsAfter (exec .sigPut (source [])) [.err] = some [0#32] := by decide

/-- The edges of the two ranges of letters, and strings on both sides of `tag_ok`. -/
theorem test_witness_LettersMakeTags :
    (∀ b ∈ [0x5B#8, 0x60#8, 0x30#8, 0x39#8, 0x40#8, 0x7B#8, 0x00#8, 0x80#8, 0xFF#8], isLetter b = false) ∧
    (∀ b ∈ [0x41#8, 0x5A#8, 0x61#8, 0x7A#8], isLetter b = true) ∧
    constructTag tagTest.bytes = .ok tagTest ∧
    ¬ ([0x54#8, 0x45#8, 0x53#8].length = 4 ∧ ∀ b ∈ [0x54#8, 0x45#8, 0x53#8], isLetter b = true) := by decide

theorem test_witness_TagChkResult :
    (∀ b ∈ be32Bytes 0x5A7A4161#32, isLetter b = true) ∧
    ¬ (∀ b ∈ be32Bytes 0x40414243#32, isLetter b = true) := by decide

/-- A slice of three bytes, of five, of four with a digit, and of four letters; a bad window. -/
theorem test_witness_TagLdsResult :
    srcOk { source hello with rcur := 6#32 } = false ∧
    (let s := source [0x54#8, 0x45#8, 0x53#8]
     srcOk s = true ∧ s.srcLen.toNat - s.rcur.toNat ≠ 4) ∧
    (let s := source hello
     srcOk s = true ∧ s.srcLen.toNat - s.rcur.toNat ≠ 4) ∧
    (let s := source [0x52#8, 0x75#8, 0x31#8, 0x74#8]
     srcOk s = true ∧ s.srcLen.toNat - s.rcur.toNat = 4 ∧ ¬ (∀ b ∈ slice s, isLetter b = true) ∧
     slice s = [0x52#8, 0x75#8, 0x31#8, 0x74#8]) ∧
    (let s := source tagTest.bytes
     srcOk s = true ∧ s.srcLen.toNat - s.rcur.toNat = 4 ∧ (∀ b ∈ slice s, isLetter b = true) ∧
     slice s = [0x54#8, 0x45#8, 0x53#8, 0x54#8]) := by decide

theorem test_witness_CrcTableForm : 0 < 256 ∧ 255 < 256 := by decide

theorem test_witness_CrcProperties :
    (0x6F#8 : Byte) ≠ 0x6E#8 ∧ hello.length = (tagTest.bytes ++ [0x00#8]).length := by decide

theorem test_witness_CrcInitAndFinResult :
    (∃ t u, exec .crcInit State.reset = .next t ∧ exec .crcInit t = .next u) ∧
    State.reset.crcAcc = 0xFFFFFFFF#32 ∧
    { State.reset with crcAcc := 0x2225DFF2#32 }.crcAcc = 0x2225DFF2#32 :=
  ⟨⟨_, _, rfl, rfl⟩, rfl, rfl⟩

theorem test_witness_CrcByteResult : State.reset.crcAcc = 0xFFFFFFFF#32 := by decide

theorem test_witness_CrcBufAndCalcResult :
    srcOk { source hello with rcur := 6#32 } = false ∧
    (srcOk (source []) = true ∧ (source []).rcur = (source []).srcLen) ∧
    (let s : State := { source hello with crcAcc := 0x11156C47#32 }
     srcOk s = true ∧ slice s = [0x68#8, 0x65#8, 0x6C#8, 0x6C#8, 0x6F#8]) ∧
    (let s := source [0x31#8, 0x32#8, 0x33#8, 0x34#8, 0x35#8, 0x36#8, 0x37#8, 0x38#8, 0x39#8]
     srcOk s = true ∧
     slice s = [0x31#8, 0x32#8, 0x33#8, 0x34#8, 0x35#8, 0x36#8, 0x37#8, 0x38#8, 0x39#8]) := by decide

/-- A digest of two pieces, one by CRC.BYTE and one by CRC.BUF, with a command in between. -/
theorem test_witness_StreamingEqualsOneShot :
    (∃ t u x, exec .crcInit (source hello) = .next t ∧ Digest t (0x54#8 :: (hello ++ [])) u ∧
      exec .crcFin u = .next x) ∧
    (srcOk (source hello) = true ∧ slice (source hello) = hello ∧
      ∃ d, exec .crcCalc (source hello) = .next d) ∧
    (∃ t, exec .frmParse (source hello) = .next t) := by
  refine ⟨?_, ⟨by decide, by decide, ⟨_, rfl⟩⟩, ⟨_, rfl⟩⟩
  let v : State := { source hello with crcAcc := 0x41FB859F#32 }
  obtain ⟨u, hu⟩ : ∃ u, exec .crcBuf v = .next u := ⟨_, rfl⟩
  refine ⟨_, u, _, rfl, .byte _ _ _ _ _ rfl (.between _ v _ _ (by decide) ?_), rfl⟩
  exact .buf v u u [] (by decide) hu (.done u)

/-- One string for each outcome: V-PARSE-5, V-PARSE-6, V-PARSE-11, V-PARSE-12, V-PARSE-1. -/
theorem test_witness_ParseRecordOutcomes :
    (recTest.take 11).length < 12 ∧
    (12 ≤ (recTest.take 12).length ∧
      (recTest.take 12).length < 8 + (be32At (recTest.take 12) 0).toNat + 4) ∧
    (12 ≤ recTest.length ∧ 8 + (be32At (recTest.set 4 0x14#8) 0).toNat + 4 ≤ recTest.length ∧
      tagOk (sub (recTest.set 4 0x14#8) 4 8) = false) ∧
    (tagOk (sub recTest 4 8) = true ∧
      crc32 (sub recTest 4 8 ++ sub recTest 8 13) ≠ be32At (recTest.set 16 0x0C#8) 13 ∧
      crc32 (sub recTest 4 8 ++ sub recTest 8 13) = be32At recTest 13) := by decide

theorem test_witness_ParseOfSerializedRecord :
    iend.valid = true ∧ tagOk tagTest.bytes = true ∧ hello.length < 2 ^ 32 := by decide

theorem test_witness_ParsedRecordIsARecord : parseRecord recIend = .ok iend := by decide

/-- The empty prefix and the longest one. -/
theorem test_witness_ProperPrefixIsTruncated :
    iend.valid = true ∧ 0 < (serialize iend).length ∧ 11 < (serialize iend).length := by decide

/-- A changed byte in LENGTH (V-PARSE-14), in the tag (V-PARSE-10 and V-PARSE-11) and in the CRC field
(V-PARSE-12). -/
theorem test_witness_CorruptionIsDetected :
    (newRecord tagTest hello).valid = true ∧ serialize (newRecord tagTest hello) = recTest ∧
    (recTest[3]? ≠ some 0x07#8 ∧ 5 < (be32At (recTest.set 3 0x07#8) 0).toNat) ∧
    (recTest[4]? ≠ some 0x74#8 ∧ isLetter 0x74#8 = true) ∧
    (recTest[7]? ≠ some 0x14#8 ∧ isLetter 0x14#8 = false) ∧
    (recTest[8]? ≠ some 0x00#8 ∧ recTest[16]? ≠ some 0x0C#8 ∧ 16 < recTest.length) := by decide

/-- One slice for each outcome of the parse. -/
theorem test_witness_FrmParseResult :
    srcOk { source recTest with rcur := 18#32 } = false ∧ srcOk (source recTest) = true ∧
    parseRecord (slice (source hello)) = .error .truncatedRecord ∧
    parseRecord (slice (source (recIend.set 4 0x14#8))) = .error .invalidTag ∧
    parseRecord (slice (source (recIend.set 4 0x69#8))) = .error .crcMismatch ∧
    parseRecord (slice (source recIend)) = .ok iend ∧
    ((source recTest).srcAddr = 0x100#32 ∧ (source recTest).srcLen = 17#32 ∧
      (source recTest).rcur = 0#32 ∧ slice (source recTest) = recTest) := by decide

theorem test_witness_RecordRegistersDenoteARecord :
    (source hello).mem.wf = true ∧
    (∃ t, exec .frmBuild (source hello) = .next t ∧ t.err = 0#32) ∧
    (source recIend).mem.wf = true ∧
    (∃ t, exec .frmParse (source recIend) = .next t ∧ t.err = 0#32) :=
  ⟨by decide, ⟨_, rfl, by decide⟩, by decide, ⟨_, rfl, by decide⟩⟩

/-- One state for each clause: V-BUILD-3, V-BUILD-4, V-BUILD-13, V-BUILD-12, V-BUILD-1. -/
theorem test_witness_FrmBuildResult :
    srcOk { source hello with rcur := 6#32 } = false ∧ srcOk (source hello) = true ∧
    tagOk (be32Bytes 0x52753174#32) = false ∧ tagOk (be32Bytes (source hello).tag) = true ∧
    dstOk { source hello with dstCap := 16#32 } (12 + 5) = false ∧
    (let s : State := { source hello with dstAddr := 0xF0#32, dstCap := 17#32 }
     dstOk s (12 + avail s) = true ∧ 0 < avail s ∧ sliceBase s < writeBase s + 12 + avail s ∧
     writeBase s < sliceBase s + avail s) ∧
    (let s : State := { source hello with dstAddr := 0xEF#32, dstCap := 17#32 }
     dstOk s (12 + avail s) = true ∧ writeBase s + 12 + avail s ≤ sliceBase s) ∧
    (let s := source hello
     s.tag = 0x54455354#32 ∧ s.mem.wf = true ∧ slice s = hello ∧ s.dstAddr = 0x200#32 ∧
     s.dstCap = 64#32 ∧ s.wcur = 0#32 ∧ 0x240 ≤ memBytes s ∧
     rangesMeet (sliceBase s) 5 0x200 17 = false) := by decide

/-- The first and the last byte outside the stored ones; a FRM.BUILD and a SIG.PUT that succeed.  The same
values meet the hypotheses of `BuildsConcatenate`. -/
theorem test_witness_StoredBytesAndFrame :
    (source hello).mem.wf = true ∧
    (∃ t, exec .frmBuild (source hello) = .next t ∧ t.err = 0#32) ∧
    (∃ t, exec .sigPut (source hello) = .next t ∧ t.err = 0#32) ∧
    (0x1FF < writeBase (source hello) ∧ writeBase (source hello) + 12 + avail (source hello) ≤ 0x211 ∧
      writeBase (source hello) + 8 ≤ 0x208) :=
  ⟨by decide, ⟨_, rfl, by decide⟩, ⟨_, rfl, by decide⟩, by decide⟩

/-- A later state whose remaining slice is exactly the built bytes (P1). -/
theorem test_witness_BuiltRecordParsesBack :
    (source hello).mem.wf = true ∧
    ∃ t, exec .frmBuild (source hello) = .next t ∧ t.err = 0#32 ∧
      (let u : State := { t with srcAddr := 0x200#32, srcLen := 17#32 }
       u.mem = t.mem ∧ srcOk u = true ∧ sliceBase u = t.recPay.toNat - 8 ∧
       12 + t.recLen.toNat ≤ avail u) :=
  ⟨by decide, _, rfl, by decide, rfl, by decide, by decide, by decide⟩

theorem test_witness_BuildsConcatenate :
    (source []).mem.wf = true ∧ memRead (source []).mem (source []).dstAddr.toNat 0 = [] ∧
    (∃ t, t.err = 0#32 ∧ exec .sigPut (source []) = .next t) ∧
    (∃ t, t.err = 0#32 ∧ exec .frmBuild (source []) = .next t) :=
  ⟨by decide, by decide, ⟨_, by decide, rfl⟩, ⟨_, by decide, rfl⟩⟩

/-- A bad window, seven bytes of the signature (V-STR-2), eight other bytes, and the signature. -/
theorem test_witness_SigChkResult :
    srcOk { source sig with rcur := 9#32 } = false ∧
    (srcOk (source (sig.take 7)) = true ∧ avail (source (sig.take 7)) < 8) ∧
    (srcOk (source recTest) = true ∧ (slice (source recTest)).take 8 ≠ sig) ∧
    (srcOk (source sig) = true ∧ (slice (source sig)).take 8 = sig ∧ slice (source sig) = sig) := by decide

/-- V-STR-11 and V-STR-10: seven bytes left, and eight. -/
theorem test_witness_SigPutResult :
    dstOk { source [] with dstCap := 7#32 } 8 = false ∧ dstOk { source [] with dstCap := 8#32 } 8 = true ∧
    ((source []).mem.wf = true ∧ (source []).dstAddr = 0x200#32 ∧ (source []).dstCap = 64#32 ∧
      (source []).wcur = 0#32 ∧ 0x240 ≤ memBytes (source [])) := by decide

/-- No signature, a signature, the end of the string, a bad record and a good one. -/
theorem test_witness_ParseStreamLoop :
    ¬ (8 ≤ hello.length ∧ hello.take 8 = sig) ∧
    (8 ≤ (sig ++ recIend).length ∧ (sig ++ recIend).take 8 = sig) ∧
    (8 ≤ (sig ++ recIend).length ∧ (sig ++ recIend).length ≤ 8 + 12 * 1 ∧ 8 < (sig ++ recIend).length ∧
      parseRecord ((sig ++ recIend).drop 8) = .ok iend) ∧
    (8 ≤ (sig ++ hello).length ∧ (sig ++ hello).length ≤ 8 + 12 * 1 ∧ 8 < (sig ++ hello).length ∧
      parseRecord ((sig ++ hello).drop 8) = .error .truncatedRecord) ∧
    (8 ≤ sig.length ∧ sig.length ≤ 8 + 12 * 0 ∧ 8 = sig.length) ∧
    parseStream (sig ++ recIend) = .ok [iend] := by decide

theorem test_witness_StreamRoundTrip :
    parseStream (sig ++ recIend) = .ok [iend] ∧ (∀ x ∈ [iend, iend], x.valid = true) := by decide

/-- One stray byte, eleven, and twelve that make a record. -/
theorem test_witness_TrailingBytesAreAnError :
    (∀ x ∈ [iend], x.valid = true) ∧ ([0x00#8] ≠ [] ∧ [0x00#8].length ≤ 11) ∧
    (recIend.take 11 ≠ [] ∧ (recIend.take 11).length ≤ 11) ∧
    parseRecord (recIend.set 8 0x2E#8) = .error .crcMismatch ∧ parseRecord recIend = .ok iend := by decide

theorem test_witness_StrScanResult :
    srcOk { source sig with rcur := 9#32 } = false ∧
    (srcOk (source (sig ++ hello)) = true ∧
      parseStream (slice (source (sig ++ hello))) = .error ⟨.truncatedRecord, 8⟩) ∧
    (srcOk (source (sig ++ recIend)) = true ∧ slice (source (sig ++ recIend)) = sig ++ recIend ∧
      parseStream (slice (source (sig ++ recIend))) = .ok [iend]) ∧
    (srcOk (source sig) = true ∧ slice (source sig) = sig) ∧
    (srcOk (source []) = true ∧ slice (source []) = []) := by decide

/-- A stream of one record: the loop makes one turn; and the outcomes of STR.SCAN with and without error. -/
theorem test_witness_ScanAgreesWithParseLoop :
    (∃ a t, exec .sigChk (source (sig ++ recIend)) = .next a ∧
      exec .strScan (source (sig ++ recIend)) = .next t ∧ t.err = 0#32 ∧ ∃ b, ParseLoop a 1 b) ∧
    (∃ a t, exec .sigChk (source (sig ++ hello)) = .next a ∧
      exec .strScan (source (sig ++ hello)) = .next t ∧ t.err = 2#32 ∧ ∃ b, ParseLoop a 0 b) := by
  refine ⟨⟨_, _, rfl, rfl, by decide, ?_⟩, ⟨_, _, rfl, rfl, by decide, ?_⟩⟩
  · exact ⟨_, .turn _ _ _ 0 (by decide) rfl (by decide) (.stop _ (by decide))⟩
  · exact ⟨_, .fail _ _ (by decide) rfl (by decide)⟩

theorem test_witness_NopResult : { State.reset with err := 3#32 }.err = 3#32 := by decide

theorem test_witness_CommandsRightAfterReset : 0 < 1 := by decide

/-- A name that no chunk has, a name that one has, and a text that is no tag. -/
theorem test_witness_ContainerOperations :
    (∀ y ∈ [iend], y.tag.bytes ≠ tagTest.bytes) ∧
    ([iend, newRecord tagTest hello, iend] = [iend] ++ newRecord tagTest hello :: [iend] ∧
      (newRecord tagTest hello).tag.bytes = tagTest.bytes) ∧
    ((∀ y ∈ [iend], y.valid = true) ∧ tagOk hello = false) := by decide

theorem test_witness_ContainerRoundTrip :
    emptyContainer.valid = true ∧ iend.valid = true ∧
    (Container.valid ⟨sig, [iend]⟩ = true ∧
      Container.removeByType ⟨sig, [iend]⟩ iend.tag.bytes = .ok emptyContainer) ∧
    parseContainer (sig ++ recIend) = .ok ⟨sig, [iend]⟩ := by decide

/-- The least and the largest operands of each statement. -/
theorem test_witness_PseudoInstructionsExpand :
    (0 : Nat) < 2 ^ 32 ∧ (2 ^ 32 - 1 : Nat) < 2 ^ 32 ∧ (0 : Nat) ≤ 255 ∧ (255 : Nat) ≤ 255 := by decide

end Sys2Proof.Tests
end

/-! # The state: registers, what commands and steps keep, and the legal states (`10_state.md`)

## The ways a command can end -/

namespace Sys2Proof.Proofs

open Sys2Proof.Machine Sys2Proof.Laws

/-- The results of a command that succeeds, before `done` clears ERR and ERR_OFF: with the tests that
`s` passed, the state that the command leaves.  `exec_cases` ties it to `exec`. -/
inductive Succeeds (s : State) : Instr → State → Prop where
  | nop : Succeeds s .nop s
  | tagChk (letters : tagOk (be32Bytes s.tag) = true) :
      Succeeds s .tagChk { s with tagFlags := (Tag.ofBytes (be32Bytes s.tag)).flags }
  | tagLds (window : srcOk s = true) (letters : tagOk (slice s) = true) :
      Succeeds s .tagLds { s with
        tag := (Tag.ofBytes (slice s)).toWord, tagFlags := (Tag.ofBytes (slice s)).flags }
  | crcInit : Succeeds s .crcInit { s with crcAcc := crcInitial }
  | crcByte (d : Byte) : Succeeds s (.crcByte d) { s with crcAcc := Machine.crcByte s.crcAcc d }
  | crcBuf (window : srcOk s = true) :
      Succeeds s .crcBuf { s with crcAcc := crcUpdate s.crcAcc (slice s) }
  | crcFin : Succeeds s .crcFin { s with crcOut := s.crcAcc ^^^ crcXorOut }
  | crcCalc (window : srcOk s = true) : Succeeds s .crcCalc { s with crcOut := crc32 (slice s) }
  | frmParse (x : Record) (window : srcOk s = true) (parsed : parseRecord (slice s) = .ok x) :
      Succeeds s .frmParse { s with
        recLen := x.length
        recTag := x.tag.toWord
        recPay := BitVec.ofNat 32 (sliceBase s + 8)
        recCrc := x.crc
        tagFlags := x.tag.flags
        rcur := BitVec.ofNat 32 (s.rcur.toNat + 12 + x.length.toNat) }
  | frmBuild (window : srcOk s = true) (letters : tagOk (be32Bytes s.tag) = true)
      (room : dstOk s (12 + avail s) = true)
      (apart : rangesMeet (sliceBase s) (avail s) (writeBase s) (12 + avail s) = false) :
      Succeeds s .frmBuild { s with
        mem := memWrite s.mem (writeBase s)
          (serialize (newRecord (Tag.ofBytes (be32Bytes s.tag)) (slice s)))
        recLen := BitVec.ofNat 32 (avail s)
        recTag := s.tag
        recPay := BitVec.ofNat 32 (writeBase s + 8)
        recCrc := recordCrc (Tag.ofBytes (be32Bytes s.tag)) (slice s)
        tagFlags := (Tag.ofBytes (be32Bytes s.tag)).flags
        wcur := BitVec.ofNat 32 (s.wcur.toNat + 12 + avail s) }
  | sigChk (window : srcOk s = true) (signed : sigOk (slice s) = true) :
      Succeeds s .sigChk { s with rcur := BitVec.ofNat 32 (s.rcur.toNat + 8) }
  | sigPut (room : dstOk s 8 = true) :
      Succeeds s .sigPut { s with
        mem := memWrite s.mem (writeBase s) sig
        wcur := BitVec.ofNat 32 (s.wcur.toNat + 8) }
  | strScan (chunks : List Record) (window : srcOk s = true)
      (parsed : parseStream (slice s) = .ok chunks) :
      Succeeds s .strScan { s with count := BitVec.ofNat 32 chunks.length, rcur := s.srcLen }

variable {i : Instr} {s s' t : State}

theorem parseRecord_error_legal {bs : List Byte} {k : ErrKind} (h : parseRecord bs = .error k) :
    errLegal k.code = true := by
  rcases parseRecord_error h with rfl | rfl | rfl <;> rfl

theorem parseStream_error_legal {bs : List Byte} {f : Failure} (h : parseStream bs = .error f) :
    errLegal f.kind.code = true := by
  rcases parseStream_error h with ⟨hk, -, -⟩ | ⟨-, hk | hk | hk, -⟩ <;> rw [hk] <;> rfl

/-- A command raises an error with a code that R36 allows, or succeeds. -/
theorem exec_cases (h : exec i s = .next t) :
    (∃ k off, errLegal k.code = true ∧ t = raiseError k off s) ∨
    (∃ s', Succeeds s i s' ∧ t = complete s') := by
  cases i with
  | nop => exact .inr ⟨_, .nop, nop_cases h⟩
  | tagChk =>
    obtain ⟨-, rfl⟩ | ⟨ht, rfl⟩ := tagChk_cases h
    · exact .inl ⟨_, _, rfl, rfl⟩
    · exact .inr ⟨_, .tagChk ht, rfl⟩
  | tagLds =>
    obtain ⟨-, rfl⟩ | ⟨-, -, rfl⟩ | ⟨hw, -, ht, rfl⟩ := tagLds_cases h
    · exact .inl ⟨_, _, rfl, rfl⟩
    · exact .inl ⟨_, _, rfl, rfl⟩
    · exact .inr ⟨_, .tagLds hw ht, rfl⟩
  | crcInit => exact .inr ⟨_, .crcInit, crcInit_cases h⟩
  | crcByte d => exact .inr ⟨_, .crcByte d, crcByte_cases h⟩
  | crcBuf =>
    obtain ⟨-, rfl⟩ | ⟨hw, rfl⟩ := crcBuf_cases h
    · exact .inl ⟨_, _, rfl, rfl⟩
    · exact .inr ⟨_, .crcBuf hw, rfl⟩
  | crcFin => exact .inr ⟨_, .crcFin, crcFin_cases h⟩
  | crcCalc =>
    obtain ⟨-, rfl⟩ | ⟨hw, rfl⟩ := crcCalc_cases h
    · exact .inl ⟨_, _, rfl, rfl⟩
    · exact .inr ⟨_, .crcCalc hw, rfl⟩
  | frmParse =>
    obtain ⟨-, rfl⟩ | ⟨k, -, hk, rfl⟩ | ⟨x, hw, hx, rfl⟩ := frmParse_cases h
    · exact .inl ⟨_, _, rfl, rfl⟩
    · exact .inl ⟨_, _, parseRecord_error_legal hk, rfl⟩
    · exact .inr ⟨_, .frmParse x hw hx, rfl⟩
  | frmBuild =>
    obtain ⟨-, rfl⟩ | ⟨-, -, rfl⟩ | ⟨-, -, -, rfl⟩ | ⟨hw, ht, hd, ho, rfl⟩ := frmBuild_cases h
    · exact .inl ⟨_, _, rfl, rfl⟩
    · exact .inl ⟨_, _, rfl, rfl⟩
    · exact .inl ⟨_, _, rfl, rfl⟩
    · exact .inr ⟨_, .frmBuild hw ht hd ho, rfl⟩
  | sigChk =>
    obtain ⟨-, rfl⟩ | ⟨-, -, rfl⟩ | ⟨hw, hg, rfl⟩ := sigChk_cases h
    · exact .inl ⟨_, _, rfl, rfl⟩
    · exact .inl ⟨_, _, rfl, rfl⟩
    · exact .inr ⟨_, .sigChk hw hg, rfl⟩
  | sigPut =>
    obtain ⟨-, rfl⟩ | ⟨hd, rfl⟩ := sigPut_cases h
    · exact .inl ⟨_, _, rfl, rfl⟩
    · exact .inr ⟨_, .sigPut hd, rfl⟩
  | strScan =>
    obtain ⟨-, rfl⟩ | ⟨f, -, hf, rfl⟩ | ⟨chunks, hw, hc, rfl⟩ := strScan_cases h
    · exact .inl ⟨_, _, rfl, rfl⟩
    · exact .inl ⟨_, _, parseStream_error_legal hf, rfl⟩
    · exact .inr ⟨_, .strScan chunks hw hc, rfl⟩

theorem exec_succeeds (h : exec i s = .next t) (ok : t.err = 0#32) :
    ∃ s', Succeeds s i s' ∧ t = complete s' := by
  obtain ⟨k, off, -, rfl⟩ | hs := exec_cases h
  · exact absurd ok (code_ne_zero k)
  · exact hs

theorem exec_fails (h : exec i s = .next t) (bad : t.err ≠ 0#32) :
    ∃ k off, t = raiseError k off s := by
  obtain ⟨k, off, -, rfl⟩ | ⟨s', -, rfl⟩ := exec_cases h
  · exact ⟨k, off, rfl⟩
  · exact absurd rfl bad

/-- What `raise` keeps changes only in a command that succeeds. -/
theorem exec_err_of_changed {α : Type} (f : State → α)
    (raised : ∀ k off, f (raiseError k off s) = f s) (h : exec i s = .next t) (hne : f t ≠ f s) :
    t.err = 0#32 := by
  by_contra bad
  obtain ⟨k, off, rfl⟩ := exec_fails h bad
  exact hne (raised k off)

/-- What `raise`, `done` and the results of a command keep is kept by the command. -/
theorem exec_keeps_of_succeeds {α : Type} (f : State → α)
    (raised : ∀ k off, f (raiseError k off s) = f s) (done : ∀ u, f (complete u) = f u)
    (kept : ∀ s', Succeeds s i s' → f s' = f s) (h : exec i s = .next t) : f t = f s := by
  obtain ⟨k, off, -, rfl⟩ | ⟨s', hs, rfl⟩ := exec_cases h
  · exact raised k off
  · rw [done, kept s' hs]

/-- Settles O14: the two ways of `exec_cases`. -/
theorem failureChangesOnlyErrorRegisters : Obligations.FailureChangesOnlyErrorRegisters := by
  unfold Obligations.FailureChangesOnlyErrorRegisters
  intro i s t h
  obtain ⟨k, off, -, rfl⟩ | ⟨s', -, rfl⟩ := exec_cases h
  · exact .inl ⟨code_ne_zero k, rfl⟩
  · exact .inr ⟨rfl, rfl⟩

end Sys2Proof.Proofs

/-! ## Which commands write which registers -/

namespace Sys2Proof.Proofs

open Sys2Proof.Machine Sys2Proof.Laws

variable {i : Instr} {s s' t : State}

theorem Succeeds.crcOut_kept (hs : Succeeds s i s') (h1 : i ≠ .crcFin) (h2 : i ≠ .crcCalc) :
    s'.crcOut = s.crcOut := by
  cases hs with
  | crcFin => exact absurd rfl h1
  | crcCalc => exact absurd rfl h2
  | _ => rfl

theorem Succeeds.count_kept (hs : Succeeds s i s') (hi : i ≠ .strScan) : s'.count = s.count := by
  cases hs with
  | strScan => exact absurd rfl hi
  | _ => rfl

/-- The record registers, as one value (`10_state.md` R25). -/
def recordRegs (s : State) : List Word := [s.recLen, s.recTag, s.recPay, s.recCrc]

theorem Succeeds.recordRegs_kept (hs : Succeeds s i s') (h1 : i ≠ .frmParse) (h2 : i ≠ .frmBuild) :
    recordRegs s' = recordRegs s := by
  cases hs with
  | frmParse => exact absurd rfl h1
  | frmBuild => exact absurd rfl h2
  | _ => rfl

theorem Succeeds.tag_kept (hs : Succeeds s i s') (hi : i ≠ .tagLds) : s'.tag = s.tag := by
  cases hs with
  | tagLds => exact absurd rfl hi
  | _ => rfl

theorem Succeeds.rcur_kept (hs : Succeeds s i s') (h1 : i ≠ .sigChk) (h2 : i ≠ .frmParse)
    (h3 : i ≠ .strScan) : s'.rcur = s.rcur := by
  cases hs with
  | sigChk => exact absurd rfl h1
  | frmParse => exact absurd rfl h2
  | strScan => exact absurd rfl h3
  | _ => rfl

theorem Succeeds.wcur_kept (hs : Succeeds s i s') (h1 : i ≠ .sigPut) (h2 : i ≠ .frmBuild) :
    s'.wcur = s.wcur := by
  cases hs with
  | sigPut => exact absurd rfl h1
  | frmBuild => exact absurd rfl h2
  | _ => rfl

theorem Succeeds.tagFlags_kept (hs : Succeeds s i s')
    (hi : i ∉ [.tagChk, .tagLds, .frmBuild, .frmParse]) : s'.tagFlags = s.tagFlags := by
  cases hs with
  | tagChk | tagLds | frmBuild | frmParse => exact absurd (by simp) hi
  | _ => rfl

theorem exec_crcOut_writer (h : exec i s = .next t) (hne : t.crcOut ≠ s.crcOut) :
    i = .crcFin ∨ i = .crcCalc := by
  by_contra hi
  obtain ⟨h1, h2⟩ := not_or.1 hi
  exact hne (exec_keeps_of_succeeds State.crcOut (fun _ _ => rfl) (fun _ => rfl)
    (fun _ hs => hs.crcOut_kept h1 h2) h)

theorem exec_count_writer (h : exec i s = .next t) (hne : t.count ≠ s.count) : i = .strScan := by
  by_contra hi
  exact hne (exec_keeps_of_succeeds State.count (fun _ _ => rfl) (fun _ => rfl)
    (fun _ hs => hs.count_kept hi) h)

theorem exec_recordRegs_writer (h : exec i s = .next t) (hne : recordRegs t ≠ recordRegs s) :
    i = .frmParse ∨ i = .frmBuild := by
  by_contra hi
  obtain ⟨h1, h2⟩ := not_or.1 hi
  exact hne (exec_keeps_of_succeeds recordRegs (fun _ _ => rfl) (fun _ => rfl)
    (fun _ hs => hs.recordRegs_kept h1 h2) h)

theorem exec_tag_writer (h : exec i s = .next t) (hne : t.tag ≠ s.tag) : i = .tagLds := by
  by_contra hi
  exact hne (exec_keeps_of_succeeds State.tag (fun _ _ => rfl) (fun _ => rfl)
    (fun _ hs => hs.tag_kept hi) h)

/-- The loop of `parse_stream` finds at most one record per turn. -/
theorem parseRecords_length_le {turns cur : Nat} {bs : List Byte} {xs : List Record}
    (h : parseRecords turns bs cur = .ok xs) : xs.length ≤ turns := by
  induction turns generalizing cur xs with
  | zero => cases h; exact Nat.le_refl 0
  | succ turns ih =>
    simp only [parseRecords] at h
    split at h
    · split at h
      · cases h
      · split at h
        · cases h
        · next ys hys => cases h; exact Nat.succ_le_succ (ih hys)
    · cases h; exact Nat.zero_le _

theorem parseStream_length_le {bs : List Byte} {xs : List Record} (h : parseStream bs = .ok xs) :
    xs.length ≤ bs.length := by
  simp only [parseStream] at h
  split at h
  · exact parseRecords_length_le h
  · cases h

theorem strScan_count (h : exec .strScan s = .next t) (ok : t.err = 0#32) :
    ∃ chunks, parseStream (slice s) = .ok chunks ∧ t.count.toNat = chunks.length := by
  obtain ⟨s', hs, rfl⟩ := exec_succeeds h ok
  cases hs with
  | strScan chunks _ parsed =>
    have hlen : chunks.length ≤ avail s := by simpa using parseStream_length_le parsed
    exact ⟨chunks, parsed, Nat.mod_eq_of_lt (Nat.lt_of_le_of_lt hlen (avail_lt s))⟩

theorem crcCalc_crcOut (h : exec .crcCalc s = .next t) (ok : t.err = 0#32) :
    t.crcOut = crc32 (slice s) := by
  obtain ⟨s', hs, rfl⟩ := exec_succeeds h ok
  cases hs with
  | crcCalc => rfl

/-- Settles O21: one lemma per register, and `exec_keeps` for those that no command writes. -/
theorem registerWriters : Obligations.RegisterWriters := by
  unfold Obligations.RegisterWriters
  refine ⟨fun s v => ⟨rfl, rfl⟩, fun i s t h => ?_⟩
  obtain ⟨hlast, hpending, hreplies, hsrcAddr, hsrcLen, hdstAddr, hdstCap⟩ := exec_keeps h
  refine ⟨exec_crcOut_writer h, ?_, ?_, fun hne => ⟨exec_count_writer h hne, ?_⟩, ?_,
    fun hne => ⟨exec_recordRegs_writer h hne, ?_⟩, hsrcAddr, hsrcLen, hdstAddr, hdstCap,
    fun hne => ⟨exec_tag_writer h hne, ?_⟩, hlast, hpending, hreplies⟩
  · rintro rfl; rw [crcFin_cases h]; rfl
  · rintro rfl; exact crcCalc_crcOut h
  · exact exec_err_of_changed State.count (fun _ _ => rfl) h hne
  · rintro rfl; exact strScan_count h
  · exact exec_err_of_changed recordRegs (fun _ _ => rfl) h hne
  · exact exec_err_of_changed State.tag (fun _ _ => rfl) h hne

end Sys2Proof.Proofs

/-! ## How the cursors move (`10_state.md` R31, R32) -/

namespace Sys2Proof.Proofs

open Sys2Proof.Machine Sys2Proof.Laws

variable {i : Instr} {s s' t : State}

/-- In a good source window the cursor can take any part of the slice without wrapping. -/
theorem rcur_advance {n : Nat} (window : srcOk s = true) (hn : n ≤ avail s) :
    (BitVec.ofNat 32 (s.rcur.toNat + n)).toNat = s.rcur.toNat + n ∧
    s.rcur.toNat + n ≤ s.srcLen.toNat := by
  obtain ⟨hcur, -⟩ := (srcOk_iff s).1 window
  have hlen := s.srcLen.isLt
  have hle : s.rcur.toNat + n ≤ s.srcLen.toNat := by simp only [avail] at hn; omega
  exact ⟨Nat.mod_eq_of_lt (by omega), hle⟩

/-- In a destination window with room for `n` bytes the cursor moves by `n` without wrapping. -/
theorem wcur_advance {n : Nat} (room : dstOk s n = true) :
    (BitVec.ofNat 32 (s.wcur.toNat + n)).toNat = s.wcur.toNat + n ∧
    s.wcur.toNat + n ≤ s.dstCap.toNat := by
  obtain ⟨-, hle⟩ := (dstOk_iff s n).1 room
  have hcap := s.dstCap.isLt
  exact ⟨Nat.mod_eq_of_lt (by omega), hle⟩

theorem sigOk_length {bs : List Byte} (h : sigOk bs = true) : 8 ≤ bs.length := by
  simp [sigOk] at h; exact h.1

theorem sigChk_rcur (h : exec .sigChk s = .next t) (ok : t.err = 0#32) :
    t.rcur.toNat = s.rcur.toNat + 8 ∧ t.rcur.toNat ≤ t.srcLen.toNat := by
  obtain ⟨s', hs, rfl⟩ := exec_succeeds h ok
  cases hs with
  | sigChk window signed =>
    have hlen : 8 ≤ avail s := by simpa using sigOk_length signed
    obtain ⟨hcur, hle⟩ := rcur_advance window hlen
    exact ⟨hcur, hcur.trans_le hle⟩

theorem frmParse_rcur (h : exec .frmParse s = .next t) (ok : t.err = 0#32) :
    t.rcur.toNat = s.rcur.toNat + 12 + t.recLen.toNat ∧ t.rcur.toNat ≤ t.srcLen.toNat := by
  obtain ⟨s', hs, rfl⟩ := exec_succeeds h ok
  cases hs with
  | frmParse x window parsed =>
    have hlen : 12 + x.length.toNat ≤ avail s := by simpa using (parseRecord_ok parsed).1
    obtain ⟨hcur, hle⟩ := rcur_advance window hlen
    rw [← Nat.add_assoc] at hcur hle
    exact ⟨hcur, hcur.trans_le hle⟩

theorem strScan_rcur (h : exec .strScan s = .next t) (ok : t.err = 0#32) : t.rcur = t.srcLen := by
  obtain ⟨s', hs, rfl⟩ := exec_succeeds h ok
  cases hs with
  | strScan => rfl

theorem sigPut_wcur (h : exec .sigPut s = .next t) (ok : t.err = 0#32) :
    t.wcur.toNat = s.wcur.toNat + 8 ∧ t.wcur.toNat ≤ t.dstCap.toNat := by
  obtain ⟨s', hs, rfl⟩ := exec_succeeds h ok
  cases hs with
  | sigPut room =>
    obtain ⟨hcur, hle⟩ := wcur_advance room
    exact ⟨hcur, hcur.trans_le hle⟩

theorem avail_toNat (s : State) : (BitVec.ofNat 32 (avail s)).toNat = avail s :=
  Nat.mod_eq_of_lt (avail_lt s)

theorem frmBuild_wcur (h : exec .frmBuild s = .next t) (ok : t.err = 0#32) :
    t.wcur.toNat = s.wcur.toNat + 12 + t.recLen.toNat ∧ t.wcur.toNat ≤ t.dstCap.toNat := by
  obtain ⟨s', hs, rfl⟩ := exec_succeeds h ok
  cases hs with
  | frmBuild _ _ room =>
    obtain ⟨hcur, hle⟩ := wcur_advance room
    rw [← Nat.add_assoc] at hcur hle
    simp only [complete_wcur, complete_recLen, complete_dstCap, avail_toNat]
    exact ⟨hcur, hcur.trans_le hle⟩

theorem exec_rcur_kept (h : exec i s = .next t) (h1 : i ≠ .sigChk) (h2 : i ≠ .frmParse)
    (h3 : i ≠ .strScan) : t.rcur = s.rcur :=
  exec_keeps_of_succeeds State.rcur (fun _ _ => rfl) (fun _ => rfl)
    (fun _ hs => hs.rcur_kept h1 h2 h3) h

theorem exec_wcur_kept (h : exec i s = .next t) (h1 : i ≠ .sigPut) (h2 : i ≠ .frmBuild) :
    t.wcur = s.wcur :=
  exec_keeps_of_succeeds State.wcur (fun _ _ => rfl) (fun _ => rfl)
    (fun _ hs => hs.wcur_kept h1 h2) h

/-- Settles O22: one lemma per command that moves a cursor. -/
theorem cursorsAdvance : Obligations.CursorsAdvance := by
  unfold Obligations.CursorsAdvance
  intro i s t h
  refine ⟨fun bad => ?_, ?_, ?_, ?_, exec_rcur_kept h, ?_, ?_, exec_wcur_kept h⟩
  · obtain ⟨k, off, rfl⟩ := exec_fails h bad
    exact ⟨rfl, rfl⟩
  · rintro ok rfl; exact sigChk_rcur h ok
  · rintro ok rfl; exact frmParse_rcur h ok
  · rintro ok rfl; exact strScan_rcur h ok
  · rintro ok rfl; exact sigPut_wcur h ok
  · rintro ok rfl; exact frmBuild_wcur h ok

end Sys2Proof.Proofs

/-! ## TAGFLAGS (`10_state.md` R40, R41) -/

namespace Sys2Proof.Proofs

open Sys2Proof.Machine Sys2Proof.Laws

variable {i : Instr} {s s' t : State}

theorem held_flags (tg : Tag) : held tg.flags = true := by
  simp only [held, Tag.flags, Tag.isValid, Tag.strictOk]
  cases tg.reservedOk <;> cases tg.critical <;> cases tg.safeToCopy <;> cases tg.isPublic <;> rfl

theorem tagFlagsLegal_flags (tg : Tag) : tagFlagsLegal tg.flags = true := by
  simp only [Tag.flags, Tag.isValid, Tag.strictOk]
  cases tg.reservedOk <;> cases tg.critical <;> cases tg.safeToCopy <;> cases tg.isPublic <;> rfl

/-- A command keeps TAGFLAGS or constructs a tag. -/
theorem Succeeds.tagFlags_cases (hs : Succeeds s i s') :
    s'.tagFlags = s.tagFlags ∨ ∃ tg : Tag, s'.tagFlags = tg.flags := by
  cases hs with
  | tagChk | tagLds | frmParse | frmBuild => exact .inr ⟨_, rfl⟩
  | _ => exact .inl rfl

theorem Succeeds.held_kept (hs : Succeeds s i s') (h : held s.tagFlags = true) :
    held s'.tagFlags = true := by
  obtain hk | ⟨tg, hk⟩ := hs.tagFlags_cases
  · rw [hk, h]
  · rw [hk, held_flags]

theorem exec_held_kept (h : exec i s = .next t) (hheld : held s.tagFlags = true) :
    held t.tagFlags = true := by
  obtain ⟨k, off, -, rfl⟩ | ⟨s', hs, rfl⟩ := exec_cases h
  · exact hheld
  · exact hs.held_kept hheld

theorem step_held (h : step s = .next t) (hheld : held s.tagFlags = true) :
    held t.tagFlags = true ∨ ∃ c rest, s.pending = .reset c :: rest := by
  obtain ⟨-, rfl⟩ | ⟨e, rest, hp, hstep⟩ := step_cases h
  · exact .inl hheld
  obtain ⟨w, i, -, -, hexec⟩ | ⟨w, -, -, rfl⟩ | ⟨n, v, r, -, -, -, rfl⟩ | ⟨n, v, -, -, rfl⟩ |
    ⟨r, rfl⟩ | ⟨a, b, -, -, rfl⟩ | ⟨c, rfl, rfl⟩ := hstep
  · exact .inl (exec_held_kept hexec hheld)
  · exact .inl hheld
  · exact .inl (by rw [writeReg_tagFlags]; exact hheld)
  · exact .inl hheld
  · exact .inl hheld
  · exact .inl hheld
  · exact .inr ⟨c, rest, hp⟩

theorem parseRecord_tagOk {bs : List Byte} {x : Record} (h : parseRecord bs = .ok x) :
    tagOk x.tag.bytes = true := by
  obtain ⟨-, -, hok, htag, -, -, -⟩ := parseRecord_ok h
  rwa [htag, bytes_ofBytes (tagOk_length hok)]

/-- A successful TAG.CHK, TAG.LDS or FRM.BUILD has constructed the tag in TAG. -/
theorem Succeeds.tagFlags_of_tag (hs : Succeeds s i s') (hi : i ∈ [.tagChk, .tagLds, .frmBuild]) :
    tagOk (be32Bytes s'.tag) = true ∧ s'.tagFlags = (Tag.ofBytes (be32Bytes s'.tag)).flags := by
  cases hs with
  | tagChk letters => exact ⟨letters, rfl⟩
  | tagLds _ letters =>
    simpa [bytes_ofBytes (tagOk_length letters)] using letters
  | frmBuild _ letters => exact ⟨letters, rfl⟩
  | _ => simp at hi

/-- A successful FRM.PARSE has constructed the tag in REC_TAG. -/
theorem Succeeds.tagFlags_of_recTag (hs : Succeeds s .frmParse s') :
    tagOk (be32Bytes s'.recTag) = true ∧ s'.tagFlags = (Tag.ofBytes (be32Bytes s'.recTag)).flags := by
  cases hs with
  | frmParse x _ parsed =>
    simpa using parseRecord_tagOk parsed

theorem exec_tagFlags_kept (h : exec i s = .next t)
    (hk : t.err ≠ 0#32 ∨ i ∉ [.tagChk, .tagLds, .frmBuild, .frmParse]) : t.tagFlags = s.tagFlags := by
  obtain bad | hi := hk
  · obtain ⟨k, off, rfl⟩ := exec_fails h bad
    rfl
  · exact exec_keeps_of_succeeds State.tagFlags (fun _ _ => rfl) (fun _ => rfl)
      (fun _ hs => hs.tagFlags_kept hi) h

/-- Settles O23: HELD by cases of the step, the flags by cases of the command. -/
theorem tagFlagsFollowConstruction : Obligations.TagFlagsFollowConstruction := by
  unfold Obligations.TagFlagsFollowConstruction
  refine ⟨fun s t => step_held, fun i s t h => ⟨fun hi ok => ?_, ?_, exec_tagFlags_kept h⟩⟩
  · obtain ⟨s', hs, rfl⟩ := exec_succeeds h ok
    exact hs.tagFlags_of_tag hi
  · rintro rfl ok
    obtain ⟨s', hs, rfl⟩ := exec_succeeds h ok
    exact hs.tagFlags_of_recTag

end Sys2Proof.Proofs

/-! ## The record registers (`10_state.md` R25, R26) -/

namespace Sys2Proof.Proofs

open Sys2Proof.Machine Sys2Proof.Laws

variable {i : Instr} {s s' t : State}

/-- A part of a range of MEM is the range of MEM at that part. -/
theorem sub_memRead {m : Memory} {addr n a b : Nat} (h : b ≤ n) :
    sub (memRead m addr n) a b = memRead m (addr + a) (b - a) := by
  rw [sub, memRead_drop, memRead_take _ _ _ _ (by omega)]

/-- The record registers denote a record whose payload is in MEM. -/
def DenotesRecord (s : State) : Prop :=
  tagOk (be32Bytes s.recTag) = true ∧
  s.recCrc = crc32 (be32Bytes s.recTag ++ memRead s.mem s.recPay.toNat s.recLen.toNat) ∧
  s.recPay.toNat + s.recLen.toNat ≤ memBytes s

/-- FRM.PARSE leaves the payload where it lies: at index 8 of the slice. -/
theorem Succeeds.frmParse_denotes (hs : Succeeds s .frmParse s') : DenotesRecord s' := by
  cases hs with
  | frmParse x window parsed =>
    obtain ⟨hlen, -, -, -, hpay, -, hcrc⟩ := parseRecord_ok parsed
    obtain ⟨hcur, hmem⟩ := (srcOk_iff s).1 window
    have hend : sliceBase s + 12 + x.length.toNat ≤ memBytes s := by
      rw [slice_length] at hlen
      simp only [avail] at hlen
      simp only [sliceBase]
      omega
    have hbase : (BitVec.ofNat 32 (sliceBase s + 8)).toNat = sliceBase s + 8 :=
      Nat.mod_eq_of_lt (by have := memBytes_le s; omega)
    have hread : memRead s.mem (sliceBase s + 8) x.length.toNat = x.payload := by
      rw [hpay, slice, sub_memRead (by rw [slice_length] at hlen; omega), Nat.add_sub_cancel_left]
    simp only [DenotesRecord, be32Bytes_toWord, hbase, hread]
    exact ⟨parseRecord_tagOk parsed, hcrc.symm, by simp only [memBytes] at hend ⊢; omega⟩

/-- FRM.BUILD has stored the payload at index 8 of the serialised record. -/
theorem Succeeds.frmBuild_denotes (hs : Succeeds s .frmBuild s') (hwf : s.mem.wf = true) :
    DenotesRecord s' := by
  cases hs with
  | frmBuild _ letters room =>
    obtain ⟨hdst, hcap⟩ := (dstOk_iff s _).1 room
    have hend : writeBase s + 12 + avail s ≤ memBytes s := by simp only [writeBase]; omega
    have hbase : (BitVec.ofNat 32 (writeBase s + 8)).toNat = writeBase s + 8 :=
      Nat.mod_eq_of_lt (by have := memBytes_le s; omega)
    have hread : memRead (memWrite s.mem (writeBase s)
        (serialize (newRecord (Tag.ofBytes (be32Bytes s.tag)) (slice s)))) (writeBase s + 8)
        (avail s) = slice s := by
      set x := newRecord (Tag.ofBytes (be32Bytes s.tag)) (slice s)
      have hx : x.length.toNat = avail s := by simpa [x, newRecord] using avail_lt s
      obtain ⟨-, -, hpay, -⟩ := serialize_fields x [] (hx.trans (slice_length s).symm)
      rw [List.append_nil, hx, ← memRead_memWrite (writeBase s) (serialize x) hwf,
        sub_memRead (by simp [x, newRecord]), Nat.add_sub_cancel_left] at hpay
      exact hpay
    simp only [DenotesRecord, hbase, hread, avail_toNat]
    refine ⟨letters, ?_, by simp only [memBytes] at hend ⊢; omega⟩
    rw [recordCrc, bytes_ofBytes (be32Bytes_length _)]

/-- Settles O45: the payload is found where each of the two commands says it lies. -/
theorem recordRegistersDenoteARecord : Obligations.RecordRegistersDenoteARecord := by
  unfold Obligations.RecordRegistersDenoteARecord
  intro i s t hi hwf h ok
  obtain ⟨s', hs, rfl⟩ := exec_succeeds h ok
  obtain rfl | rfl := hi
  · exact hs.frmParse_denotes
  · exact hs.frmBuild_denotes hwf

end Sys2Proof.Proofs

/-! ## The legal states -/

namespace Sys2Proof.Proofs

open Sys2Proof.Machine Sys2Proof.Laws

variable {i : Instr} {s s' t : State}

theorem Succeeds.memLast_kept (hs : Succeeds s i s') : s'.memLast = s.memLast := by
  cases hs <;> rfl

theorem Succeeds.mem_wf (hs : Succeeds s i s') (h : s.mem.wf = true) : s'.mem.wf = true := by
  cases hs with
  | frmBuild | sigPut => exact memWrite_wf _ _ h
  | _ => exact h

/-- What fits the destination window is stored inside MEM (`20_memory.md` R67). -/
theorem memWrite_below_of_dstOk {n : Nat} {bs : List Byte} (room : dstOk s n = true)
    (hlen : bs.length = n) (h : s.mem.below (memBytes s) = true) :
    (memWrite s.mem (writeBase s) bs).below (memBytes s) = true := by
  obtain ⟨hdst, hcap⟩ := (dstOk_iff s n).1 room
  exact memWrite_below bs (by simp only [writeBase]; omega) h

theorem Succeeds.mem_below (hs : Succeeds s i s') (h : s.mem.below (memBytes s) = true) :
    s'.mem.below (memBytes s) = true := by
  cases hs with
  | frmBuild _ _ room => exact memWrite_below_of_dstOk room (by simp [newRecord]) h
  | sigPut room => exact memWrite_below_of_dstOk room rfl h
  | _ => exact h

theorem Succeeds.tagFlagsLegal_kept (hs : Succeeds s i s') (h : tagFlagsLegal s.tagFlags = true) :
    tagFlagsLegal s'.tagFlags = true := by
  obtain hk | ⟨tg, hk⟩ := hs.tagFlags_cases
  · rw [hk, h]
  · rw [hk, tagFlagsLegal_flags]

/-- A command keeps the record registers or has them name a record. -/
theorem Succeeds.recordRegs_cases (hs : Succeeds s i s') :
    recordRegs s' = recordRegs s ∨ recordNamed s' = true := by
  cases hs with
  | frmParse x _ parsed =>
    right
    simp [recordNamed, held_flags, parseRecord_tagOk parsed]
  | frmBuild _ letters =>
    right
    simp [recordNamed, held_flags, letters]
  | _ => exact .inl rfl

/-- The record registers stay at 0 or name a record when they are kept and HELD is not lost. -/
theorem recordForm_of_kept (hregs : recordRegs s' = recordRegs s)
    (hheld : held s.tagFlags = true → held s'.tagFlags = true)
    (h : (noRecord s || recordNamed s) = true) : (noRecord s' || recordNamed s') = true := by
  simp only [recordRegs, List.cons.injEq, and_true] at hregs
  obtain ⟨hlen, htag, hpay, hcrc⟩ := hregs
  simp only [noRecord, recordNamed, hlen, htag, hpay, hcrc, Bool.or_eq_true, Bool.and_eq_true] at h ⊢
  exact h.imp_right fun ⟨hok, hh⟩ => ⟨hok, hheld hh⟩

theorem Succeeds.recordForm_kept (hs : Succeeds s i s') (h : (noRecord s || recordNamed s) = true) :
    (noRecord s' || recordNamed s') = true := by
  obtain hk | hnamed := hs.recordRegs_cases
  · exact recordForm_of_kept hk hs.held_kept h
  · rw [hnamed, Bool.or_true]

theorem inv_complete (hs : Succeeds s i s') (h : s.Inv) : (complete s').Inv where
  memCanonical := hs.mem_wf h.memCanonical
  memInRange := by
    rw [memBytes_complete, memBytes, hs.memLast_kept]
    exact hs.mem_below h.memInRange
  errCode := rfl
  errOffset _ := rfl
  tagFlagsForm := hs.tagFlagsLegal_kept h.tagFlagsForm
  recordForm := hs.recordForm_kept h.recordForm

theorem inv_raiseError {k : ErrKind} (off : Nat) (hk : errLegal k.code = true) (h : s.Inv) :
    (raiseError k off s).Inv where
  memCanonical := h.memCanonical
  memInRange := h.memInRange
  errCode := hk
  errOffset h0 := absurd h0 (code_ne_zero k)
  tagFlagsForm := h.tagFlagsForm
  recordForm := h.recordForm

theorem exec_keeps_inv (h : exec i s = .next t) (hinv : s.Inv) : t.Inv := by
  obtain ⟨k, off, hk, rfl⟩ | ⟨s', hs, rfl⟩ := exec_cases h
  · exact inv_raiseError off hk hinv
  · exact inv_complete hs hinv

/-- The model's own lists are no part of a legal state. -/
theorem inv_withLists (pending : List Event) (replies : List Reply) (h : s.Inv) :
    { s with pending := pending, replies := replies }.Inv :=
  ⟨h.memCanonical, h.memInRange, h.errCode, h.errOffset, h.tagFlagsForm, h.recordForm⟩

/-- No register that the host writes is part of a legal state (`10_state.md` R23). -/
theorem inv_writeReg (v : Word) (r : Reg) (h : s.Inv) : (writeReg s v r).Inv := by
  cases r <;>
  exact ⟨h.memCanonical, h.memInRange, h.errCode, h.errOffset, h.tagFlagsForm, h.recordForm⟩

theorem inv_store {a : Nat} (b : Byte) (ha : a < memBytes s) (h : s.Inv) :
    { s with mem := s.mem.store a b }.Inv where
  memCanonical := store_wf a b h.memCanonical
  memInRange := store_below b ha h.memInRange
  errCode := h.errCode
  errOffset := h.errOffset
  tagFlagsForm := h.tagFlagsForm
  recordForm := h.recordForm

theorem inv_launch {memLast : Word} {mem : Memory} (hwf : mem.wf = true)
    (hbelow : mem.below (memLast.toNat + 1) = true) : (State.launch memLast mem).Inv :=
  ⟨hwf, hbelow, rfl, fun _ => rfl, rfl, rfl⟩

theorem inv_resetEngine (c : List Host.Cell) (s : State) : (resetEngine c s).Inv :=
  inv_withLists _ _ (inv_launch (ofCells_wf _ c) (ofCells_below _ c))

/-- Settles O18: one lemma per thing a step can do. -/
theorem stepKeepsLegalStates : Obligations.StepKeepsLegalStates := by
  unfold Obligations.StepKeepsLegalStates
  intro s t hinv h
  obtain ⟨-, rfl⟩ | ⟨e, rest, hp, hstep⟩ := step_cases h
  · exact hinv
  have htaken : { s with pending := rest }.Inv := inv_withLists rest s.replies hinv
  obtain ⟨w, i, -, -, hexec⟩ | ⟨w, -, -, rfl⟩ | ⟨n, v, r, -, -, -, rfl⟩ | ⟨n, v, -, -, rfl⟩ |
    ⟨r, rfl⟩ | ⟨a, b, -, ha, rfl⟩ | ⟨c, -, rfl⟩ := hstep
  · exact exec_keeps_inv hexec htaken
  · exact inv_raiseError 0 rfl htaken
  · exact inv_writeReg v r htaken
  · exact htaken
  · exact inv_withLists rest (r :: s.replies) hinv
  · exact inv_store (s := { s with pending := rest }) b ha htaken
  · exact inv_resetEngine c _

/-- Settles O17: every field of a launch state is one that `Inv` allows. -/
theorem launchIsLegal : Obligations.LaunchIsLegal := by
  unfold Obligations.LaunchIsLegal
  exact ⟨fun memLast mem => inv_launch, inv_launch rfl rfl⟩

end Sys2Proof.Proofs

/-! ## The register file as the host sees it (`10_state.md` R20 to R22) -/

namespace Sys2Proof.Proofs

open Sys2Proof.Machine Sys2Proof.Laws

variable {s t : State}

theorem ofNumber_eq_some_iff {n : Nat} {r : Reg} : Reg.ofNumber n = some r ↔ n = r.number := by
  constructor
  · intro h
    unfold Reg.ofNumber at h
    split at h <;> cases h <;> rfl
  · rintro rfl
    cases r <;> rfl

theorem ofNumber_of_ge {n : Nat} (h : 19 ≤ n) : Reg.ofNumber n = none := by
  rw [Option.eq_none_iff_forall_ne_some]
  rintro r hr
  rw [ofNumber_eq_some_iff.1 hr] at h
  cases r <;> exact absurd h (by decide)

theorem hostWrite_register {n : Nat} {r : Reg} (hn : Reg.ofNumber n = some r) (hr : r ≠ .cmd)
    (v : Word) (s : State) : hostWrite n v s = .next (writeReg s v r) := by
  rw [hostWrite, hn]
  cases r with
  | cmd => exact absurd rfl hr
  | _ => rfl

theorem hostWrite_outside {n : Nat} (hn : Reg.ofNumber n = none) (v : Word) (s : State) :
    hostWrite n v s = .next s := by
  rw [hostWrite, hn]

/-- A host write touches no register but its own. -/
theorem readReg_writeReg_of_ne {r r' : Reg} (hne : r ≠ r') (hr : r ≠ .status) (s : State) (v : Word) :
    readReg (writeReg s v r') r = readReg s r := by
  cases r' with
  | srcAddr | srcLen | rcur | dstAddr | dstCap | wcur | tag | crcAcc =>
    cases r <;> simp_all [readReg, writeReg]
  | _ => rfl

/-- A host write stores the value or, in a register that is not read/write, does nothing. -/
theorem readReg_writeReg_same (s : State) (v : Word) (r : Reg) :
    readReg (writeReg s v r) r = v ∨ writeReg s v r = s := by
  cases r with
  | srcAddr | srcLen | rcur | dstAddr | dstCap | wcur | tag | crcAcc => exact .inl rfl
  | _ => exact .inr rfl

/-- A read of a register depends neither on MEM nor on the model's own lists. -/
theorem readReg_withMemAndLists (mem : Memory) (pending : List Event) (replies : List Reply)
    (s : State) (r : Reg) :
    readReg { s with mem := mem, pending := pending, replies := replies } r = readReg s r := by
  cases r <;> rfl

/-- Who changes a stored register, by cases of the step. -/
theorem step_register_writer {r : Reg} (h : step s = .next t) (hr : r ≠ .status)
    (hne : readReg t r ≠ readReg s r) :
    (∃ w rest, s.pending = .writeReg 0 w :: rest) ∨ (∃ c rest, s.pending = .reset c :: rest) ∨
    (∃ v rest, s.pending = .writeReg r.number v :: rest ∧ readReg t r = v) := by
  obtain ⟨-, rfl⟩ | ⟨e, rest, hp, hstep⟩ := step_cases h
  · exact absurd rfl hne
  have htaken : readReg { s with pending := rest } r = readReg s r :=
    readReg_withMemAndLists s.mem rest s.replies s r
  obtain ⟨w, i, rfl, -, -⟩ | ⟨w, rfl, -, -⟩ | ⟨n, v, r', rfl, -, hn, rfl⟩ | ⟨n, v, -, -, rfl⟩ |
    ⟨x, rfl⟩ | ⟨a, b, -, -, rfl⟩ | ⟨c, rfl, -⟩ := hstep
  · exact .inl ⟨w, rest, hp⟩
  · exact .inl ⟨w, rest, hp⟩
  · by_cases hrr : r = r'
    · subst hrr
      rw [ofNumber_eq_some_iff.1 hn] at hp
      obtain hv | hsame := readReg_writeReg_same { s with pending := rest } v r
      · exact .inr (.inr ⟨v, rest, hp, hv⟩)
      · exact absurd (by rw [hsame, htaken]) hne
    · exact absurd (by rw [readReg_writeReg_of_ne hrr hr, htaken]) hne
  · exact absurd htaken hne
  · exact absurd (readReg_withMemAndLists s.mem rest (x :: s.replies) s r) hne
  · exact absurd (readReg_withMemAndLists (s.mem.store a b) rest s.replies s r) hne
  · exact .inr (.inl ⟨c, rest, hp⟩)

/-- Who changes MEM, by cases of the step. -/
theorem step_mem_writer (h : step s = .next t) (hne : t.mem ≠ s.mem) :
    (∃ w rest, s.pending = .writeReg 0 w :: rest) ∨ (∃ c rest, s.pending = .reset c :: rest) ∨
    (∃ a b rest, s.pending = .writeMem a b :: rest) := by
  obtain ⟨-, rfl⟩ | ⟨e, rest, hp, hstep⟩ := step_cases h
  · exact absurd rfl hne
  obtain ⟨w, i, rfl, -, -⟩ | ⟨w, rfl, -, -⟩ | ⟨n, v, r, -, -, -, rfl⟩ | ⟨n, v, -, -, rfl⟩ |
    ⟨x, rfl⟩ | ⟨a, b, rfl, -, -⟩ | ⟨c, rfl, -⟩ := hstep
  · exact .inl ⟨w, rest, hp⟩
  · exact .inl ⟨w, rest, hp⟩
  · exact absurd (writeReg_mem _ _ _) hne
  · exact absurd rfl hne
  · exact absurd rfl hne
  · exact .inr (.inr ⟨a, b, rest, hp⟩)
  · exact .inr (.inl ⟨c, rest, hp⟩)

/-- The frame of a host write to a register other than CMD (`10_state.md` R22). -/
theorem runEvent_writeReg_frame (s : State) {n : Nat} (v : Word) (h0 : n ≠ 0) : ∃ t : State,
    runEvent (.writeReg n v) s = .next t ∧
    (∀ r : Reg, r.number ≠ n → r ≠ .status → readReg t r = readReg s r) ∧
    t.mem = s.mem ∧ t.memLast = s.memLast ∧ t.pending = s.pending ∧ t.replies = s.replies := by
  cases hn : Reg.ofNumber n with
  | none => exact ⟨s, hostWrite_outside hn v s, fun _ _ _ => rfl, rfl, rfl, rfl, rfl⟩
  | some r' =>
    obtain rfl := ofNumber_eq_some_iff.1 hn
    have hcmd : r' ≠ .cmd := by rintro rfl; exact h0 rfl
    refine ⟨writeReg s v r', hostWrite_register hn hcmd v s, fun r hr hst => ?_, by simp⟩
    exact readReg_writeReg_of_ne (fun hrr => hr (by rw [hrr])) hst s v

/-- Settles O8: who writes over every step, and the frame of a register write. -/
theorem onlyCommandsChangeEngineState : Obligations.OnlyCommandsChangeEngineState := by
  unfold Obligations.OnlyCommandsChangeEngineState
  exact ⟨fun s t h => ⟨fun r => step_register_writer h, step_mem_writer h⟩,
    fun s n v => runEvent_writeReg_frame s v⟩

/-- What every number reads, in the order of the numbers (`10_state.md` R20, R21). -/
theorem hostRead_eq_getD (s : State) (n : Nat) : hostRead s n =
    [0#32, statusWord s, s.err, s.errOff, s.srcAddr, s.srcLen, s.rcur, s.dstAddr, s.dstCap, s.wcur,
      s.tag, s.tagFlags, s.recLen, s.recTag, s.recPay, s.recCrc, s.crcAcc, s.crcOut,
      s.count].getD n 0#32 := by
  by_cases hn : n < 19
  · interval_cases n <;> rfl
  · rw [hostRead, ofNumber_of_ge (Nat.le_of_not_lt hn), List.getD_eq_default _ _ (Nat.le_of_not_lt hn)]

/-- A write to a register that is read-only, or to no register, is ignored (`10_state.md` R21). -/
theorem runEvent_writeReg_ignored {n : Nat}
    (h : n ∈ [1, 2, 3, 11, 12, 13, 14, 15, 17, 18] ∨ 19 ≤ n) (v : Word) (s : State) :
    runEvent (.writeReg n v) s = .next s := by
  obtain hro | hout := h
  · simp only [List.mem_cons, List.not_mem_nil, or_false] at hro
    rcases hro with rfl | rfl | rfl | rfl | rfl | rfl | rfl | rfl | rfl | rfl <;> rfl
  · exact hostWrite_outside (ofNumber_of_ge hout) v s

/-- Settles O7: reads by the table of numbers, the eight read/write registers one by one. -/
theorem hostRegisterAccess : Obligations.HostRegisterAccess := by
  unfold Obligations.HostRegisterAccess
  intro s n v
  refine ⟨?_, rfl, rfl, rfl, rfl, rfl, rfl, rfl, rfl, fun h => runEvent_writeReg_ignored h v s,
    fun _ _ => rfl⟩
  rw [runEvent, hostRead_eq_getD]

/-- Settles O4: the step takes the action, and a write to CMD runs the decoded word. -/
theorem stepRunsDecodedCommand : Obligations.StepRunsDecodedCommand := by
  unfold Obligations.StepRunsDecodedCommand
  refine ⟨fun s w i rest hp hw => ?_, fun s rest hp => step_cons hp⟩
  calc step s = runEvent (.writeReg 0 w) { s with pending := rest } := step_cons hp
    _ = runWord w { s with pending := rest } := rfl
    _ = exec i { s with pending := rest } := runWord_ok hw _

/-! ### STATUS and reset -/

theorem errf_iff (s : State) : errf s = true ↔ s.err ≠ 0#32 := by simp [errf]

theorem eos_iff (s : State) : eos s = true ↔ s.rcur = s.srcLen := by simp [eos]

/-- Bit `k` of STATUS: ERRF at 1, EOS at 2, and 0 elsewhere. -/
theorem statusWord_getLsbD (s : State) (k : Nat) :
    (statusWord s).getLsbD k = (decide (k = 1) && errf s || decide (k = 2) && eos s) := by
  by_cases hk : k < 3
  · rw [statusWord]
    interval_cases k <;> cases errf s <;> cases eos s <;> rfl
  · have hsmall : 2 * (errf s).toNat + 4 * (eos s).toNat < 2 ^ k :=
      calc 2 * (errf s).toNat + 4 * (eos s).toNat < 2 ^ 3 := by
            have := (errf s).toNat_le; have := (eos s).toNat_le; omega
        _ ≤ 2 ^ k := Nat.pow_le_pow_right (by decide) (by omega)
    rw [statusWord, BitVec.getLsbD_ofNat, Nat.testBit_lt_two_pow hsmall]
    simp [show k ≠ 1 by omega, show k ≠ 2 by omega]

/-- Settles O9: the bits of STATUS one by one. -/
theorem statusBits : Obligations.StatusBits := by
  unfold Obligations.StatusBits
  have hread : ∀ s, hostRead s 1 = statusWord s := fun _ => rfl
  refine ⟨fun s => ?_, fun _ _ => rfl⟩
  simp only [hread, statusWord_getLsbD]
  refine ⟨by simp, by simp [errf_iff], by simp [eos_iff], fun k hk => ?_⟩
  simp [show k ≠ 1 by omega, show k ≠ 2 by omega]

/-- What the registers read after reset, in the order of their numbers (`10_state.md` R46). -/
theorem hostRead_launch (memLast : Word) (mem : Memory) :
    (List.range 19).map (hostRead (State.launch memLast mem)) =
      [0#32, 4#32, 0#32, 0#32, 0#32, 0#32, 0#32, 0#32, 0#32, 0#32, 0#32, 0#32, 0#32, 0#32, 0#32, 0#32,
       0xFFFFFFFF#32, 0#32, 0#32] := rfl

/-- A reset event leaves the registers of a launch state. -/
theorem hostRead_resetEngine (c : List Host.Cell) (s : State) (n : Nat) :
    hostRead (resetEngine c s) n =
      hostRead (State.launch s.memLast (Memory.ofCells (memBytes s) c)) n := by
  simp only [hostRead_eq_getD]
  rfl

/-- Settles O6: the launch state read register by register, and reset events by it. -/
theorem resetLeavesListedValues : Obligations.ResetLeavesListedValues := by
  unfold Obligations.ResetLeavesListedValues
  refine ⟨fun memLast mem => ⟨hostRead_launch memLast mem, rfl⟩, fun s c => ?_⟩
  refine ⟨resetEngine c s, rfl, ?_, rfl, rfl, rfl⟩
  rw [funext (hostRead_resetEngine c s), hostRead_launch]

end Sys2Proof.Proofs

/-! ## Bytes of MEM: reads, writes and host accesses (`20_memory.md` R60 to R64) -/

namespace Sys2Proof.Proofs

open Sys2Proof.Machine Sys2Proof.Laws

variable {m : Memory} {s : State}

theorem some_load_memWrite {addr k : Nat} {bs : List Byte} (hwf : m.wf = true) (hk : k < bs.length) :
    some ((memWrite m addr bs).load (addr + k)) = bs[k]? := by
  rw [← memRead_getElem? _ addr _ _ hk, memRead_memWrite addr bs hwf]

/-- Settles O11: the laws of `memRead` and `memWrite`. -/
theorem memReadMemWrite : Obligations.MemReadMemWrite := by
  unfold Obligations.MemReadMemWrite
  refine ⟨fun m addr n => ?_, fun m addr bs hwf => ?_⟩
  · exact ⟨memRead_length m addr n, fun k => memRead_getElem? m addr n k, memRead_zero m addr⟩
  · exact ⟨memWrite_wf addr bs hwf, fun k => some_load_memWrite hwf,
      fun a => load_memWrite_outside hwf, rfl⟩

theorem runEvent_readMem_inside {a : Nat} (ha : a < memBytes s) :
    runEvent (.readMem a) s = .next { s with replies := .byte (s.mem.load a) :: s.replies } :=
  if_pos ha

theorem runEvent_writeMem_inside {a : Nat} (b : Byte) (ha : a < memBytes s) :
    runEvent (.writeMem a b) s = .next { s with mem := s.mem.store a b } :=
  if_pos ha

theorem runEvent_readMem_outside {a : Nat} (ha : memBytes s ≤ a) :
    runEvent (.readMem a) s = .fault (.hostAddressOutsideMem a) :=
  if_neg (Nat.not_lt.2 ha)

theorem runEvent_writeMem_outside {a : Nat} (b : Byte) (ha : memBytes s ≤ a) :
    runEvent (.writeMem a b) s = .fault (.hostAddressOutsideMem a) :=
  if_neg (Nat.not_lt.2 ha)

/-- Settles O10: the two accesses inside and outside MEM, the new bytes by `load_store`. -/
theorem hostMemoryAccess : Obligations.HostMemoryAccess := by
  unfold Obligations.HostMemoryAccess
  refine fun s a b => ⟨runEvent_readMem_inside, fun ha hwf => ?_,
    fun ha => ⟨runEvent_readMem_outside ha, runEvent_writeMem_outside b ha⟩⟩
  refine ⟨s.mem.store a b, runEvent_writeMem_inside b ha, ?_, fun a' hne => ?_⟩
  · rw [load_store a a b hwf, if_pos rfl]
  · rw [load_store a a' b hwf, if_neg hne]

end Sys2Proof.Proofs

/-! ## The two windows (`20_memory.md` R65 to R67) -/

namespace Sys2Proof.Proofs

open Sys2Proof.Machine Sys2Proof.Laws

variable {i : Instr} {s : State}

theorem srcOk_eq_false (h : ¬ (s.rcur.toNat ≤ s.srcLen.toNat ∧
    s.srcAddr.toNat + s.srcLen.toNat ≤ memBytes s)) : srcOk s = false :=
  Bool.eq_false_iff.2 (mt (srcOk_iff s).1 h)

theorem dstOk_eq_false {n : Nat} (h : ¬ (s.dstAddr.toNat + s.dstCap.toNat ≤ memBytes s ∧
    s.wcur.toNat + n ≤ s.dstCap.toNat)) : dstOk s n = false :=
  Bool.eq_false_iff.2 (mt (dstOk_iff s n).1 h)

/-- The seven commands that read the source window check it first. -/
theorem exec_bad_source
    (hi : i ∈ [.tagLds, .crcBuf, .crcCalc, .frmParse, .frmBuild, .sigChk, .strScan])
    (bad : srcOk s = false) : exec i s = .next (raiseError .accessFault 0 s) := by
  cases i with
  | tagLds => exact tagLds_bad_source bad
  | crcBuf => exact crcBuf_bad_source bad
  | crcCalc => exact crcCalc_bad_source bad
  | frmParse => exact frmParse_bad_source bad
  | frmBuild => exact frmBuild_bad_source bad
  | sigChk => exact sigChk_bad_source bad
  | strScan => exact strScan_bad_source bad
  | _ => simp at hi

/-- In a good source window every byte of the slice is in MEM (`20_memory.md` R66). -/
theorem slice_byte_in_mem {k : Nat} (window : srcOk s = true) (hk : k < avail s) :
    sliceBase s + k < memBytes s := by
  obtain ⟨hcur, hend⟩ := (srcOk_iff s).1 window
  simp only [avail] at hk
  simp only [sliceBase]
  omega

/-- In a good destination window every byte to be written is in MEM and in the window
(`20_memory.md` R67). -/
theorem written_byte_in_window {n a : Nat} (room : dstOk s n = true) (h1 : writeBase s ≤ a)
    (h2 : a < writeBase s + n) :
    s.dstAddr.toNat ≤ a ∧ a < s.dstAddr.toNat + s.dstCap.toNat ∧ a < memBytes s := by
  obtain ⟨hdst, hcap⟩ := (dstOk_iff s n).1 room
  simp only [writeBase] at h1 h2
  omega

/-- Settles O26: `exec_bad_source`, and the bytes of a good slice by `memRead_getElem?`. -/
theorem badSourceWindowFaults : Obligations.BadSourceWindowFaults := by
  unfold Obligations.BadSourceWindowFaults
  refine ⟨fun i s hi bad => exec_bad_source hi (srcOk_eq_false bad), fun s k hcur hend hk => ?_⟩
  rw [slice_length] at hk
  exact ⟨memRead_getElem? s.mem (sliceBase s) (avail s) k hk,
    slice_byte_in_mem ((srcOk_iff s).2 ⟨hcur, hend⟩) hk⟩

/-- Settles O27: each command's own check of the window, and `written_byte_in_window`. -/
theorem badDestinationWindowFaults : Obligations.BadDestinationWindowFaults := by
  unfold Obligations.BadDestinationWindowFaults
  refine ⟨fun s bad => sigPut_bad (dstOk_eq_false bad),
    fun s hw ht bad => frmBuild_bad_windows hw ht (.inl (dstOk_eq_false bad)),
    fun s n k hdst hcap hk => ?_⟩
  obtain ⟨hlow, hhigh, hmem⟩ := written_byte_in_window (a := writeBase s + k)
    ((dstOk_iff s n).2 ⟨hdst, hcap⟩) (Nat.le_add_right _ k) (Nat.add_lt_add_left hk _)
  exact ⟨hmem, hlow, hhigh⟩

end Sys2Proof.Proofs

/-! ## What commands write to MEM and read from it (`20_memory.md` R68, R77) -/

namespace Sys2Proof.Proofs

open Sys2Proof.Machine Sys2Proof.Laws

variable {i : Instr} {s s' t : State} {m : Memory}

theorem Succeeds.mem_kept (hs : Succeeds s i s') (h1 : i ≠ .sigPut) (h2 : i ≠ .frmBuild) :
    s'.mem = s.mem := by
  cases hs with
  | sigPut => exact absurd rfl h1
  | frmBuild => exact absurd rfl h2
  | _ => rfl

theorem exec_mem_kept (h : exec i s = .next t) (h1 : i ≠ .sigPut) (h2 : i ≠ .frmBuild) :
    t.mem = s.mem :=
  exec_keeps_of_succeeds State.mem (fun _ _ => rfl) (fun _ => rfl)
    (fun _ hs => hs.mem_kept h1 h2) h

theorem memWrite_changed_in_range {addr a : Nat} {bs : List Byte} (hwf : m.wf = true)
    (hne : (memWrite m addr bs).load a ≠ m.load a) : addr ≤ a ∧ a < addr + bs.length := by
  by_contra hout
  exact hne (load_memWrite_outside hwf (by omega))

/-- A byte that a successful command changed is one that SIG.PUT or FRM.BUILD had room to write. -/
theorem Succeeds.changed_byte (hs : Succeeds s i s') (hwf : s.mem.wf = true) {a : Nat}
    (hne : s'.mem.load a ≠ s.mem.load a) :
    ∃ n, dstOk s n = true ∧ writeBase s ≤ a ∧ a < writeBase s + n ∧
      ((i = .sigPut ∧ n = 8) ∨ (i = .frmBuild ∧ n = 12 + avail s)) := by
  cases hs with
  | sigPut room =>
    obtain ⟨h1, h2⟩ := memWrite_changed_in_range hwf hne
    exact ⟨8, room, h1, h2, .inl ⟨rfl, rfl⟩⟩
  | frmBuild _ _ room =>
    obtain ⟨h1, h2⟩ := memWrite_changed_in_range hwf hne
    rw [serialize_length, newRecord, slice_length] at h2
    exact ⟨12 + avail s, room, h1, h2, .inr ⟨rfl, rfl⟩⟩
  | _ => exact absurd rfl hne

/-- Settles O25: a changed byte is in the written range, and that range is in the window. -/
theorem commandsWriteOnlyTheDestination : Obligations.CommandsWriteOnlyTheDestination := by
  unfold Obligations.CommandsWriteOnlyTheDestination
  refine fun i s t hwf h => ⟨fun a hne => ?_, exec_mem_kept h⟩
  have ok : t.err = 0#32 := exec_err_of_changed (fun u => u.mem.load a) (fun _ _ => rfl) h hne
  obtain ⟨s', hs, rfl⟩ := exec_succeeds h ok
  obtain ⟨n, room, h1, h2, hwriter⟩ := hs.changed_byte hwf hne
  refine ⟨ok, ?_, written_byte_in_window room h1 h2⟩
  obtain ⟨rfl, rfl⟩ | ⟨rfl, rfl⟩ := hwriter
  · exact .inl ⟨rfl, h1, h2⟩
  · exact .inr ⟨rfl, h1, by rwa [Nat.add_assoc]⟩

/-- SIG.PUT reads nothing of MEM: what it stores at the write cursor does not depend on MEM. -/
theorem sigPut_withMem (m : Memory) (h : exec .sigPut s = .next t) :
    ∃ bs, t.mem = memWrite s.mem (writeBase s) bs ∧
      exec .sigPut { s with mem := m } = .next { t with mem := memWrite m (writeBase s) bs } := by
  obtain ⟨room, rfl⟩ | ⟨room, rfl⟩ := sigPut_cases h
  · exact ⟨[], rfl, sigPut_bad room⟩
  · exact ⟨sig, rfl, sigPut_good room⟩

/-- With the same slice in another MEM every command ends the same way, and stores the same string at
the write cursor (the empty one, when it stores nothing). -/
theorem exec_withMem (hslice : slice { s with mem := m } = slice s) (h : exec i s = .next t) :
    ∃ bs, t.mem = memWrite s.mem (writeBase s) bs ∧
      exec i { s with mem := m } = .next { t with mem := memWrite m (writeBase s) bs } := by
  cases i with
  | nop | crcInit | crcByte | crcFin => cases h; exact ⟨[], rfl, rfl⟩
  | tagChk =>
    obtain ⟨ht, rfl⟩ | ⟨ht, rfl⟩ := tagChk_cases h
    · exact ⟨[], rfl, tagChk_bad ht⟩
    · exact ⟨[], rfl, tagChk_good ht⟩
  | tagLds =>
    have hc := tagLds_cases h
    rw [← hslice] at hc
    obtain ⟨hw, rfl⟩ | ⟨hw, ht, rfl⟩ | ⟨hw, -, ht, rfl⟩ := hc
    · exact ⟨[], rfl, tagLds_bad_source hw⟩
    · exact ⟨[], rfl, tagLds_bad hw ht⟩
    · exact ⟨[], rfl, tagLds_good hw ht⟩
  | crcBuf =>
    have hc := crcBuf_cases h
    rw [← hslice] at hc
    obtain ⟨hw, rfl⟩ | ⟨hw, rfl⟩ := hc
    · exact ⟨[], rfl, crcBuf_bad_source hw⟩
    · exact ⟨[], rfl, crcBuf_good hw⟩
  | crcCalc =>
    have hc := crcCalc_cases h
    rw [← hslice] at hc
    obtain ⟨hw, rfl⟩ | ⟨hw, rfl⟩ := hc
    · exact ⟨[], rfl, crcCalc_bad_source hw⟩
    · exact ⟨[], rfl, crcCalc_good hw⟩
  | frmParse =>
    have hc := frmParse_cases h
    rw [← hslice] at hc
    obtain ⟨hw, rfl⟩ | ⟨k, hw, hk, rfl⟩ | ⟨x, hw, hx, rfl⟩ := hc
    · exact ⟨[], rfl, frmParse_bad_source hw⟩
    · exact ⟨[], rfl, frmParse_bad hw hk⟩
    · exact ⟨[], rfl, frmParse_good hw hx⟩
  | frmBuild =>
    have hc := frmBuild_cases h
    rw [← hslice] at hc
    obtain ⟨hw, rfl⟩ | ⟨hw, ht, rfl⟩ | ⟨hw, ht, hd, rfl⟩ | ⟨hw, ht, hd, ho, rfl⟩ := hc
    · exact ⟨[], rfl, frmBuild_bad_source hw⟩
    · exact ⟨[], rfl, frmBuild_bad_tag hw ht⟩
    · exact ⟨[], rfl, frmBuild_bad_windows hw ht hd⟩
    · exact ⟨_, rfl, frmBuild_good hw ht hd ho⟩
  | sigChk =>
    have hc := sigChk_cases h
    rw [← hslice] at hc
    obtain ⟨hw, rfl⟩ | ⟨hw, hg, rfl⟩ | ⟨hw, hg, rfl⟩ := hc
    · exact ⟨[], rfl, sigChk_bad_source hw⟩
    · exact ⟨[], rfl, sigChk_bad hw hg⟩
    · exact ⟨[], rfl, sigChk_good hw hg⟩
  | sigPut => exact sigPut_withMem m h
  | strScan =>
    have hc := strScan_cases h
    rw [← hslice] at hc
    obtain ⟨hw, rfl⟩ | ⟨f, hw, hf, rfl⟩ | ⟨chunks, hw, hx, rfl⟩ := hc
    · exact ⟨[], rfl, strScan_bad_source hw⟩
    · exact ⟨[], rfl, strScan_bad hw hf⟩
    · exact ⟨[], rfl, strScan_good hw hx⟩

/-- One string written to two memories: each byte is untouched in both or the same in both. -/
theorem load_memWrite_kept_or_same {m m' : Memory} (hwf : m.wf = true) (hwf' : m'.wf = true)
    (addr : Nat) (bs : List Byte) (a : Nat) :
    ((memWrite m addr bs).load a = m.load a ∧ (memWrite m' addr bs).load a = m'.load a) ∨
    (memWrite m' addr bs).load a = (memWrite m addr bs).load a := by
  rw [load_memWrite addr bs a hwf, load_memWrite addr bs a hwf']
  by_cases ha : addr ≤ a ∧ a < addr + bs.length
  · right; rw [if_pos ha, if_pos ha]
  · left; rw [if_neg ha, if_neg ha]; exact ⟨rfl, rfl⟩

theorem slice_withMem (hagree : ∀ a, sliceBase s ≤ a → a < sliceBase s + avail s →
    m.load a = s.mem.load a) : slice { s with mem := m } = slice s :=
  memRead_congr hagree

/-- Settles O24: agreement on the slice is an equal slice, and the same string is stored. -/
theorem commandsReadOnlyTheSlice : Obligations.CommandsReadOnlyTheSlice := by
  unfold Obligations.CommandsReadOnlyTheSlice
  intro i s t m hwf hwf' hagree h
  obtain ⟨bs, hmem, hrun⟩ := exec_withMem (slice_withMem hagree) h
  refine ⟨memWrite m (writeBase s) bs, hrun, fun a => ?_⟩
  rw [hmem]
  exact load_memWrite_kept_or_same hwf hwf' (writeBase s) bs a

/-- The overlap test of FRM.BUILD finds exactly a shared address; the larger of the two bases is one. -/
theorem rangesMeet_iff_shared (a n b k : Nat) : rangesMeet a n b k = true ↔
    ∃ c, a ≤ c ∧ c < a + n ∧ b ≤ c ∧ c < b + k := by
  rw [rangesMeet_iff]
  constructor
  · rintro ⟨hn, hk, hab, hba⟩
    exact ⟨max a b, by omega, by omega, by omega, by omega⟩
  · rintro ⟨c, h1, h2, h3, h4⟩
    omega

/-- Settles O28: the overlap test, and `exec_mem_kept` with `sigPut_withMem` for the other commands. -/
theorem overlapFaults : Obligations.OverlapFaults := by
  unfold Obligations.OverlapFaults
  refine ⟨fun s hw ht hd => ?_, fun i s t hi h => ?_⟩
  · have hmeet := rangesMeet_iff_shared (sliceBase s) (avail s) (writeBase s) (12 + avail s)
    rw [← Nat.add_assoc] at hmeet
    refine ⟨fun ⟨_, hshared⟩ => frmBuild_bad_windows hw ht (.inr (hmeet.2 hshared)), fun hnone => ?_⟩
    refine ⟨_, frmBuild_good hw ht hd (Bool.eq_false_iff.2 fun hm => ?_), rfl⟩
    obtain ⟨c, h1, h2, h3⟩ := hmeet.1 hm
    obtain hempty | hapart := hnone
    · omega
    · exact hapart c h1 h2 h3
  · by_cases hput : i = .sigPut
    · subst hput
      refine .inr ⟨rfl, fun m => ?_⟩
      obtain ⟨bs, -, hrun⟩ := sigPut_withMem m h
      exact ⟨_, hrun⟩
    · exact .inl (exec_mem_kept h hput hi)

end Sys2Proof.Proofs

/-! # Encoding and decoding (`30_encoding.md`) -/

/-! ## Decoding inverts encoding (R94, R96, R97) -/

namespace Sys2Proof.Proofs

open Sys2Proof.Machine Sys2Proof.Laws

variable {w : Word} {i : Instr}

theorem decode_eq_ok_iff : decode w = .ok i ↔ highField w = 0#16 ∧ decodeOp w = .ok i := by
  by_cases h : highField w = 0#16 <;> simp [decode, h]

theorem formatN_eq_ok_iff {j : Instr} : formatN w j = .ok i ↔ immField w = 0#8 ∧ j = i := by
  by_cases h : immField w = 0#8 <;> simp [formatN, h]

/-- An arm of the opcode map in format N decodes nothing but the word of its own command. -/
theorem eq_encode_of_formatN {j : Instr} {op : Byte} (hhigh : highField w = 0#16)
    (h : formatN w j = .ok i) (hj : encode j = wordN op) (hop : (opField w).toNat = op.toNat) :
    w = encode i := by
  obtain ⟨himm, rfl⟩ := formatN_eq_ok_iff.1 h
  rw [hj, eq_wordN_iff]
  exact ⟨hhigh, himm, BitVec.eq_of_toNat_eq hop⟩

/-- No word but the encoding of a command decodes to it, arm by arm of the opcode map. -/
theorem eq_encode_of_decode (h : decode w = .ok i) : w = encode i := by
  obtain ⟨hhigh, h⟩ := decode_eq_ok_iff.1 h
  unfold decodeOp at h
  split at h
  case h_5 hop =>
    cases h
    exact (eq_wordB_iff w _ _).2 ⟨hhigh, rfl, BitVec.eq_of_toNat_eq hop⟩
  case h_14 => cases h
  case h_1 hop | h_2 hop | h_3 hop | h_4 hop | h_6 hop | h_7 hop | h_8 hop | h_9 hop | h_10 hop
      | h_11 hop | h_12 hop | h_13 hop => exact eq_encode_of_formatN hhigh h rfl hop

/-- Twelve commands have one closed word; CRC.BYTE is read back field by field. -/
theorem decode_encode (i : Instr) : decode (encode i) = .ok i := by
  cases i with
  | crcByte d =>
    obtain ⟨hhigh, himm, hop⟩ := (eq_wordB_iff (wordB d 0x11#8) d 0x11#8).1 rfl
    simp [encode, decode, decodeOp, hhigh, himm, hop]
  | _ => decide

/-- Settles O1: `eq_encode_of_decode` and `decode_encode`. -/
theorem decodeIffEncode : Obligations.DecodeIffEncode := by
  unfold Obligations.DecodeIffEncode
  exact fun w i => ⟨eq_encode_of_decode, fun h => h ▸ decode_encode i⟩

/-- Settles O5: each written-out word is the command's encoding. -/
theorem writtenWordsDecode : Obligations.WrittenWordsDecode := by
  unfold Obligations.WrittenWordsDecode
  exact ⟨decode_encode .nop, decode_encode .tagLds, decode_encode (.crcByte 0x54#8),
    decode_encode .crcBuf, decode_encode .frmBuild, decode_encode .sigChk⟩

end Sys2Proof.Proofs

/-! ## The opcode table and the illegal words (R96 to R98) -/

namespace Sys2Proof.Proofs

open Sys2Proof.Machine Sys2Proof.Laws

variable {w : Word} {r r' : OpRow}

theorem encodedRow (i : Instr) : EncodedRow.Statement i := by
  cases i with
  | nop => exact EncodedRow.nop
  | tagChk => exact EncodedRow.tagChk
  | tagLds => exact EncodedRow.tagLds
  | crcInit => exact EncodedRow.crcInit
  | crcByte d => exact EncodedRow.crcByte d
  | crcBuf => exact EncodedRow.crcBuf
  | crcFin => exact EncodedRow.crcFin
  | crcCalc => exact EncodedRow.crcCalc
  | frmParse => exact EncodedRow.frmParse
  | frmBuild => exact EncodedRow.frmBuild
  | sigChk => exact EncodedRow.sigChk
  | sigPut => exact EncodedRow.sigPut
  | strScan => exact EncodedRow.strScan

/-- The one row of format B. -/
def crcByteRow : OpRow := ⟨"CRC.BYTE", 0x00000011#32, 0xFFFF00FF#32⟩

/-- The commands of format N, those without an immediate. -/
def formatNCommands : List Instr :=
  [.nop, .tagChk, .tagLds, .crcInit, .crcBuf, .crcFin, .crcCalc, .frmParse, .frmBuild, .sigChk,
    .sigPut, .strScan]

/-- Every other row has the full mask, and its pattern is the word of the command it names. -/
theorem row_cases : ∀ r ∈ opcodeTable, r = crcByteRow ∨
    r.mask = BitVec.allOnes 32 ∧
      ∃ i ∈ formatNCommands, i.mnemonic = r.mnemonic ∧ encode i = r.pattern := by
  decide

theorem row_mask_includes_op : ∀ r ∈ opcodeTable, r.mask.extractLsb' 0 8 = 0xFF#8 := by decide

theorem row_patterns_differ_in_op : ∀ r ∈ opcodeTable, ∀ r' ∈ opcodeTable,
    r ≠ r' → r.pattern.extractLsb' 0 8 ≠ r'.pattern.extractLsb' 0 8 := by decide

/-- A selected word has the row's pattern in every field that the mask includes. -/
theorem field_eq_of_selects {start len : Nat} (hs : r.selects w = true)
    (hmask : r.mask.extractLsb' start len = BitVec.allOnes len) :
    w.extractLsb' start len = r.pattern.extractLsb' start len := by
  rw [← eq_of_beq hs, BitVec.extractLsb'_and, hmask, BitVec.and_allOnes]

/-- A selected word is an encoding of the row's command. -/
theorem eq_encode_of_selects (hr : r ∈ opcodeTable) (hs : r.selects w = true) :
    ∃ i : Instr, i.mnemonic = r.mnemonic ∧ w = encode i := by
  obtain rfl | ⟨hmask, i, -, hname, hpattern⟩ := row_cases r hr
  · refine ⟨.crcByte (immField w), rfl, (eq_wordB_iff w _ _).2 ⟨?_, rfl, ?_⟩⟩
    · exact field_eq_of_selects (start := 16) (len := 16) hs (by decide)
    · exact field_eq_of_selects (start := 0) (len := 8) hs (by decide)
  · refine ⟨i, hname, ?_⟩
    rw [hpattern, ← eq_of_beq hs, hmask, BitVec.and_allOnes]

/-- Two rows that select one word agree in bits 7:0, where all patterns differ. -/
theorem row_unique (hr : r ∈ opcodeTable) (hr' : r' ∈ opcodeTable) (hs : r.selects w = true)
    (hs' : r'.selects w = true) : r = r' := by
  by_contra hne
  apply row_patterns_differ_in_op r hr r' hr' hne
  rw [← field_eq_of_selects hs (row_mask_includes_op r hr),
    ← field_eq_of_selects hs' (row_mask_includes_op r' hr')]

/-- The words that no row selects are those that encode no command. -/
theorem no_row_selects_iff :
    (∀ r ∈ opcodeTable, r.selects w = false) ↔ ∀ i : Instr, w ≠ encode i := by
  constructor
  · rintro hnone i rfl
    obtain ⟨-, r, hr, -, hs⟩ := encodedRow i
    exact absurd hs (by rw [hnone r hr]; decide)
  · refine fun hnone r hr => Bool.eq_false_iff.2 fun hs => ?_
    obtain ⟨i, -, hi⟩ := eq_encode_of_selects hr hs
    exact hnone i hi

/-- A write to CMD of a word that no row selects is `raise IllegalCommand(0)` (R98). -/
theorem runEvent_illegal_word (hnone : ∀ r ∈ opcodeTable, r.selects w = false) (s : State) :
    runEvent (.writeReg 0 w) s = .next { s with err := 8#32, errOff := 0#32 } := by
  cases hd : decode w with
  | ok i => exact absurd (eq_encode_of_decode hd) (no_row_selects_iff.1 hnone i)
  | error e => exact runWord_error hd s

/-- Settles O2: a row's words encode its command, bits 7:0 keep the rows apart, and a word of no row
is illegal. -/
theorem opcodeTableDecidesDecoding : Obligations.OpcodeTableDecidesDecoding := by
  unfold Obligations.OpcodeTableDecidesDecoding
  refine fun w => ⟨fun r hr hs => ?_, fun r hr r' hr' => ?_, runEvent_illegal_word⟩
  · obtain ⟨i, hname, rfl⟩ := eq_encode_of_selects hr hs
    exact ⟨i, hname, decode_encode i, runWord_ok (decode_encode i)⟩
  · exact ⟨row_mask_includes_op r hr, row_patterns_differ_in_op r hr r' hr', row_unique hr hr'⟩

/-! ### Which words are illegal -/

theorem encode_formatN : ∀ i ∈ formatNCommands,
    encode i = wordN (opField (encode i)) ∧ opField (encode i) ≠ 0x11#8 := by decide

/-- The three checks on words admit exactly the encodings. -/
theorem wordWellFormed_iff : wordWellFormed w = true ↔ ∃ i : Instr, w = encode i := by
  constructor
  · intro h
    simp only [wordWellFormed, opAssigned, highBitsZero, midBitsAllowed, Bool.and_eq_true,
      Bool.or_eq_true, beq_iff_eq, List.any_eq_true] at h
    obtain ⟨⟨⟨r, hr, hop⟩, hhigh⟩, hmid⟩ := h
    obtain rfl | ⟨-, i, hi, -, hpattern⟩ := row_cases r hr
    · exact ⟨.crcByte (immField w), (eq_wordB_iff w _ _).2 ⟨hhigh, rfl, hop.symm⟩⟩
    · obtain ⟨hword, hne⟩ := encode_formatN i hi
      have hopw : opField w = opField (encode i) := by rw [hpattern]; exact hop.symm
      refine ⟨i, ?_⟩
      rw [hword, eq_wordN_iff]
      exact ⟨hhigh, hmid.resolve_left fun h11 => hne (hopw ▸ h11), hopw⟩
  · rintro ⟨i, rfl⟩
    exact (encodedRow i).1

theorem no_row_selects_iff_illFormed :
    (∀ r ∈ opcodeTable, r.selects w = false) ↔ wordWellFormed w = false := by
  rw [no_row_selects_iff, ← Bool.not_eq_true, wordWellFormed_iff, not_exists]

/-- The OP values that R98 lists as not assigned. -/
def UnassignedOp (op : Nat) : Prop :=
  (0x03 ≤ op ∧ op ≤ 0x0F) ∨ (0x15 ≤ op ∧ op ≤ 0x1F) ∨ (0x22 ≤ op ∧ op ≤ 0x2F) ∨ 0x33 ≤ op

theorem opAssigned_eq_false_iff (w : Word) :
    opAssigned w = false ↔ UnassignedOp (w.extractLsb' 0 8).toNat := by
  rw [opAssigned]
  generalize w.extractLsb' 0 8 = op
  have hlt := op.isLt
  simp only [opcodeTable, opcodeRowsLow, opcodeRowsHigh, List.cons_append, List.nil_append,
    List.any_cons, List.any_nil, Bool.or_eq_false_iff, beq_eq_false_iff_ne, ne_eq,
    ← BitVec.toNat_inj, UnassignedOp]
  simp only [BitVec.extractLsb'_toNat, BitVec.toNat_ofNat, Nat.shiftRight_zero, and_true]
  omega

/-- The complement of the three checks, in the words of R98. -/
theorem wordWellFormed_eq_false_iff : wordWellFormed w = false ↔
    UnassignedOp (w.extractLsb' 0 8).toNat ∨ w.extractLsb' 16 16 ≠ 0#16 ∨
      ((w.extractLsb' 0 8).toNat ≠ 0x11 ∧ w.extractLsb' 8 8 ≠ 0#8) := by
  have h11 : w.extractLsb' 0 8 = 0x11#8 ↔ (w.extractLsb' 0 8).toNat = 0x11 := BitVec.toNat_inj.symm
  rw [wordWellFormed, Bool.and_eq_false_iff, Bool.and_eq_false_iff, opAssigned_eq_false_iff,
    highBitsZero, midBitsAllowed, Bool.or_eq_false_iff, beq_eq_false_iff_ne, beq_eq_false_iff_ne,
    beq_eq_false_iff_ne, or_assoc, ne_eq (w.extractLsb' 0 8), h11]

/-- Settles O3: the illegal words are those that fail a check, and the step raises IllegalCommand. -/
theorem illegalWordRaisesIllegalCommand : Obligations.IllegalWordRaisesIllegalCommand := by
  unfold Obligations.IllegalWordRaisesIllegalCommand
  refine fun w => ⟨?_, fun hnone s rest hp => ?_⟩
  · rw [no_row_selects_iff_illFormed, wordWellFormed_eq_false_iff, UnassignedOp]
    simp only [or_assoc]
  · rw [step_cons hp]
    exact runEvent_illegal_word hnone { s with pending := rest }

end Sys2Proof.Proofs

/-! ## The convenience statements of a host script (R101) -/

namespace Sys2Proof.Proofs

open Sys2Proof.Machine Sys2Proof.Laws

/-- `0x11 + (v << 8)` is the word of CRC.BYTE with immediate `v` (R94, R95). -/
theorem encode_crcByte {v : Nat} (hv : v ≤ 255) :
    BitVec.ofNat 32 (0x11 + v * 2 ^ 8) = encode (.crcByte (BitVec.ofNat 8 v)) := by
  apply BitVec.eq_of_toNat_eq
  rw [encode, wordB_toNat, BitVec.toNat_ofNat, BitVec.toNat_ofNat, BitVec.toNat_ofNat]
  omega

/-- Settles O12: `src`, `dst` and `tag` expand as defined; `crc.byte` is `encode_crcByte`. -/
theorem pseudoInstructionsExpand : Obligations.PseudoInstructionsExpand := by
  unfold Obligations.PseudoInstructionsExpand
  refine ⟨fun addr len _ _ => ⟨rfl, rfl⟩, fun addr cap _ _ => ⟨rfl, rfl⟩, fun a b c d => ⟨?_, rfl⟩,
    fun v hv => ?_⟩
  · have hword : BitVec.ofNat 32 (be32 a b c d).toNat = be32 a b c d := by simp
    simp only [scriptEvents, List.flatMap_cons, Stmt.events, wrEvent, hword]
    rfl
  · simp only [scriptEvents, List.flatMap_cons, Stmt.events, wrEvent, encode_crcByte hv]

end Sys2Proof.Proofs

/-! # The tag unit (`40_tag.md`) -/

/-! ## Letters and tags (R120, R121) -/

namespace Sys2Proof.Proofs

open Sys2Proof.Machine Sys2Proof.Laws

variable {b : Byte} {bs : List Byte}

theorem isLetter_iff : isLetter b = true ↔
    (0x41 ≤ b.toNat ∧ b.toNat ≤ 0x5A) ∨ (0x61 ≤ b.toNat ∧ b.toNat ≤ 0x7A) := by
  simp [isLetter]

theorem isLetter_eq_false_iff : isLetter b = false ↔
    ¬ ((0x41 ≤ b.toNat ∧ b.toNat ≤ 0x5A) ∨ (0x61 ≤ b.toNat ∧ b.toNat ≤ 0x7A)) :=
  Bool.eq_false_iff.trans (not_congr isLetter_iff)

/-- The numbers of the letters in rising order: two rising lists with the same members are equal. -/
theorem filter_isLetter : ((List.range 256).filter fun n => isLetter (BitVec.ofNat 8 n)) =
    List.range' 0x41 26 ++ List.range' 0x61 26 := by
  refine List.Pairwise.eq_of_mem_iff (List.pairwise_lt_range.filter _)
    (show List.Pairwise (· < ·) _ by decide) fun n => ?_
  simp only [List.mem_filter, List.mem_range, List.mem_append, List.mem_range'_1, isLetter_iff,
    BitVec.toNat_ofNat]
  omega

theorem letterCount : ((List.range 256).filter fun n => isLetter (BitVec.ofNat 8 n)).length = 52 := by
  rw [filter_isLetter]; rfl

theorem nonLetterCount :
    ((List.range 256).filter fun n => !isLetter (BitVec.ofNat 8 n)).length = 204 := by
  have total := List.length_eq_length_filter_add (l := List.range 256)
    (fun n => isLetter (BitVec.ofNat 8 n))
  rw [letterCount, List.length_range] at total
  omega

theorem tagOk_iff : tagOk bs = true ↔ bs.length = 4 ∧ ∀ b ∈ bs, isLetter b = true := by
  simp [tagOk]

theorem tagOk_eq_false_iff : tagOk bs = false ↔ ¬ (bs.length = 4 ∧ ∀ b ∈ bs, isLetter b = true) :=
  Bool.eq_false_iff.trans (not_congr tagOk_iff)

theorem constructTag_eq_ok_iff {t : Tag} : constructTag bs = .ok t ↔ tagOk bs = true ∧ t.bytes = bs := by
  constructor
  · intro h
    obtain ⟨hok, rfl⟩ := constructTag_cases h
    exact ⟨hok, bytes_ofBytes (tagOk_length hok)⟩
  · rintro ⟨hok, rfl⟩
    rw [constructTag_of_ok hok, ofBytes_bytes]

/-- Two tags are equal iff their bytes are: `ofBytes` reads a tag back from its bytes. -/
theorem tag_bytes_injective : Function.Injective Tag.bytes :=
  Function.LeftInverse.injective (g := Tag.ofBytes) ofBytes_bytes

/-- Settles O29: the ranges by `isLetter_iff`, the counts by running over the 256 bytes, and
constructing a tag by `constructTag_eq_ok_iff`. -/
theorem lettersMakeTags : Obligations.LettersMakeTags := by
  unfold Obligations.LettersMakeTags
  refine ⟨fun b => isLetter_iff, letterCount, nonLetterCount,
    fun b hb => isLetter_eq_false_iff.2 (by omega), fun bs t => ?_,
    fun bs h => constructTag_of_not_ok (tagOk_eq_false_iff.2 h),
    fun t t' => tag_bytes_injective.eq_iff.symm⟩
  rw [constructTag_eq_ok_iff, tagOk_iff, and_assoc]

end Sys2Proof.Proofs

/-! ## The flags of a tag (R122 to R127, R132) -/

namespace Sys2Proof.Proofs

open Sys2Proof.Machine Sys2Proof.Laws

theorem critical_iff (t : Tag) : t.critical = true ↔ t.b0.getLsbD 5 = false := by simp [Tag.critical]

theorem isPublic_iff (t : Tag) : t.isPublic = true ↔ t.b1.getLsbD 5 = false := by simp [Tag.isPublic]

theorem reservedOk_iff (t : Tag) : t.reservedOk = true ↔ t.b2.getLsbD 5 = false := by
  simp [Tag.reservedOk]

theorem strictOk_iff (t : Tag) : t.strictOk = true ↔
    t.reservedOk = true ∧ ¬ (t.critical = true ∧ t.safeToCopy = true) := by
  simp [Tag.strictOk, or_iff_not_imp_left]

/-- The weighted sum of the six flags fits a register. -/
theorem flags_toNat (t : Tag) : t.flags.toNat =
    2 ^ 31 + 32 * t.strictOk.toNat + 16 * t.isValid.toNat + 8 * t.safeToCopy.toNat
      + 4 * t.reservedOk.toNat + 2 * t.isPublic.toNat + t.critical.toNat := by
  have := t.strictOk.toNat_le
  have := t.isValid.toNat_le
  have := t.safeToCopy.toNat_le
  have := t.reservedOk.toNat_le
  have := t.isPublic.toNat_le
  have := t.critical.toNat_le
  rw [Tag.flags, BitVec.toNat_ofNat, Nat.mod_eq_of_lt (by omega)]

theorem tagFlagsLegal_bit4_eq_bit2 {w : Word} (h : tagFlagsLegal w = true) :
    w.getLsbD 4 = w.getLsbD 2 := by
  simp only [tagFlagsLegal, Bool.or_eq_true, Bool.and_eq_true, beq_iff_eq] at h
  obtain rfl | ⟨⟨-, bits⟩, -⟩ := h
  · rfl
  · exact bits

/-- Settles O30: one lemma per flag, and TAGFLAGS by `flags_toNat`. -/
theorem tagFlagFunctions : Obligations.TagFlagFunctions := by
  unfold Obligations.TagFlagFunctions
  intro t
  refine ⟨critical_iff t, isPublic_iff t, reservedOk_iff t, Iff.rfl, rfl, strictOk_iff t, ?_,
    tagFlagsLegal_bit4_eq_bit2 (tagFlagsLegal_flags t)⟩
  rw [flags_toNat, one_mul]

end Sys2Proof.Proofs

/-! ## TAG.CHK and TAG.LDS (R128, R129) -/

namespace Sys2Proof.Proofs

open Sys2Proof.Machine Sys2Proof.Laws

variable {s : State}

/-- An error whose offset is a register's value puts that value in ERR_OFF. -/
theorem raiseError_at_register (k : ErrKind) (v : Word) (s : State) :
    raiseError k v.toNat s = { s with err := k.code, errOff := v } := by
  rw [raiseError, BitVec.ofNat_toNat, BitVec.setWidth_eq]

theorem tagOk_be32Bytes_iff (v : Word) :
    tagOk (be32Bytes v) = true ↔ ∀ b ∈ be32Bytes v, isLetter b = true :=
  tagOk_iff.trans (and_iff_right (be32Bytes_length v))

theorem exec_tagChk_letters (h : tagOk (be32Bytes s.tag) = true) :
    exec .tagChk s = .next { s with
      tagFlags := (Tag.ofBytes (be32Bytes s.tag)).flags, err := 0#32, errOff := 0#32 } :=
  tagChk_good h

theorem exec_tagChk_notLetters (h : tagOk (be32Bytes s.tag) = false) :
    exec .tagChk s = .next { s with err := 1#32, errOff := 0#32 } :=
  tagChk_bad h

/-- Settles O31: the two outcomes; for a given word in TAG, `tag_ok` and the flags are computed. -/
theorem tagChkResult : Obligations.TagChkResult := by
  unfold Obligations.TagChkResult
  refine ⟨rfl, fun s h => exec_tagChk_letters ((tagOk_be32Bytes_iff s.tag).2 h),
    fun s h => exec_tagChk_notLetters (Bool.eq_false_iff.2 (mt (tagOk_be32Bytes_iff s.tag).1 h)),
    fun s h => exec_tagChk_notLetters ?_, fun s h => ⟨_, exec_tagChk_letters ?_, rfl⟩, fun s h => ?_⟩
  · obtain h | h | h := h <;> rw [h] <;> decide
  · rw [h]; decide
  · have letters : tagOk (be32Bytes s.tag) = true := by rw [h]; decide
    have flags : (Tag.ofBytes (be32Bytes s.tag)).flags = 0x8000001D#32 := by rw [h]; decide
    rw [exec_tagChk_letters letters, flags]

theorem exec_tagLds_letters (window : srcOk s = true) (h : tagOk (slice s) = true) :
    exec .tagLds s = .next { s with
      tag := be32At (slice s) 0, tagFlags := (Tag.ofBytes (slice s)).flags,
      err := 0#32, errOff := 0#32 } :=
  tagLds_good window h

theorem exec_tagLds_notLetters (window : srcOk s = true) (h : tagOk (slice s) = false) :
    exec .tagLds s = .next { s with err := 1#32, errOff := s.rcur } :=
  (tagLds_bad window h).trans (congrArg _ (raiseError_at_register .invalidTag s.rcur s))

theorem tagOk_slice_iff (s : State) : tagOk (slice s) = true ↔
    s.srcLen.toNat - s.rcur.toNat = 4 ∧ ∀ b ∈ slice s, isLetter b = true := by
  rw [tagOk_iff, slice_length, avail]

theorem tagOk_slice_eq_false_iff (s : State) : tagOk (slice s) = false ↔
    ¬ (s.srcLen.toNat - s.rcur.toNat = 4 ∧ ∀ b ∈ slice s, isLetter b = true) :=
  Bool.eq_false_iff.trans (not_congr (tagOk_slice_iff s))

/-- Settles O32: the three outcomes, the test of length and letters by `tagOk_slice_iff`; for given
bytes in the slice, `tag_ok`, TAG and the flags are computed. -/
theorem tagLdsResult : Obligations.TagLdsResult := by
  unfold Obligations.TagLdsResult
  refine ⟨rfl, fun s bad => tagLds_bad_source bad,
    fun s window hlen => exec_tagLds_notLetters window
      ((tagOk_slice_eq_false_iff s).2 fun h => hlen h.1),
    fun s window _ hb => exec_tagLds_notLetters window
      ((tagOk_slice_eq_false_iff s).2 fun h => hb h.2),
    fun s window hlen hb => exec_tagLds_letters window ((tagOk_slice_iff s).2 ⟨hlen, hb⟩),
    fun s window h => exec_tagLds_notLetters window ?_, fun s window h => ?_⟩
  · rw [h]; decide
  · have letters : tagOk (slice s) = true := by rw [h]; decide
    have word : be32At (slice s) 0 = 0x54455354#32 := by rw [h]; decide
    have flags : (Tag.ofBytes (slice s)).flags = 0x80000037#32 := by rw [h]; decide
    rw [exec_tagLds_letters window letters, word, flags]

end Sys2Proof.Proofs

/-! # The checksum engine (`41_crc.md`)

## The byte step and the printed table (R144) -/

namespace Sys2Proof.Proofs

open Sys2Proof.Machine Sys2Proof.Laws

/-- A register that meets its own low byte only moves: the exclusive-or clears the eight bits that
would bring in the polynomial. -/
theorem crcByte_low (r : Word) : crcByte r (r.extractLsb' 0 8) = r >>> 8 := by
  have low_clear : ∀ i < 8, (r ^^^ (r.extractLsb' 0 8).setWidth 32).getLsbD i = false := by
    intro i hi
    simp [hi, show i < 32 by omega]
  have high_kept : (r ^^^ (r.extractLsb' 0 8).setWidth 32) >>> 8 = r >>> 8 := by
    apply BitVec.eq_of_getLsbD_eq
    intro i _
    simp
  rw [crcByte, crcShifts_of_low_zero 8 _ low_clear, high_kept]

/-- The byte step by linearity: the eight shifts of one byte, and a move of the register. -/
theorem crcByte_eq_shifts_xor (r : Word) (d : Byte) :
    crcByte r d = crcShifts 8 ((r.extractLsb' 0 8 ^^^ d).setWidth 32) ^^^ (r >>> 8) := by
  calc crcByte r d
      = crcByte (0#32 ^^^ r) ((r.extractLsb' 0 8 ^^^ d) ^^^ r.extractLsb' 0 8) := by
        rw [BitVec.zero_xor, BitVec.xor_comm _ d, BitVec.xor_assoc, BitVec.xor_self, BitVec.xor_zero]
    _ = crcByte 0#32 (r.extractLsb' 0 8 ^^^ d) ^^^ crcByte r (r.extractLsb' 0 8) := crcByte_xor ..
    _ = crcShifts 8 ((r.extractLsb' 0 8 ^^^ d).setWidth 32) ^^^ (r >>> 8) := by
        rw [crcByte_low, crcByte, BitVec.zero_xor]

theorem crcTable_eq_map :
    crcTable = (List.range 256).map fun n => crcShifts 8 (BitVec.ofNat 32 n) := by decide +kernel

theorem crcTable_getElem? {n : Nat} (h : n < 256) :
    crcTable[n]? = some (crcShifts 8 (BitVec.ofNat 32 n)) := by
  rw [crcTable_eq_map, List.getElem?_map, List.getElem?_range h, Option.map_some]

theorem crcTable_getD_byte (b : Byte) : crcTable.getD b.toNat 0#32 = crcShifts 8 (b.setWidth 32) := by
  rw [List.getD_eq_getElem?_getD, crcTable_getElem? b.isLt, Option.getD_some, BitVec.ofNat_toNat]

theorem extractLsb'_xor_setWidth (r : Word) (d : Byte) :
    (r ^^^ d.setWidth 32).extractLsb' 0 8 = r.extractLsb' 0 8 ^^^ d := by
  apply BitVec.eq_of_getLsbD_eq
  intro i hi
  simp [hi, show i < 32 by omega]

/-- Settles O33: linearity splits the byte step into a table entry and a move of the register. -/
theorem crcTableForm : Obligations.CrcTableForm := by
  unfold Obligations.CrcTableForm
  refine ⟨fun r d => ?_, by simp [crcTable_eq_map], fun n => crcTable_getElem?⟩
  rw [extractLsb'_xor_setWidth, crcTable_getD_byte, crcByte_eq_shifts_xor]

end Sys2Proof.Proofs

/-! ## The properties of the checksum (R145) -/

namespace Sys2Proof.Proofs

open Sys2Proof.Machine Sys2Proof.Laws

theorem crcByte_register_bijective (d : Byte) : Function.Bijective fun r => crcByte r d :=
  Finite.injective_iff_bijective.1 (crcByte_register_injective d)

theorem crc32_ne_of_byte_ne (a b : List Byte) {d d' : Byte} (hne : d ≠ d') :
    crc32 (a ++ d :: b) ≠ crc32 (a ++ d' :: b) := by
  intro h
  have h := crc32_injective_of_update h
  simp only [crcUpdate_append, crcUpdate_cons] at h
  exact hne (crcByte_byte_injective _ (crcUpdate_injective b h))

theorem crcUpdate_xor (r r' : Word) {s s' : List Byte} (h : s.length = s'.length) :
    crcUpdate (r ^^^ r') (List.zipWith (fun a b => a ^^^ b) s s') =
      crcUpdate r s ^^^ crcUpdate r' s' := by
  induction s generalizing r r' s' with
  | nil => obtain rfl := List.length_eq_zero_iff.1 h.symm; rfl
  | cons d s ih =>
    cases s' with
    | nil => cases h
    | cons d' s' =>
      rw [List.zipWith_cons_cons, crcUpdate_cons, crcByte_xor, ih _ _ (Nat.succ.inj h)]
      rfl

theorem crcByte_zero_zero : crcByte 0#32 0#8 = 0#32 := crcShifts_zero 8

theorem crcUpdate_zeros (n : Nat) : crcUpdate 0#32 (List.replicate n 0#8) = 0#32 := by
  induction n with
  | zero => rfl
  | succ n ih => rw [List.replicate_succ, crcUpdate_cons, crcByte_zero_zero, ih]

/-- Fed its own four bytes, low byte first, a register moves out byte by byte until nothing is left. -/
theorem crcUpdate_own_bytes (v : Word) : crcUpdate v (be32Bytes v).reverse = 0#32 := by
  have next_byte (k : Nat) : v.extractLsb' k 8 = (v >>> k).extractLsb' 0 8 := by
    apply BitVec.eq_of_getLsbD_eq
    intro i hi
    simp
  have feed (k : Nat) : crcByte (v >>> k) (v.extractLsb' k 8) = v >>> (k + 8) := by
    rw [next_byte, crcByte_low, BitVec.shiftRight_add]
  calc crcUpdate v (be32Bytes v).reverse
      = crcByte (crcByte (crcByte (crcByte (v >>> 0) (v.extractLsb' 0 8)) (v.extractLsb' 8 8))
          (v.extractLsb' 16 8)) (v.extractLsb' 24 8) := by rw [BitVec.ushiftRight_zero]; rfl
    _ = v >>> 32 := by rw [feed, feed, feed, feed]
    _ = 0#32 := BitVec.ushiftRight_eq_zero (Nat.le_refl 32)

/-- The register before its checksum is fed is that checksum inverted, so by linearity the residue is
what four zero bytes make of all ones, whatever the string (`41_crc.md` R145 (d)). -/
theorem crc32_append_own_bytes (s : List Byte) :
    crc32 (s ++ (be32Bytes (crc32 s)).reverse) = 0x2144DF1C#32 := by
  have register : crcUpdate crcInitial s = crcXorOut ^^^ crc32 s := by
    rw [crc32, BitVec.xor_comm, BitVec.xor_assoc, BitVec.xor_self, BitVec.xor_zero]
  have linear (v : Word) : crcUpdate (crcXorOut ^^^ v) (be32Bytes v).reverse =
      crcUpdate crcXorOut (List.replicate 4 0#8) ^^^ crcUpdate v (be32Bytes v).reverse := by
    rw [← crcUpdate_xor crcXorOut v (by rfl)]
    simp [be32Bytes, List.replicate]
  rw [crc32, crcUpdate_append, register, linear, crcUpdate_own_bytes]
  decide +kernel

/-- The record `IEND` with no payload: its CRC field, stored big-endian, leaves no residue. -/
def recordWithoutResidue : Record := newRecord ⟨0x49#8, 0x45#8, 0x4E#8, 0x44#8⟩ []

/-- Settles O34: injectivity and linearity of the byte step, carried over strings; for (d) the record
`IEND` is computed. -/
theorem crcProperties : Obligations.CrcProperties := by
  unfold Obligations.CrcProperties
  exact ⟨by decide, crcByte_register_bijective, crcByte_byte_injective,
    fun a b d d' => crc32_ne_of_byte_ne a b, fun r r' s s' => crcUpdate_xor r r', crcUpdate_zeros,
    crc32_append_own_bytes, recordWithoutResidue, newRecord_valid (by decide) (by decide), by decide +kernel⟩

end Sys2Proof.Proofs

/-! ## CRC.INIT, CRC.BYTE, CRC.FIN (R150, R151, R153) -/

namespace Sys2Proof.Proofs

open Sys2Proof.Machine Sys2Proof.Laws

variable {s t u : State}

theorem exec_crcInit (s : State) :
    exec .crcInit s = .next { s with crcAcc := 0xFFFFFFFF#32, err := 0#32, errOff := 0#32 } := rfl

theorem exec_crcByte (d : Byte) (s : State) : exec (.crcByte d) s =
    .next { s with crcAcc := crcByte s.crcAcc d, err := 0#32, errOff := 0#32 } := rfl

theorem exec_crcFin (s : State) : exec .crcFin s =
    .next { s with crcOut := s.crcAcc ^^^ 0xFFFFFFFF#32, err := 0#32, errOff := 0#32 } := rfl

theorem exec_crcInit_twice (h1 : exec .crcInit s = .next t) (h2 : exec .crcInit t = .next u) :
    u = t := by
  rw [crcInit_cases h2, crcInit_cases h1]
  rfl

/-- Settles O35: the two whole effects; the checksums of the corner case and the example are computed. -/
theorem crcInitAndFinResult : Obligations.CrcInitAndFinResult := by
  unfold Obligations.CrcInitAndFinResult
  refine ⟨rfl, rfl, exec_crcInit, fun s t u => exec_crcInit_twice, exec_crcFin,
    fun s h => ⟨_, exec_crcFin s, ?_⟩, fun s h => ⟨_, exec_crcFin s, ?_⟩⟩
  · simp only [h]; decide +kernel
  · simp only [h]; decide +kernel

/-- The loop of `41_crc.md` R141 is the shift iterated. -/
theorem crcShifts_eq_iterate (n : Nat) (r : Word) : crcShifts n r = crcShift^[n] r := by
  induction n generalizing r with
  | zero => rfl
  | succ n ih => exact ih (crcShift r)

/-- The exclusive-or of a word and its moves by one, two and three bytes. -/
def xorMoves (t : Word) : Word := t ^^^ ((t >>> 8) ^^^ ((t >>> 16) ^^^ (t >>> 24)))

/-- The equation of a fixed point of the byte step, solved for the register. -/
theorem eq_xorMoves_of_fixed {r t : Word} (h : t ^^^ (r >>> 8) = r) : r = xorMoves t := by
  have moved (k : Nat) : r >>> k = (t >>> k) ^^^ (r >>> (8 + k)) := by
    conv_lhs => rw [← h]
    rw [BitVec.ushiftRight_xor_distrib, ← BitVec.shiftRight_add]
  have out : r >>> 32 = 0#32 := BitVec.ushiftRight_eq_zero (Nat.le_refl 32)
  have whole := moved 0
  rw [moved (8 + 0), moved (8 + (8 + 0)), moved (8 + (8 + (8 + 0)))] at whole
  simpa [out, xorMoves] using whole

/-- No byte but 0 is the low byte of the register that its eight shifts settle. -/
theorem eq_zero_of_low_xorMoves (b : Byte) :
    (xorMoves (crcShifts 8 (b.setWidth 32))).extractLsb' 0 8 = b → b = 0#8 := by
  revert b
  decide +kernel

/-- A register that the byte 0 keeps is settled by its low byte, and that is 0 (`41_crc.md` R151). -/
theorem crcByte_zero_eq_self_iff (r : Word) : crcByte r 0#8 = r ↔ r = 0#32 := by
  constructor
  · intro h
    rw [crcByte_eq_shifts_xor, BitVec.xor_zero] at h
    have solved := eq_xorMoves_of_fixed h
    have low : r.extractLsb' 0 8 = 0#8 := eq_zero_of_low_xorMoves _ (by rw [← solved])
    rw [low] at solved
    exact solved
  · rintro rfl
    exact crcByte_zero_zero

/-- Settles O36: the shifts as an iteration, and the fixed point by the low byte of the register. -/
theorem crcByteResult : Obligations.CrcByteResult := by
  unfold Obligations.CrcByteResult
  refine ⟨fun d => ?_, fun s d => ?_, by decide, crcByte_zero_eq_self_iff, by decide, fun s h => ?_⟩
  · rw [encode, wordB_toNat, Nat.add_comm]; rfl
  · rw [exec_crcByte, crcByte, crcShifts_eq_iterate]; rfl
  · have fed : crcByte s.crcAcc 0x54#8 = 0x41FB859F#32 := by rw [h]; decide
    rw [exec_crcByte, fed]

end Sys2Proof.Proofs

/-! ## CRC.BUF and CRC.CALC (R152, R154) -/

namespace Sys2Proof.Proofs

open Sys2Proof.Machine Sys2Proof.Laws

variable {s : State}

theorem exec_crcBuf_window (window : srcOk s = true) : exec .crcBuf s = .next { s with
    crcAcc := crcUpdate s.crcAcc (slice s), err := 0#32, errOff := 0#32 } :=
  crcBuf_good window

theorem exec_crcCalc_window (window : srcOk s = true) : exec .crcCalc s = .next { s with
    crcOut := crc32 (slice s), err := 0#32, errOff := 0#32 } :=
  crcCalc_good window

theorem slice_of_rcur_eq_srcLen (h : s.rcur = s.srcLen) : slice s = [] := by
  rw [slice, avail, h, Nat.sub_self, memRead_zero]

/-- Settles O37: the outcomes of `Laws/Forward.lean`; the digests of given bytes are computed. -/
theorem crcBufAndCalcResult : Obligations.CrcBufAndCalcResult := by
  unfold Obligations.CrcBufAndCalcResult
  refine ⟨rfl, rfl, fun s bad => ⟨crcBuf_bad_source bad, crcCalc_bad_source bad⟩,
    fun s window => ⟨?_, ?_⟩, fun s window h => ⟨?_, ?_⟩, fun s window hacc h => ?_,
    fun s window h => ?_⟩
  · rw [exec_crcBuf_window window, crcUpdate_eq_foldl]
  · rw [exec_crcCalc_window window, crc32, crcUpdate_eq_foldl]; rfl
  · rw [exec_crcBuf_window window, slice_of_rcur_eq_srcLen h, crcUpdate_nil]
  · rw [exec_crcCalc_window window, slice_of_rcur_eq_srcLen h]; rfl
  · have fed : crcUpdate s.crcAcc (slice s) = 0x2225DFF2#32 := by rw [hacc, h]; decide +kernel
    rw [exec_crcBuf_window window, fed]
  · have checked : crc32 (slice s) = 0xCBF43926#32 := by rw [h]; decide +kernel
    rw [exec_crcCalc_window window, checked]

end Sys2Proof.Proofs

/-! ## A digest fed in pieces (R147, R156) -/

namespace Sys2Proof.Proofs

open Sys2Proof.Machine Sys2Proof.Laws

variable {i : Instr} {s s' t u : State}

theorem digest_crcAcc {bs : List Byte} (h : Digest s bs u) :
    u.crcAcc = crcUpdate s.crcAcc bs := by
  induction h with
  | done s => rfl
  | byte s t u b bs run _ ih => rw [ih, crcByte_cases run]; rfl
  | buf s t u bs window run _ ih =>
    rw [exec_crcBuf_window window] at run
    cases run
    rw [ih, crcUpdate_append]
  | between s t u bs kept _ ih => rw [ih, kept]

theorem digest_append {a b : List Byte} (ha : Digest s a t) (hb : Digest t b u) :
    Digest s (a ++ b) u := by
  induction ha with
  | done s => exact hb
  | byte s t' t d bs run _ ih => exact .byte s t' u d (bs ++ b) run (ih hb)
  | buf s t' t bs window run _ ih =>
    rw [List.append_assoc]
    exact .buf s t' u (bs ++ b) window run (ih hb)
  | between s t' t bs kept _ ih => exact .between s t' u (bs ++ b) kept (ih hb)

theorem Succeeds.crcAcc_kept (hs : Succeeds s i s') (h1 : i ≠ .crcInit) (h2 : ∀ d, i ≠ .crcByte d)
    (h3 : i ≠ .crcBuf) : s'.crcAcc = s.crcAcc := by
  cases hs with
  | crcInit => exact absurd rfl h1
  | crcByte d => exact absurd rfl (h2 d)
  | crcBuf => exact absurd rfl h3
  | _ => rfl

theorem exec_crcAcc_kept (h1 : i ≠ .crcInit) (h2 : ∀ d, i ≠ .crcByte d) (h3 : i ≠ .crcBuf)
    (h : exec i s = .next t) : t.crcAcc = s.crcAcc :=
  exec_keeps_of_succeeds State.crcAcc (fun _ _ => rfl) (fun _ => rfl)
    (fun _ hs => hs.crcAcc_kept h1 h2 h3) h

/-- Settles O38: every piece extends the digest, by induction over the pieces. -/
theorem streamingEqualsOneShot : Obligations.StreamingEqualsOneShot := by
  unfold Obligations.StreamingEqualsOneShot
  refine ⟨fun s t u x bs hinit hfed hfin => ?_, fun s t u a b => digest_append,
    fun i s t => exec_crcAcc_kept⟩
  have raw : u.crcAcc = crcUpdate 0xFFFFFFFF#32 bs := by
    rw [digest_crcAcc hfed, crcInit_cases hinit]; rfl
  have finished : x.crcOut = crc32 bs := by
    rw [crcFin_cases hfin, complete_crcOut, raw]; rfl
  refine ⟨raw, finished, fun c d window hslice hcalc => ?_⟩
  rw [exec_crcCalc_window window] at hcalc
  cases hcalc
  rw [finished, hslice]

end Sys2Proof.Proofs

/-! ## The digest registers against the rest (R155) -/

namespace Sys2Proof.Proofs

open Sys2Proof.Machine Sys2Proof.Laws

variable {i : Instr} {s t : State}

theorem exec_crcAcc_writer (h : exec i s = .next t) (hne : t.crcAcc ≠ s.crcAcc) :
    i = .crcInit ∨ (∃ d, i = .crcByte d) ∨ i = .crcBuf := by
  by_contra hi
  obtain ⟨h1, hi⟩ := not_or.1 hi
  obtain ⟨h2, h3⟩ := not_or.1 hi
  exact hne (exec_crcAcc_kept h1 (not_exists.1 h2) h3 h)

/-- A word written to CMD that changes CRC_ACC is the word of one of the three feeding commands. -/
theorem runWord_crcAcc_writer {w : Word} (h : runWord w s = .next t) (hne : t.crcAcc ≠ s.crcAcc) :
    decode w = .ok .crcInit ∨ (∃ d, decode w = .ok (.crcByte d)) ∨ decode w = .ok .crcBuf := by
  cases hw : decode w with
  | ok i =>
    rw [runWord_ok hw] at h
    obtain rfl | ⟨d, rfl⟩ | rfl := exec_crcAcc_writer h hne
    · exact .inl rfl
    · exact .inr (.inl ⟨d, rfl⟩)
    · exact .inr (.inr rfl)
  | error e =>
    rw [runWord_error hw] at h
    cases h
    exact absurd rfl hne

theorem step_crcAcc_writer (h : step s = .next t) (hne : t.crcAcc ≠ s.crcAcc) :
    (∃ w rest, s.pending = .writeReg 0 w :: rest ∧
      (decode w = .ok .crcInit ∨ (∃ d, decode w = .ok (.crcByte d)) ∨ decode w = .ok .crcBuf)) ∨
    (∃ v rest, s.pending = .writeReg 16 v :: rest) ∨
    (∃ c rest, s.pending = .reset c :: rest) := by
  obtain ⟨w, rest, hp⟩ | hreset | ⟨v, rest, hp, -⟩ :=
    step_register_writer (r := .crcAcc) h (by decide) hne
  · rw [step_cons hp] at h
    exact .inl ⟨w, rest, hp, runWord_crcAcc_writer h hne⟩
  · exact .inr (.inr hreset)
  · exact .inr (.inl ⟨v, rest, hp⟩)

/-- The state with other values in CRC_ACC and CRC_OUT. -/
def withDigest (x y : Word) (s : State) : State := { s with crcAcc := x, crcOut := y }

/-- FRM.PARSE, FRM.BUILD and STR.SCAN end the same way whatever the digest registers hold: no test of
their operands reads the two. -/
theorem exec_withDigest (x y : Word) (hi : i = .frmParse ∨ i = .frmBuild ∨ i = .strScan)
    (h : exec i s = .next t) : exec i (withDigest x y s) = .next (withDigest x y t) := by
  obtain rfl | rfl | rfl := hi
  · obtain ⟨hw, rfl⟩ | ⟨k, hw, hk, rfl⟩ | ⟨r, hw, hr, rfl⟩ := frmParse_cases h
    · exact frmParse_bad_source (s := withDigest x y s) hw
    · exact frmParse_bad (s := withDigest x y s) hw hk
    · exact frmParse_good (s := withDigest x y s) hw hr
  · obtain ⟨hw, rfl⟩ | ⟨hw, ht, rfl⟩ | ⟨hw, ht, hd, rfl⟩ | ⟨hw, ht, hd, ho, rfl⟩ := frmBuild_cases h
    · exact frmBuild_bad_source (s := withDigest x y s) hw
    · exact frmBuild_bad_tag (s := withDigest x y s) hw ht
    · exact frmBuild_bad_windows (s := withDigest x y s) hw ht hd
    · exact frmBuild_good (s := withDigest x y s) hw ht hd ho
  · obtain ⟨hw, rfl⟩ | ⟨f, hw, hf, rfl⟩ | ⟨chunks, hw, hc, rfl⟩ := strScan_cases h
    · exact strScan_bad_source (s := withDigest x y s) hw
    · exact strScan_bad (s := withDigest x y s) hw hf
    · exact strScan_good (s := withDigest x y s) hw hc

theorem exec_digest_kept (hi : i = .frmParse ∨ i = .frmBuild ∨ i = .strScan)
    (h : exec i s = .next t) : t.crcAcc = s.crcAcc ∧ t.crcOut = s.crcOut := by
  have h' := exec_withDigest s.crcAcc s.crcOut hi h
  have ht : t = withDigest s.crcAcc s.crcOut t := Host.Outcome.next.inj (h.symm.trans h')
  exact ⟨(congrArg State.crcAcc ht :), (congrArg State.crcOut ht :)⟩

/-- Settles O20: the writers of CRC_ACC over the cases of a step, and two runs that differ in the digest
registers only. -/
theorem digestIsolation : Obligations.DigestIsolation := by
  unfold Obligations.DigestIsolation
  refine ⟨fun s t => step_crcAcc_writer, fun i s t x y hi h => ?_⟩
  obtain ⟨hacc, hout⟩ := exec_digest_kept hi h
  exact ⟨hacc, hout, exec_withDigest x y hi h⟩

end Sys2Proof.Proofs

/-! # Parsing a record (`42_frame_parse.md`)

## What parse_record answers (R170, R171) -/

namespace Sys2Proof.Proofs

open Sys2Proof.Machine Sys2Proof.Laws

variable {s : List Byte}

/-- Both tests of the length in one: fewer than 12 bytes are too few for every LENGTH field. -/
theorem parseRecord_truncated (h : s.length < 12 + (be32At s 0).toNat) :
    parseRecord s = .error .truncatedRecord := by
  by_cases h12 : s.length < 12
  · exact if_pos h12
  · exact (if_neg h12).trans (if_pos (by omega))

/-- With room for the record, the tag is constructed next. -/
theorem parseRecord_notLetters (room : 12 + (be32At s 0).toNat ≤ s.length)
    (h : tagOk (sub s 4 8) = false) : parseRecord s = .error .invalidTag := by
  simp only [parseRecord]
  rw [if_neg (by omega), if_neg (by omega), constructTag_of_not_ok h]

theorem recordCrc_ofBytes {t : List Byte} (ht : tagOk t = true) (p : List Byte) :
    recordCrc (Tag.ofBytes t) p = crc32 (t ++ p) := by
  rw [recordCrc, bytes_ofBytes (tagOk_length ht)]

theorem parseRecord_badCrc (room : 12 + (be32At s 0).toNat ≤ s.length)
    (letters : tagOk (sub s 4 8) = true)
    (h : crc32 (sub s 4 8 ++ sub s 8 (8 + (be32At s 0).toNat)) ≠
      be32At s (8 + (be32At s 0).toNat)) :
    parseRecord s = .error .crcMismatch := by
  rw [← recordCrc_ofBytes letters] at h
  simp only [parseRecord]
  rw [if_neg (by omega), if_neg (by omega), constructTag_of_ok letters]
  exact if_neg h

/-- Settles O39: the steps of R170 in order, each with the earlier ones passed. -/
theorem parseRecordOutcomes : Obligations.ParseRecordOutcomes := by
  unfold Obligations.ParseRecordOutcomes
  intro s n t payload
  refine ⟨fun h => parseRecord_truncated (by omega), fun _ h => parseRecord_truncated (by omega),
    fun _ room h => parseRecord_notLetters (by omega) h,
    fun _ room letters h => parseRecord_badCrc (by omega) letters h,
    fun h12 room letters h => parseRecord_of_fields h12 room letters ?_⟩
  rw [recordCrc_ofBytes letters, h]

end Sys2Proof.Proofs

/-! ## Records and their serialised form (R173, R177, R178) -/

namespace Sys2Proof.Proofs

open Sys2Proof.Machine Sys2Proof.Laws

variable {s : List Byte} {x : Record}

theorem parseRecord_serialize (hx : x.valid = true) (z : List Byte) :
    parseRecord (serialize x ++ z) = .ok x := by
  have hl := valid_length hx
  obtain ⟨hlen, htag, hpay, hcrc⟩ := serialize_fields x z hl
  have room : 12 + x.length.toNat ≤ (serialize x ++ z).length := by
    rw [List.length_append, serialize_length, hl]
    omega
  have parsed := parseRecord_of_fields (s := serialize x ++ z) (by omega) (by rw [hlen]; omega)
    (by rw [htag, valid_tag hx]) (by rw [hlen, htag, hpay, hcrc, ofBytes_bytes, valid_crc hx])
  rwa [hlen, htag, hpay, hcrc, ofBytes_bytes] at parsed

/-- Settles O40: the fields of the string are those of the record, whatever follows. -/
theorem parseOfSerializedRecord : Obligations.ParseOfSerializedRecord := by
  unfold Obligations.ParseOfSerializedRecord
  refine ⟨fun x z hx => parseRecord_serialize hx z, fun t p ht hp => ?_⟩
  simpa using parseRecord_serialize (newRecord_valid ht hp) []

theorem newRecord_of_valid (hx : x.valid = true) : newRecord x.tag x.payload = x := by
  have hlen : BitVec.ofNat 32 x.payload.length = x.length := by
    rw [← valid_length hx, BitVec.ofNat_toNat, BitVec.setWidth_eq]
  rw [newRecord, hlen, ← valid_crc hx]

theorem parseRecord_payload_length (h : parseRecord s = .ok x) :
    x.payload.length = x.length.toNat := by
  obtain ⟨hroom, -, -, -, hpay, -, -⟩ := parseRecord_ok h
  rw [hpay, sub_length (by omega), Nat.add_sub_cancel_left]

theorem parseRecord_valid (h : parseRecord s = .ok x) : x.valid = true := by
  obtain ⟨-, -, -, -, -, -, hcrc⟩ := parseRecord_ok h
  exact valid_intro (parseRecord_payload_length h).symm (parseRecord_tagOk h) hcrc.symm

/-- The four fields of a parsed record are neighbouring parts of the string. -/
theorem serialize_of_parseRecord (h : parseRecord s = .ok x) :
    serialize x = s.take (12 + x.length.toNat) := by
  obtain ⟨hroom, hlen, hok, htag, hpay, hcrc, -⟩ := parseRecord_ok h
  set n := x.length.toNat
  calc serialize x
      = sub s 0 4 ++ sub s 4 8 ++ sub s 8 (8 + n) ++ sub s (8 + n) (8 + n + 4) := by
        rw [serialize, hlen, htag, hpay, hcrc, be32Bytes_be32At (by omega),
          be32Bytes_be32At (by omega), bytes_ofBytes (tagOk_length hok)]
    _ = s.take (12 + n) := by
        rw [sub_append_sub (by omega) (by omega), sub_append_sub (by omega) (by omega),
          sub_append_sub (by omega) (by omega), sub_zero]
        congr 1
        omega

/-- Settles O41: what `parseRecord_ok` says of the fields, put together. -/
theorem parsedRecordIsARecord : Obligations.ParsedRecordIsARecord := by
  unfold Obligations.ParsedRecordIsARecord
  intro s x h
  obtain ⟨hroom, -, -, -, -, -, hcrc⟩ := parseRecord_ok h
  exact ⟨parseRecord_tagOk h, parseRecord_payload_length h, hcrc.symm, serialize_of_parseRecord h,
    hroom, newRecord_of_valid (parseRecord_valid h)⟩

theorem be32At_congr {s s' : List Byte} {i : Nat}
    (h : ∀ j, i ≤ j → j < i + 4 → s[j]? = s'[j]?) : be32At s i = be32At s' i := by
  have byte (j : Nat) (h1 : i ≤ j) (h2 : j < i + 4) : s.getD j 0#8 = s'.getD j 0#8 := by
    rw [List.getD_eq_getElem?_getD, h j h1 h2, ← List.getD_eq_getElem?_getD]
  rw [be32At, be32At, byte i (by omega) (by omega), byte (i + 1) (by omega) (by omega),
    byte (i + 2) (by omega) (by omega), byte (i + 3) (by omega) (by omega)]

theorem be32At_take {i k : Nat} (h : i + 4 ≤ k) : be32At (s.take k) i = be32At s i :=
  be32At_congr fun _ _ hj => List.getElem?_take_of_lt (by omega)

/-- Settles O42: fewer than 12 bytes are too few, and 12 bytes hold the whole LENGTH field. -/
theorem properPrefixIsTruncated : Obligations.ProperPrefixIsTruncated := by
  unfold Obligations.ProperPrefixIsTruncated
  intro x k hx hk
  have hl := valid_length hx
  have hlen : be32At (serialize x) 0 = x.length := by
    simpa using (serialize_fields x [] hl).1
  rw [serialize_length] at hk
  apply parseRecord_truncated
  rw [List.length_take, serialize_length]
  by_cases h12 : k < 12
  · omega
  · rw [be32At_take (by omega), hlen]
    omega

end Sys2Proof.Proofs

/-! ## A changed byte (R179) -/

namespace Sys2Proof.Proofs

open Sys2Proof.Machine Sys2Proof.Laws

variable {s : List Byte} {x : Record} {a c i j k : Nat} {b : Byte}

/-! ### Parts of a string with one byte set -/

theorem sub_getElem? (h : a + j < c) : (sub s a c)[j]? = s[a + j]? := by
  rw [sub, List.getElem?_take_of_lt (by omega), List.getElem?_drop]

theorem sub_set_inside (h : a ≤ k) : sub (s.set k b) a c = (sub s a c).set (k - a) b := by
  rw [sub, sub, List.drop_set, if_neg (by omega), List.take_set]

theorem sub_set_outside (h : k < a ∨ c ≤ k) : sub (s.set k b) a c = sub s a c := by
  obtain hlt | hle := h
  · rw [sub, sub, List.drop_set, if_pos hlt]
  · by_cases hk : a ≤ k
    · rw [sub_set_inside hk, List.set_eq_of_length_le]
      simp only [sub, List.length_take]
      omega
    · rw [sub, sub, show c - a = 0 by omega, List.take_zero, List.take_zero]

theorem be32At_set_outside (h : k < i ∨ i + 4 ≤ k) : be32At (s.set k b) i = be32At s i :=
  be32At_congr fun _ _ _ => List.getElem?_set_ne (by omega)

theorem be32At_set_ne (room : i + 4 ≤ s.length) (h1 : i ≤ k) (h2 : k < i + 4)
    (hne : s[k]? ≠ some b) : be32At (s.set k b) i ≠ be32At s i := by
  intro h
  have bytes := congrArg be32Bytes h
  rw [be32Bytes_be32At (by rwa [List.length_set]), be32Bytes_be32At room] at bytes
  have byte := congrArg (·[k - i]?) bytes
  simp only [sub_getElem? (show i + (k - i) < i + 4 by omega), Nat.add_sub_cancel' h1,
    List.getElem?_set_self (show k < s.length by omega)] at byte
  exact hne byte.symm

theorem crc32_set_ne (hk : k < s.length) (hne : s[k]? ≠ some b) : crc32 (s.set k b) ≠ crc32 s := by
  rw [List.getElem?_eq_getElem hk] at hne
  have split : s = s.take k ++ s[k] :: s.drop (k + 1) := by simp
  rw [List.set_eq_take_append_cons_drop, if_pos hk]
  conv_rhs => rw [split]
  exact crc32_ne_of_byte_ne _ _ fun h => hne (congrArg some h.symm)

theorem tagOk_set (ht : tagOk s = true) (hb : isLetter b = true) (j : Nat) :
    tagOk (s.set j b) = true := by
  obtain ⟨hlen, letters⟩ := tagOk_iff.1 ht
  refine tagOk_iff.2 ⟨by rw [List.length_set, hlen], fun c hc => ?_⟩
  obtain hold | rfl := List.mem_or_eq_of_mem_set hc
  · exact letters c hold
  · exact hb

theorem tagOk_set_notLetter (hj : j < s.length) (hb : isLetter b = false) :
    tagOk (s.set j b) = false :=
  tagOk_eq_false_iff.2 fun ⟨_, letters⟩ =>
    Bool.eq_false_iff.1 hb (letters b (List.mem_set hj b))

/-! ### A string that parses, with one byte of its record set -/

section
variable (parsed : parseRecord s = .ok x)
include parsed

theorem checksum_of_parseRecord : crc32 (sub s 4 (8 + (be32At s 0).toNat)) =
    be32At s (8 + (be32At s 0).toNat) := by
  obtain ⟨-, hlen, hok, htag, hpay, hcrc, hsum⟩ := parseRecord_ok parsed
  rwa [htag, recordCrc_ofBytes hok, hpay, hcrc, sub_append_sub (by omega) (by omega), hlen] at hsum

/-- The checksum covers tag and payload, so a change on either side of it shows. -/
theorem checksum_set_ne (h4 : 4 ≤ k) (hk : k < 12 + x.length.toNat) (hne : s[k]? ≠ some b) :
    crc32 (sub (s.set k b) 4 (8 + x.length.toNat)) ≠ be32At (s.set k b) (8 + x.length.toNat) := by
  obtain ⟨room, hlen, -⟩ := parseRecord_ok parsed
  have checksum := checksum_of_parseRecord parsed
  rw [← hlen] at checksum
  by_cases hcov : k < 8 + x.length.toNat
  · rw [sub_set_inside h4, be32At_set_outside (.inl hcov), ← checksum]
    refine crc32_set_ne (by rw [sub_length (by omega)]; omega) ?_
    rwa [sub_getElem? (by omega), Nat.add_sub_cancel' h4]
  · rw [sub_set_outside (.inr (by omega)), checksum]
    exact (be32At_set_ne (by omega) (by omega) (by omega) hne).symm

theorem parseRecord_set_badCrc (h4 : 4 ≤ k) (hk : k < 12 + x.length.toNat)
    (hne : s[k]? ≠ some b) (letters : tagOk (sub (s.set k b) 4 8) = true) :
    parseRecord (s.set k b) = .error .crcMismatch := by
  obtain ⟨room, hlen, -⟩ := parseRecord_ok parsed
  have hlen' : be32At (s.set k b) 0 = x.length := by rw [be32At_set_outside (.inr h4), hlen]
  refine parseRecord_badCrc (by rwa [hlen', List.length_set]) letters ?_
  rw [hlen', sub_append_sub (by omega) (by omega)]
  exact checksum_set_ne parsed h4 hk hne

theorem parseRecord_set_notLetter (h4 : 4 ≤ k) (h8 : k < 8) (hb : isLetter b = false) :
    parseRecord (s.set k b) = .error .invalidTag := by
  obtain ⟨room, hlen, -⟩ := parseRecord_ok parsed
  refine parseRecord_notLetters ?_ ?_
  · rwa [be32At_set_outside (.inr h4), ← hlen, List.length_set]
  · rw [sub_set_inside h4]
    exact tagOk_set_notLetter (by rw [sub_length (by omega)]; omega) hb

end

/-- Settles O43: the record parses before the change; a change of LENGTH leaves the string as long as
it was. -/
theorem corruptionIsDetected : Obligations.CorruptionIsDetected := by
  unfold Obligations.CorruptionIsDetected
  intro x k b hx hk hne
  have parsed : parseRecord (serialize x) = .ok x := by simpa using parseRecord_serialize hx []
  obtain ⟨-, -, letters, -⟩ := parseRecord_ok parsed
  rw [serialize_length, ← valid_length hx] at hk
  refine ⟨fun h8 => ?_, fun h4 _ hb => ?_, fun h4 h8 hb => parseRecord_set_notLetter parsed h4 h8 hb,
    fun _ hmore => parseRecord_truncated ?_⟩
  · refine parseRecord_set_badCrc parsed (by omega) hk hne ?_
    rwa [sub_set_outside (.inr h8)]
  · refine parseRecord_set_badCrc parsed h4 hk hne ?_
    rw [sub_set_inside h4]
    exact tagOk_set letters hb _
  · rw [List.length_set, serialize_length, ← valid_length hx]
    omega

end Sys2Proof.Proofs

/-! ## FRM.PARSE (R172) -/

namespace Sys2Proof.Proofs

open Sys2Proof.Machine Sys2Proof.Laws

variable {s : State} {x : Record}

theorem exec_frmParse_error {k : ErrKind} (window : srcOk s = true)
    (failed : parseRecord (slice s) = .error k) :
    exec .frmParse s = .next { s with err := k.code, errOff := s.rcur } :=
  (frmParse_bad window failed).trans (congrArg _ (raiseError_at_register k s.rcur s))

/-- The state after a successful FRM.PARSE, with REC_PAY and RCUR as given. -/
def parsedState (s : State) (x : Record) (pay cur : Word) : State :=
  { s with
    recLen := x.length, recTag := x.tag.toWord, recPay := pay, recCrc := x.crc,
    tagFlags := x.tag.flags, rcur := cur, err := 0#32, errOff := 0#32 }

/-- The record lies inside the source window, so neither sum wraps. -/
theorem exec_frmParse_parsed (window : srcOk s = true) (parsed : parseRecord (slice s) = .ok x) :
    ∃ pay cur : Word,
      pay.toNat = s.srcAddr.toNat + s.rcur.toNat + 8 ∧
      cur.toNat = s.rcur.toNat + 12 + x.length.toNat ∧
      exec .frmParse s = .next (parsedState s x pay cur) := by
  obtain ⟨hroom, -⟩ := parseRecord_ok parsed
  rw [slice_length] at hroom
  obtain ⟨hcur, hle⟩ := rcur_advance window hroom
  rw [← Nat.add_assoc] at hcur hle
  obtain ⟨-, hmem⟩ := (srcOk_iff s).1 window
  have hbytes := memBytes_le s
  exact ⟨_, _, Nat.mod_eq_of_lt (by simp only [sliceBase]; omega), hcur, frmParse_good window parsed⟩

/-- The record `TEST` with the payload `hello`, of the example of R172. -/
def recordTestHello : Record where
  length := 5#32
  tag := ⟨0x54#8, 0x45#8, 0x53#8, 0x54#8⟩
  payload := [0x68#8, 0x65#8, 0x6C#8, 0x6C#8, 0x6F#8]
  crc := 0xDDDA200D#32

theorem recordTestHello_valid : recordTestHello.valid = true := by decide +kernel

/-- Settles O44: the outcomes of `Laws/Forward.lean`; the string of the example is the serialised form
of a record, so it parses to that record. -/
theorem frmParseResult : Obligations.FrmParseResult := by
  unfold Obligations.FrmParseResult
  refine ⟨rfl, fun s bad => frmParse_bad_source bad, fun s window => ⟨exec_frmParse_error window,
    exec_frmParse_error window, exec_frmParse_error window,
    fun x => exec_frmParse_parsed window⟩, fun s window haddr hlen hcur h => ?_⟩
  have parsed : parseRecord (slice s) = .ok recordTestHello := by
    rw [h]
    exact parseRecord_serialize recordTestHello_valid []
  obtain ⟨pay, cur, hpay, hcur', hrun⟩ := exec_frmParse_parsed window parsed
  obtain rfl : pay = 0x108#32 := BitVec.eq_of_toNat_eq (by rw [hpay, haddr, hcur]; rfl)
  obtain rfl : cur = 17#32 := BitVec.eq_of_toNat_eq (by rw [hcur', hcur]; rfl)
  have atEnd : eos (parsedState s recordTestHello 0x108#32 17#32) = true := (eos_iff _).2 hlen.symm
  refine ⟨_, hrun, rfl, ?_⟩
  calc statusWord (parsedState s recordTestHello 0x108#32 17#32)
      = BitVec.ofNat 32 (2 * false.toNat + 4 * true.toNat) := by rw [statusWord, atEnd]; rfl
    _ = 4#32 := rfl

end Sys2Proof.Proofs

/-! # Building a record (`43_frame_build.md`)

## FRM.BUILD (R191) -/

namespace Sys2Proof.Proofs

open Sys2Proof.Machine Sys2Proof.Laws

variable {s t : State}

/-- The record that FRM.BUILD makes of TAG and the remaining slice. -/
def builtRecord (s : State) : Record := newRecord (Tag.ofBytes (be32Bytes s.tag)) (slice s)

theorem builtRecord_length (s : State) : (builtRecord s).length = BitVec.ofNat 32 (avail s) := by
  rw [builtRecord, newRecord, slice_length]

theorem builtRecord_length_toNat (s : State) : (builtRecord s).length.toNat = avail s := by
  rw [builtRecord_length, avail_toNat]

theorem serialize_builtRecord_length (s : State) :
    (serialize (builtRecord s)).length = 12 + avail s := by
  rw [serialize_length, builtRecord, newRecord, slice_length]

theorem builtRecord_valid (letters : tagOk (be32Bytes s.tag) = true) :
    (builtRecord s).valid = true :=
  newRecord_valid (by rwa [bytes_ofBytes (be32Bytes_length _)]) (by simpa using avail_lt s)

/-- The state after a successful FRM.BUILD, with REC_PAY and WCUR as given. -/
def builtState (s : State) (pay cur : Word) : State :=
  { s with
    mem := memWrite s.mem (writeBase s) (serialize (builtRecord s)),
    recLen := (builtRecord s).length, recTag := s.tag, recPay := pay, recCrc := (builtRecord s).crc,
    tagFlags := (builtRecord s).tag.flags, wcur := cur, err := 0#32, errOff := 0#32 }

/-- The record lies inside the destination window, so neither sum wraps. -/
theorem exec_frmBuild_built (window : srcOk s = true) (letters : tagOk (be32Bytes s.tag) = true)
    (room : dstOk s (12 + avail s) = true)
    (apart : rangesMeet (sliceBase s) (avail s) (writeBase s) (12 + avail s) = false) :
    ∃ pay cur : Word,
      pay.toNat = writeBase s + 8 ∧
      cur.toNat = s.wcur.toNat + 12 + avail s ∧
      exec .frmBuild s = .next (builtState s pay cur) := by
  obtain ⟨hdst, hcap⟩ := (dstOk_iff s _).1 room
  obtain ⟨hcur, -⟩ := wcur_advance room
  rw [← Nat.add_assoc] at hcur
  have hbytes := memBytes_le s
  have hpay : (BitVec.ofNat 32 (writeBase s + 8)).toNat = writeBase s + 8 :=
    Nat.mod_eq_of_lt (by simp only [writeBase]; omega)
  refine ⟨_, _, hpay, hcur, ?_⟩
  rw [builtState, builtRecord_length]
  exact frmBuild_good window letters room apart

theorem frmBuild_success (h : exec .frmBuild s = .next t) (ok : t.err = 0#32) :
    tagOk (be32Bytes s.tag) = true ∧ ∃ pay cur : Word,
      pay.toNat = writeBase s + 8 ∧
      cur.toNat = s.wcur.toNat + 12 + avail s ∧
      t = builtState s pay cur := by
  obtain ⟨s', hs, rfl⟩ := exec_succeeds h ok
  cases hs with
  | frmBuild window letters room apart =>
    obtain ⟨pay, cur, hpay, hcur, hrun⟩ := exec_frmBuild_built window letters room apart
    exact ⟨letters, pay, cur, hpay, hcur, Host.Outcome.next.inj (h.symm.trans hrun)⟩

theorem rangesMeet_eq_false {a n b m : Nat} (h : n = 0 ∨ b + m ≤ a ∨ a + n ≤ b) :
    rangesMeet a n b m = false :=
  Bool.eq_false_iff.2 fun hmeet => by
    obtain ⟨hn, -, hab, hba⟩ := (rangesMeet_iff a n b m).1 hmeet
    omega

theorem exec_frmBuild_overlap (window : srcOk s = true) (letters : tagOk (be32Bytes s.tag) = true)
    (payload : 0 < avail s) (hab : sliceBase s < writeBase s + 12 + avail s)
    (hba : writeBase s < sliceBase s + avail s) :
    exec .frmBuild s = .next { s with err := 7#32, errOff := 0#32 } :=
  frmBuild_bad_windows window letters
    (.inr ((rangesMeet_iff _ _ _ _).2 ⟨payload, by omega, by omega, hba⟩))

theorem builtRecord_of_hello (htag : s.tag = 0x54455354#32)
    (h : slice s = [0x68#8, 0x65#8, 0x6C#8, 0x6C#8, 0x6F#8]) : builtRecord s = recordTestHello := by
  rw [builtRecord, htag, h]
  exact newRecord_of_valid recordTestHello_valid

theorem serialize_recordTestHello : serialize recordTestHello =
    [0x00#8, 0x00#8, 0x00#8, 0x05#8, 0x54#8, 0x45#8, 0x53#8, 0x54#8, 0x68#8, 0x65#8, 0x6C#8, 0x6C#8,
      0x6F#8, 0xDD#8, 0xDA#8, 0x20#8, 0x0D#8] := by decide

theorem recordTestHello_flags : recordTestHello.tag.flags = 0x80000037#32 := by decide

/-- Settles O46: the failing outcomes of `Laws/Forward.lean`, the successful one by
`exec_frmBuild_built`; the record of the example is that of the example of FRM.PARSE. -/
theorem frmBuildResult : Obligations.FrmBuildResult := by
  unfold Obligations.FrmBuildResult
  refine ⟨rfl, fun s bad => frmBuild_bad_source bad, fun s => frmBuild_bad_tag,
    fun s window letters bad => frmBuild_bad_windows window letters (.inl bad),
    fun s window letters _ => exec_frmBuild_overlap window letters,
    fun s window letters room hapart => ?_,
    fun s window htag hwf h haddr hcap hcur hbytes hmeet => ?_⟩
  · have apart : rangesMeet (sliceBase s) (avail s) (writeBase s) (12 + avail s) = false :=
      rangesMeet_eq_false (by omega)
    obtain ⟨pay, cur, hpay, hcur, hrun⟩ := exec_frmBuild_built window letters room apart
    exact ⟨(builtRecord s).length, pay, cur, builtRecord_length_toNat s, hpay, hcur, hrun⟩
  · have havail : avail s = 5 := by rw [← slice_length, h]; rfl
    have hbase : writeBase s = 0x200 := by rw [writeBase, haddr, hcur]; rfl
    have letters : tagOk (be32Bytes s.tag) = true := by rw [htag]; decide
    have room : dstOk s (12 + avail s) = true := by
      rw [dstOk_iff, haddr, hcap, hcur, havail]
      exact ⟨hbytes, by decide⟩
    obtain ⟨pay, cur, hpay, hcur', hrun⟩ :=
      exec_frmBuild_built window letters room (by rwa [havail, hbase])
    obtain rfl : pay = 0x208#32 := BitVec.eq_of_toNat_eq (by rw [hpay, hbase]; rfl)
    obtain rfl : cur = 17#32 := BitVec.eq_of_toNat_eq (by rw [hcur', hcur, havail]; rfl)
    refine ⟨_, hrun, ?_⟩
    rw [builtState, builtRecord_of_hello htag h, hbase, serialize_recordTestHello]
    exact ⟨memRead_memWrite 0x200 _ hwf, rfl, htag, rfl, rfl, recordTestHello_flags, rfl⟩

end Sys2Proof.Proofs

/-! ## What the storing commands leave in MEM (R192, R197; `44_stream.md` R208) -/

namespace Sys2Proof.Proofs

open Sys2Proof.Machine Sys2Proof.Laws

variable {s t : State} {bs : List Byte}

/-- From `s` to `t` the string `bs` has been stored at the write cursor, which has moved past it
(`20_memory.md` R77). -/
structure StoredAtCursor (bs : List Byte) (s t : State) : Prop where
  mem : t.mem = memWrite s.mem (writeBase s) bs
  dstAddr : t.dstAddr = s.dstAddr
  wcur : t.wcur.toNat = s.wcur.toNat + bs.length

theorem sigPut_stores (h : exec .sigPut s = .next t) (ok : t.err = 0#32) :
    StoredAtCursor sig s t := by
  obtain ⟨hcur, -⟩ := sigPut_wcur h ok
  obtain ⟨s', hs, rfl⟩ := exec_succeeds h ok
  cases hs with
  | sigPut => exact ⟨rfl, rfl, hcur⟩

theorem frmBuild_stores (h : exec .frmBuild s = .next t) (ok : t.err = 0#32) :
    StoredAtCursor (serialize (builtRecord s)) s t := by
  obtain ⟨-, pay, cur, -, hcur, rfl⟩ := frmBuild_success h ok
  exact ⟨rfl, rfl, by rw [serialize_builtRecord_length, ← Nat.add_assoc]; exact hcur⟩

section
variable (hst : StoredAtCursor bs s t) (hwf : s.mem.wf = true)
include hst hwf

theorem memRead_stored : memRead t.mem (writeBase s) bs.length = bs := by
  rw [hst.mem, memRead_memWrite _ _ hwf]

theorem load_outside_stored {a : Nat} (ha : a < writeBase s ∨ writeBase s + bs.length ≤ a) :
    t.mem.load a = s.mem.load a := by
  rw [hst.mem, load_memWrite_outside hwf ha]

/-- What stands before the write cursor ends where the string is stored. -/
theorem memRead_window_stored : memRead t.mem t.dstAddr.toNat t.wcur.toNat =
    memRead s.mem s.dstAddr.toNat s.wcur.toNat ++ bs := by
  have before : memRead t.mem s.dstAddr.toNat s.wcur.toNat =
      memRead s.mem s.dstAddr.toNat s.wcur.toNat := by
    rw [hst.mem, memRead_memWrite_outside hwf (.inl (Nat.le_refl (writeBase s)))]
  calc memRead t.mem t.dstAddr.toNat t.wcur.toNat
      = memRead t.mem s.dstAddr.toNat s.wcur.toNat ++ memRead t.mem (writeBase s) bs.length := by
        rw [hst.dstAddr, hst.wcur, memRead_add]; rfl
    _ = memRead s.mem s.dstAddr.toNat s.wcur.toNat ++ bs := by rw [before, memRead_stored hst hwf]

end

/-- Settles O47: both commands store at the write cursor. -/
theorem storedBytesAndFrame : Obligations.StoredBytesAndFrame := by
  unfold Obligations.StoredBytesAndFrame
  refine ⟨fun s t hwf h ok => ?_, fun s t hwf h ok => ?_⟩
  · have hst := frmBuild_stores h ok
    have hlen := serialize_builtRecord_length s
    rw [← hlen, Nat.add_assoc, ← hlen]
    exact ⟨memRead_stored hst hwf, fun a => load_outside_stored hst hwf⟩
  · have hst := sigPut_stores h ok
    exact ⟨memRead_stored hst hwf, fun a => load_outside_stored hst hwf⟩

/-- Settles O49: both commands store at the write cursor, right after what stands before it. -/
theorem buildsConcatenate : Obligations.BuildsConcatenate := by
  unfold Obligations.BuildsConcatenate
  rintro s t _ hwf rfl ok
  exact ⟨fun h => memRead_window_stored (sigPut_stores h ok) hwf,
    fun h => memRead_window_stored (frmBuild_stores h ok) hwf⟩

end Sys2Proof.Proofs

/-! ## A built record is parsed back (R195) -/

namespace Sys2Proof.Proofs

open Sys2Proof.Machine Sys2Proof.Laws

variable {m : Memory} {s t u : State} {x : Record} {addr n : Nat}

/-- The payload of a serialised record in MEM lies at its byte 8. -/
theorem memRead_payload (hl : x.length.toNat = x.payload.length)
    (h : memRead m addr (12 + x.length.toNat) = serialize x) :
    memRead m (addr + 8) x.length.toNat = x.payload := by
  obtain ⟨-, -, hpay, -⟩ := serialize_fields x [] hl
  rwa [List.append_nil, ← h, sub_memRead (by omega), Nat.add_sub_cancel_left] at hpay

/-- A range of MEM that begins with a serialised record parses to it, whatever follows. -/
theorem parseRecord_memRead (hx : x.valid = true)
    (h : memRead m addr (12 + x.length.toNat) = serialize x) (hn : 12 + x.length.toNat ≤ n) :
    parseRecord (memRead m addr n) = .ok x := by
  obtain ⟨k, rfl⟩ := Nat.exists_eq_add_of_le hn
  rw [memRead_add, h]
  exact parseRecord_serialize hx _

/-- FRM.PARSE of a slice that begins with a serialised record. -/
theorem exec_frmParse_serialized (hx : x.valid = true) (window : srcOk u = true)
    (h : memRead u.mem (sliceBase u) (12 + x.length.toNat) = serialize x)
    (hn : 12 + x.length.toNat ≤ avail u) :
    ∃ pay cur : Word, exec .frmParse u = .next (parsedState u x pay cur) := by
  obtain ⟨pay, cur, -, -, hrun⟩ := exec_frmParse_parsed window (parseRecord_memRead hx h hn)
  exact ⟨pay, cur, hrun⟩

/-- Settles O48: the serialised record stands at the write address, so its payload stands at
REC_PAY, and a FRM.PARSE of it finds the same record. -/
theorem builtRecordParsesBack : Obligations.BuiltRecordParsesBack := by
  unfold Obligations.BuiltRecordParsesBack
  intro s t hwf h ok
  have stored := memRead_stored (frmBuild_stores h ok) hwf
  rw [serialize_builtRecord_length, ← builtRecord_length_toNat] at stored
  obtain ⟨letters, pay, cur, hpay, -, rfl⟩ := frmBuild_success h ok
  have valid := builtRecord_valid letters
  have hbase : pay.toNat - 8 = writeBase s := by rw [hpay, Nat.add_sub_cancel]
  refine ⟨builtRecord_length_toNat s, rfl, letters, recordCrc_ofBytes letters _, ?_, ?_,
    fun u hmem window hslice hroom => ?_⟩
  · show memRead _ pay.toNat _ = _
    rw [hpay]
    exact memRead_payload (valid_length valid) stored
  · show memRead _ (pay.toNat - 8) _ = _
    rw [hbase]
    exact stored
  · obtain ⟨pay', cur', hrun⟩ := exec_frmParse_serialized valid window
      (by rw [hmem, hslice]; exact hbase ▸ stored) hroom
    exact ⟨_, hrun, rfl, rfl, toWord_ofBytes_be32Bytes s.tag, rfl, rfl⟩

end Sys2Proof.Proofs

/-! # Streams (`44_stream.md`)

## The loop of parse_stream (R209) -/

namespace Sys2Proof.Proofs

open Sys2Proof.Machine Sys2Proof.Laws

variable {s z : List Byte} {cur n : Nat} {k : ErrKind} {x : Record} {xs : List Record}
  {r : Except Failure (List Record)}

/-- A record found at an offset ends inside the string. -/
theorem record_end_le (parsed : parseRecord (s.drop cur) = .ok x) :
    cur + 12 + x.length.toNat ≤ s.length := by
  have room := (parseRecord_ok parsed).1
  rw [List.length_drop] at room
  omega

theorem parseRecords_at_end (n : Nat) (h : s.length ≤ cur) : parseRecords n s cur = .ok [] := by
  cases n with
  | zero => rfl
  | succ n => rw [parseRecords, if_neg (by omega)]

theorem parseRecords_failed (enough : s.length ≤ cur + 12 * n) (hlt : cur < s.length)
    (failed : parseRecord (s.drop cur) = .error k) : parseRecords n s cur = .error ⟨k, cur⟩ := by
  cases n with
  | zero => omega
  | succ n => simp only [parseRecords, if_pos hlt, failed]

theorem parseRecords_succ (parsed : parseRecord (s.drop cur) = .ok x) :
    parseRecords (n + 1) s cur =
      (parseRecords n s (cur + 12 + x.length.toNat)).map fun xs => x :: xs := by
  have hlt : cur < s.length := by have := record_end_le parsed; omega
  simp only [parseRecords, if_pos hlt, parsed]
  cases parseRecords n s (cur + 12 + x.length.toNat) <;> rfl

/-- Each turn takes 12 bytes, so once there are turns enough one more changes nothing. -/
theorem parseRecords_more_turns (enough : s.length ≤ cur + 12 * n) :
    parseRecords (n + 1) s cur = parseRecords n s cur := by
  induction n generalizing cur with
  | zero => exact parseRecords_at_end 1 enough
  | succ n ih =>
    by_cases hlt : cur < s.length
    · cases hp : parseRecord (s.drop cur) with
      | error k => rw [parseRecords_failed (by omega) hlt hp, parseRecords_failed enough hlt hp]
      | ok x => rw [parseRecords_succ hp, parseRecords_succ hp, ih (by omega)]
    · rw [parseRecords_at_end _ (by omega), parseRecords_at_end _ (by omega)]

theorem parseRecords_turn (enough : s.length ≤ cur + 12 * n)
    (parsed : parseRecord (s.drop cur) = .ok x) :
    parseRecords n s cur =
      (parseRecords n s (cur + 12 + x.length.toNat)).map fun xs => x :: xs := by
  rw [← parseRecords_more_turns enough, parseRecords_succ parsed]

/-- The loop of R209 from an offset to its answer, with no turn limit. -/
inductive StreamLoop (s : List Byte) : Nat → Except Failure (List Record) → Prop where
  | ends : StreamLoop s s.length (.ok [])
  | fails {cur : Nat} {k : ErrKind} (more : cur < s.length)
      (failed : parseRecord (s.drop cur) = .error k) : StreamLoop s cur (.error ⟨k, cur⟩)
  | turn {cur : Nat} {x : Record} {r : Except Failure (List Record)}
      (parsed : parseRecord (s.drop cur) = .ok x)
      (rest : StreamLoop s (cur + 12 + x.length.toNat) r) :
      StreamLoop s cur (r.map fun xs => x :: xs)

/-- With turns enough, `parseRecords` answers what the loop answers. -/
theorem streamLoop_parseRecords (hcur : cur ≤ s.length) (enough : s.length ≤ cur + 12 * n) :
    StreamLoop s cur (parseRecords n s cur) := by
  induction n generalizing cur with
  | zero =>
    obtain rfl : cur = s.length := by omega
    exact .ends
  | succ n ih =>
    obtain rfl | hlt := Nat.eq_or_lt_of_le hcur
    · rw [parseRecords_at_end _ (Nat.le_refl _)]
      exact .ends
    · cases hp : parseRecord (s.drop cur) with
      | error k =>
        rw [parseRecords_failed enough hlt hp]
        exact .fails hlt hp
      | ok x =>
        rw [parseRecords_succ hp]
        exact .turn hp (ih (record_end_le hp) (by omega))

theorem sigOk_iff : sigOk s = true ↔ 8 ≤ s.length ∧ s.take 8 = sig := by simp [sigOk]

theorem parseStream_signed (signed : sigOk s = true) :
    parseStream s = parseRecords s.length s 8 := if_pos signed

theorem parseStream_unsigned (unsigned : sigOk s = false) :
    parseStream s = .error ⟨.badSignature, 0⟩ := if_neg (Bool.eq_false_iff.1 unsigned)

theorem streamLoop_parseStream (signed : sigOk s = true) : StreamLoop s 8 (parseStream s) := by
  rw [parseStream_signed signed]
  exact streamLoop_parseRecords (sigOk_length signed) (by omega)

end Sys2Proof.Proofs

/-! ## Streams and their serialised form (R214, R216) -/

namespace Sys2Proof.Proofs

open Sys2Proof.Machine Sys2Proof.Laws

variable {s z : List Byte} {cur n : Nat} {k : ErrKind} {x y : Record} {xs : List Record}
  {r : Except Failure (List Record)}

theorem serializeStream_append (xs ys : List Record) :
    serializeStream (xs ++ ys) = serializeStream xs ++ ys.flatMap serialize := by
  rw [serializeStream, serializeStream, List.flatMap_append, List.append_assoc]

theorem serializeStream_concat (xs : List Record) (y : Record) :
    serializeStream (xs ++ [y]) = serializeStream xs ++ serialize y := by
  rw [serializeStream_append, List.flatMap_singleton]

theorem sigOk_serializeStream (xs : List Record) (z : List Byte) :
    sigOk (serializeStream xs ++ z) = true := by
  rw [sigOk_iff, serializeStream, List.append_assoc]
  exact ⟨by rw [List.length_append, sig_length]; omega, List.take_left' sig_length⟩

/-- Every serialised record has 12 bytes or more (`44_stream.md` R211). -/
theorem serializeStream_length_ge (xs : List Record) :
    8 + 12 * xs.length ≤ (serializeStream xs).length := by
  induction xs using List.reverseRecOn with
  | nil => exact Nat.le_refl 8
  | append_singleton xs y ih =>
    simp only [serializeStream_concat, List.length_append, serialize_length, List.length_singleton]
    omega

/-- What the loop has parsed is what stands there, serialised. -/
theorem StreamLoop.drop_eq (loop : StreamLoop s cur r) (success : r = .ok xs) :
    s.drop cur = xs.flatMap serialize := by
  induction loop generalizing xs with
  | ends => cases success; exact List.drop_length
  | fails => cases success
  | @turn cur x r parsed rest ih =>
    cases r with
    | error f => cases success
    | ok ys =>
      cases success
      rw [List.flatMap_cons, ← ih rfl, serialize_of_parseRecord parsed, Nat.add_assoc,
        ← List.drop_drop, List.take_append_drop]

theorem serializeStream_of_parseStream (h : parseStream s = .ok xs) : serializeStream xs = s := by
  cases signed : sigOk s with
  | false => rw [parseStream_unsigned signed] at h; cases h
  | true =>
    rw [serializeStream, ← (streamLoop_parseStream signed).drop_eq h, ← (sigOk_iff.1 signed).2,
      List.take_append_drop]

/-- The loop takes the records of a stream one by one, whatever follows them. -/
theorem parseRecords_serializeStream (valid : ∀ x ∈ xs, x.valid = true)
    (enough : (serializeStream xs ++ z).length ≤ 8 + 12 * n) :
    parseRecords n (serializeStream xs ++ z) 8 =
      (parseRecords n (serializeStream xs ++ z) (serializeStream xs).length).map (xs ++ ·) := by
  induction xs using List.reverseRecOn generalizing z with
  | nil => exact (congrFun Except.map_id _).symm
  | append_singleton xs y ih =>
    rw [serializeStream_concat, List.append_assoc] at enough ⊢
    have hy : y.valid = true := valid y (by simp)
    have parsed : parseRecord ((serializeStream xs ++ (serialize y ++ z)).drop
        (serializeStream xs).length) = .ok y := by
      rw [List.drop_left]
      exact parseRecord_serialize hy z
    have room := serializeStream_length_ge xs
    rw [ih (fun x hx => valid x (by simp [hx])) enough, parseRecords_turn (by omega) parsed,
      List.length_append, serialize_length, valid_length hy, Nat.add_assoc]
    cases parseRecords n (serializeStream xs ++ (serialize y ++ z))
      ((serializeStream xs).length + (12 + y.payload.length)) <;> simp [Except.map]

theorem parseStream_serializeStream_append (valid : ∀ x ∈ xs, x.valid = true) (z : List Byte) :
    parseStream (serializeStream xs ++ z) =
      (parseRecords (serializeStream xs ++ z).length (serializeStream xs ++ z)
        (serializeStream xs).length).map (xs ++ ·) := by
  rw [parseStream_signed (sigOk_serializeStream xs z)]
  exact parseRecords_serializeStream valid (by omega)

theorem parseStream_serializeStream (valid : ∀ x ∈ xs, x.valid = true) :
    parseStream (serializeStream xs) = .ok xs := by
  have h := parseStream_serializeStream_append valid []
  rw [List.append_nil, parseRecords_at_end _ (Nat.le_refl _)] at h
  simpa [Except.map] using h

/-- Settles O53: a parsed stream is read back off the turns of the loop, and the loop takes
serialised records one by one. -/
theorem streamRoundTrip : Obligations.StreamRoundTrip := by
  unfold Obligations.StreamRoundTrip
  exact ⟨fun s chunks => serializeStream_of_parseStream, fun chunks => parseStream_serializeStream⟩

theorem parseStream_count_le (h : parseStream s = .ok xs) : xs.length ≤ (s.length - 8) / 12 := by
  have room := serializeStream_length_ge xs
  rw [serializeStream_of_parseStream h] at room
  omega

/-- Settles O52: the test of the signature, the loop's equations, and the length of a stream of that
many records. -/
theorem parseStreamLoop : Obligations.ParseStreamLoop := by
  unfold Obligations.ParseStreamLoop
  refine ⟨fun s h => parseStream_unsigned (Bool.eq_false_iff.2 (mt sigOk_iff.1 h)),
    fun s h8 h => parseStream_signed (sigOk_iff.2 ⟨h8, h⟩),
    fun s cur n hcur enough => ⟨fun h => parseRecords_at_end n h.ge,
      fun hlt k => parseRecords_failed enough hlt,
      fun _ x parsed => ⟨record_end_le parsed, parseRecords_turn enough parsed⟩⟩,
    fun s chunks => parseStream_count_le⟩

theorem parseStream_trailing_error (valid : ∀ x ∈ xs, x.valid = true) (hz : z ≠ [])
    (failed : parseRecord z = .error k) :
    parseStream (serializeStream xs ++ z) = .error ⟨k, (serializeStream xs).length⟩ := by
  have hlen := List.length_pos_of_ne_nil hz
  rw [parseStream_serializeStream_append valid, parseRecords_failed (by omega)
    (by rw [List.length_append]; omega) (by rwa [List.drop_left])]
  rfl

/-- Settles O54: what follows the records is what the loop parses next; up to 11 bytes are too
few. -/
theorem trailingBytesAreAnError : Obligations.TrailingBytesAreAnError := by
  unfold Obligations.TrailingBytesAreAnError
  intro chunks z valid hz
  refine ⟨fun hlen => parseStream_trailing_error valid hz (parseRecord_truncated (by omega)),
    fun k => parseStream_trailing_error valid hz, fun y parsed => ?_⟩
  rw [serializeStream_concat, serialize_of_parseRecord parsed, List.append_assoc,
    List.take_append_drop]

end Sys2Proof.Proofs

/-! ## SIG.CHK, SIG.PUT, STR.SCAN and NOP (R207, R208, R210, R220) -/

namespace Sys2Proof.Proofs

open Sys2Proof.Machine Sys2Proof.Laws

variable {s t : State} {chunks : List Record} {f : Failure}

theorem sigOk_slice_eq_false (h : (slice s).take 8 ≠ sig) : sigOk (slice s) = false :=
  Bool.eq_false_iff.2 fun signed => h (sigOk_iff.1 signed).2

theorem sigOk_slice_of_short (h : avail s < 8) : sigOk (slice s) = false :=
  Bool.eq_false_iff.2 fun signed => by
    have hlen := sigOk_length signed
    rw [slice_length] at hlen
    omega

theorem sigOk_slice (h : (slice s).take 8 = sig) : sigOk (slice s) = true := by
  have hlen := congrArg List.length h
  rw [List.length_take, sig_length] at hlen
  exact sigOk_iff.2 ⟨by omega, h⟩

theorem exec_sigChk_unsigned (window : srcOk s = true) (unsigned : sigOk (slice s) = false) :
    exec .sigChk s = .next { s with err := 4#32, errOff := s.rcur } :=
  (sigChk_bad window unsigned).trans (congrArg _ (raiseError_at_register .badSignature s.rcur s))

/-- The signature lies inside the source window, so the sum does not wrap. -/
theorem exec_sigChk_signed (window : srcOk s = true) (signed : sigOk (slice s) = true) :
    ∃ cur : Word, cur.toNat = s.rcur.toNat + 8 ∧
      exec .sigChk s = .next { s with rcur := cur, err := 0#32, errOff := 0#32 } := by
  have hlen : 8 ≤ avail s := by simpa using sigOk_length signed
  exact ⟨_, (rcur_advance window hlen).1, sigChk_good window signed⟩

/-- Settles O50: the outcomes of SIG.CHK; a slice as long as the signature ends where it ends. -/
theorem sigChkResult : Obligations.SigChkResult := by
  unfold Obligations.SigChkResult
  refine ⟨rfl, fun s bad => sigChk_bad_source bad,
    fun s window h => exec_sigChk_unsigned window (sigOk_slice_eq_false h),
    fun s window h => exec_sigChk_unsigned window (sigOk_slice_of_short h),
    fun s window h => exec_sigChk_signed window (sigOk_slice h), fun s window h => ?_, rfl⟩
  obtain ⟨cur, hcur, hrun⟩ := exec_sigChk_signed window (by rw [h]; rfl)
  have hlen : avail s = 8 := by rw [← slice_length, h, sig_length]
  refine ⟨_, hrun, rfl, (eos_iff _).2 (BitVec.eq_of_toNat_eq ?_)⟩
  show cur.toNat = s.srcLen.toNat
  simp only [avail] at hlen
  omega

/-- The state after a successful SIG.PUT, with WCUR as given. -/
def signedState (s : State) (cur : Word) : State :=
  { s with mem := memWrite s.mem (writeBase s) sig, wcur := cur, err := 0#32, errOff := 0#32 }

/-- The signature lies inside the destination window, so the sum does not wrap. -/
theorem exec_sigPut_room (room : dstOk s 8 = true) :
    ∃ cur : Word, cur.toNat = s.wcur.toNat + 8 ∧ exec .sigPut s = .next (signedState s cur) :=
  ⟨_, (wcur_advance room).1, sigPut_good room⟩

/-- Settles O51: the two outcomes of SIG.PUT; the example has room, and its bytes are read back. -/
theorem sigPutResult : Obligations.SigPutResult := by
  unfold Obligations.SigPutResult
  refine ⟨rfl, fun s bad => sigPut_bad bad, fun s room => exec_sigPut_room room,
    fun s hwf haddr hcap hcur hbytes => ?_⟩
  have room : dstOk s 8 = true := by
    rw [dstOk_iff, haddr, hcap, hcur]
    exact ⟨hbytes, by decide⟩
  have hbase : writeBase s = 0x200 := by rw [writeBase, haddr, hcur]; rfl
  obtain ⟨cur, hcur', hrun⟩ := exec_sigPut_room room
  refine ⟨_, hrun, ?_, BitVec.eq_of_toNat_eq ?_⟩
  · rw [signedState, hbase]
    exact memRead_memWrite 0x200 sig hwf
  · rw [signedState, hcur', hcur]
    rfl

/-- Where the stream fails is inside the source window, so the sum does not wrap. -/
theorem exec_strScan_error (window : srcOk s = true) (failed : parseStream (slice s) = .error f) :
    ∃ off : Word, off.toNat = s.rcur.toNat + f.off ∧
      exec .strScan s = .next { s with err := f.kind.code, errOff := off } := by
  have hoff : f.off ≤ avail s := by
    obtain ⟨-, hzero, -⟩ | ⟨-, -, hlt⟩ := parseStream_error failed
    · omega
    · rw [slice_length] at hlt
      omega
  exact ⟨_, (rcur_advance window hoff).1, strScan_bad window failed⟩

/-- A record takes 12 bytes or more, so the count does not overflow. -/
theorem exec_strScan_parsed (window : srcOk s = true)
    (parsed : parseStream (slice s) = .ok chunks) :
    ∃ n : Word, n.toNat = chunks.length ∧ chunks.length ≤ (2 ^ 32 - 9) / 12 ∧
      exec .strScan s = .next { s with
        count := n, rcur := s.srcLen, err := 0#32, errOff := 0#32 } := by
  have hcount := parseStream_count_le parsed
  rw [slice_length] at hcount
  have hlt := avail_lt s
  exact ⟨_, Nat.mod_eq_of_lt (by omega), by omega, strScan_good window parsed⟩

theorem exec_strScan_serialized (window : srcOk s = true) (valid : ∀ x ∈ chunks, x.valid = true)
    (h : slice s = serializeStream chunks) :
    exec .strScan s = .next { s with
      count := BitVec.ofNat 32 chunks.length, rcur := s.srcLen, err := 0#32, errOff := 0#32 } :=
  strScan_good window (by rw [h, parseStream_serializeStream valid])

theorem recordWithoutResidue_valid : recordWithoutResidue.valid = true :=
  newRecord_valid (by decide) (by decide)

theorem serialize_recordWithoutResidue : serialize recordWithoutResidue =
    [0x00#8, 0x00#8, 0x00#8, 0x00#8, 0x49#8, 0x45#8, 0x4E#8, 0x44#8, 0xAE#8, 0x42#8, 0x60#8,
      0x82#8] := by decide +kernel

/-- Settles O55: the outcomes of STR.SCAN; the slices of the corner case and of the example are
serialised streams of no record and of the record `IEND`. -/
theorem strScanResult : Obligations.StrScanResult := by
  unfold Obligations.StrScanResult
  refine ⟨rfl, fun s bad => strScan_bad_source bad, fun s f => exec_strScan_error,
    fun s chunks => exec_strScan_parsed,
    fun s window h => exec_strScan_serialized (chunks := []) window (by simp) h,
    fun s window h => ?_, fun s window h => ?_⟩
  · exact (strScan_bad window (f := ⟨.badSignature, 0⟩) (by rw [h]; rfl)).trans
      (congrArg _ (raiseError_at_register .badSignature s.rcur s))
  · refine exec_strScan_serialized (chunks := [recordWithoutResidue]) window
      (by simpa using recordWithoutResidue_valid) ?_
    rw [h, serializeStream, List.flatMap_singleton, serialize_recordWithoutResidue]

/-- Settles O57: NOP ends with `done` on the state it started from. -/
theorem nopResult : Obligations.NopResult := by
  unfold Obligations.NopResult
  exact ⟨rfl, fun s => rfl, fun s _ => ⟨complete s, rfl, complete_err s⟩⟩

end Sys2Proof.Proofs

/-! ## STR.SCAN and the loop of FRM.PARSE (R212) -/

namespace Sys2Proof.Proofs

open Sys2Proof.Machine Sys2Proof.Laws

variable {s t u a b c : State} {cur n m : Nat} {r : Except Failure (List Record)}

/-! ### The host's loop -/

theorem loop_continues_iff (s : State) :
    (!eos s && !errf s) = true ↔ s.rcur ≠ s.srcLen ∧ s.err = 0#32 := by
  simp [eos, errf]

theorem loop_stops_iff (s : State) :
    (!eos s && !errf s) = false ↔ s.rcur = s.srcLen ∨ s.err ≠ 0#32 := by
  rw [← Bool.not_eq_true, loop_continues_iff, not_and_or, not_not]

/-- The host's loop has one end. -/
theorem parseLoop_unique (hb : ParseLoop a n b) (hc : ParseLoop a m c) : n = m ∧ b = c := by
  induction hb generalizing m with
  | stop s h =>
    cases hc with
    | stop => exact ⟨rfl, rfl⟩
    | fail _ _ h' | turn _ _ _ _ h' => simp [h] at h'
  | fail s t h run bad =>
    cases hc with
    | stop _ h' => simp [h] at h'
    | fail _ _ _ run' => exact ⟨rfl, Host.Outcome.next.inj (run.symm.trans run')⟩
    | turn _ _ _ _ _ run' good =>
      cases Host.Outcome.next.inj (run.symm.trans run')
      simp [bad] at good
  | turn s t u n h run good rest ih =>
    cases hc with
    | stop _ h' => simp [h] at h'
    | fail _ _ _ run' bad =>
      cases Host.Outcome.next.inj (run.symm.trans run')
      simp [good] at bad
    | turn _ _ _ _ _ run' _ rest' =>
      cases Host.Outcome.next.inj (run.symm.trans run')
      obtain ⟨rfl, rfl⟩ := ih rest'
      exact ⟨rfl, rfl⟩

/-- What FRM.PARSE keeps the host's loop keeps. -/
theorem parseLoop_keeps {α : Type} (f : State → α)
    (kept : ∀ s t, exec .frmParse s = .next t → f t = f s) (loop : ParseLoop a n b) :
    f b = f a := by
  induction loop with
  | stop => rfl
  | fail s t _ run => exact kept s t run
  | turn s t u n _ run _ _ ih => exact ih.trans (kept s t run)

theorem exec_srcAddr_kept {i : Instr} (run : exec i s = .next t) : t.srcAddr = s.srcAddr := by
  obtain ⟨-, -, -, hsrc, -⟩ := exec_keeps run
  exact hsrc

theorem parseLoop_mem (loop : ParseLoop a n b) : b.mem = a.mem :=
  parseLoop_keeps State.mem (fun _ _ run => exec_mem_kept run (by decide) (by decide)) loop

theorem parseLoop_srcAddr (loop : ParseLoop a n b) : b.srcAddr = a.srcAddr :=
  parseLoop_keeps State.srcAddr (fun _ _ => exec_srcAddr_kept) loop

/-- The record registers and TAGFLAGS describe a record of MEM that ends at the read cursor. -/
structure RecordBehindCursor (s : State) : Prop where
  place : s.recPay.toNat + s.recLen.toNat + 4 = s.srcAddr.toNat + s.rcur.toNat
  record : DenotesRecord s
  flags : s.tagFlags = (Tag.ofBytes (be32Bytes s.recTag)).flags

theorem frmParse_recordBehindCursor (run : exec .frmParse s = .next t) (ok : t.err = 0#32) :
    RecordBehindCursor t := by
  obtain ⟨s', hs, rfl⟩ := exec_succeeds run ok
  have record := hs.frmParse_denotes
  obtain ⟨-, flags⟩ := hs.tagFlags_of_recTag
  cases hs with
  | frmParse x window parsed =>
    obtain ⟨pay, cur, hpay, hcur, hrun⟩ := exec_frmParse_parsed window parsed
    have hstate := Host.Outcome.next.inj (run.symm.trans hrun)
    refine ⟨?_, record, flags⟩
    rw [hstate]
    show pay.toNat + x.length.toNat + 4 = s.srcAddr.toNat + cur.toNat
    omega

theorem parseLoop_recordBehindCursor (loop : ParseLoop a n b)
    (h : 0 < n ∨ RecordBehindCursor a) : RecordBehindCursor b := by
  induction loop with
  | stop => exact h.resolve_left (Nat.lt_irrefl 0)
  | fail s t _ run bad =>
    obtain ⟨k, off, rfl⟩ := exec_fails run ((errf_iff t).1 bad)
    obtain ⟨place, record, flags⟩ := h.resolve_left (Nat.lt_irrefl 0)
    exact ⟨place, record, flags⟩
  | turn s t u n _ run good _ ih =>
    have ok : t.err = 0#32 := by simpa [errf] using good
    exact ih (.inr (frmParse_recordBehindCursor run ok))

/-! ### One turn of both loops -/

/-- Between two commands of the host's script `u` stands at offset `cur` of the slice of `s`. -/
structure AtOffset (s : State) (cur : Nat) (u : State) : Prop where
  err : u.err = 0#32
  errOff : u.errOff = 0#32
  window : srcOk u = true
  srcLen : u.srcLen = s.srcLen
  rcur : u.rcur.toNat = s.rcur.toNat + cur
  slice : slice u = (slice s).drop cur

/-- A cursor inside the window, with MEM and the window unchanged, is at that offset of the
slice. -/
theorem atOffset_intro (window : srcOk s = true) (room : cur ≤ avail s) (err : u.err = 0#32)
    (errOff : u.errOff = 0#32) (srcAddr : u.srcAddr = s.srcAddr) (srcLen : u.srcLen = s.srcLen)
    (memLast : u.memLast = s.memLast) (mem : u.mem = s.mem)
    (rcur : u.rcur.toNat = s.rcur.toNat + cur) : AtOffset s cur u where
  err := err
  errOff := errOff
  window := by
    obtain ⟨-, hmem⟩ := (srcOk_iff s).1 window
    have hle := (rcur_advance window room).2
    rw [srcOk_iff, srcLen, srcAddr, rcur, memBytes, memLast]
    exact ⟨hle, hmem⟩
  srcLen := srcLen
  rcur := rcur
  slice := by
    rw [Machine.slice, Machine.slice, memRead_drop, mem]
    simp only [sliceBase, avail, srcAddr, srcLen, rcur]
    congr 1 <;> omega

theorem AtOffset.trans (h : AtOffset s cur u) (h' : AtOffset u n t) : AtOffset s (cur + n) t where
  err := h'.err
  errOff := h'.errOff
  window := h'.window
  srcLen := h'.srcLen.trans h.srcLen
  rcur := by rw [h'.rcur, h.rcur, Nat.add_assoc]
  slice := by rw [h'.slice, h.slice, List.drop_drop]

theorem AtOffset.avail_eq (h : AtOffset s cur u) : avail u = avail s - cur := by
  rw [← slice_length, h.slice, List.length_drop, slice_length]

theorem AtOffset.rcur_eq_srcLen_iff (h : AtOffset s cur u) :
    u.rcur = u.srcLen ↔ (Machine.slice s).length ≤ cur := by
  obtain ⟨hle, -⟩ := (srcOk_iff u).1 h.window
  have havail := h.avail_eq
  simp only [avail] at havail
  rw [slice_length, ← BitVec.toNat_inj, avail]
  omega

theorem sigChk_atOffset (window : srcOk s = true) (signed : sigOk (slice s) = true)
    (run : exec .sigChk s = .next t) : AtOffset s 8 t := by
  obtain ⟨cur, hcur, hrun⟩ := exec_sigChk_signed window signed
  cases Host.Outcome.next.inj (run.symm.trans hrun)
  exact atOffset_intro window (by simpa using sigOk_length signed) rfl rfl rfl rfl rfl rfl hcur

theorem frmParse_atOffset {x : Record} (h : AtOffset s cur u)
    (parsed : parseRecord ((slice s).drop cur) = .ok x) :
    ∃ t, exec .frmParse u = .next t ∧ AtOffset s (cur + 12 + x.length.toNat) t := by
  rw [← h.slice] at parsed
  obtain ⟨pay, cur', -, hcur, hrun⟩ := exec_frmParse_parsed h.window parsed
  have hend : 12 + x.length.toNat ≤ avail u := by simpa using (parseRecord_ok parsed).1
  refine ⟨_, hrun, ?_⟩
  rw [Nat.add_assoc]
  exact h.trans (atOffset_intro h.window hend rfl rfl rfl rfl rfl rfl
    (hcur.trans (Nat.add_assoc _ _ _)))

/-! ### The two ends -/

/-- How the host's script on the slice of `s` ends, by what parse_stream answers: the number of
successful FRM.PARSE commands and the last state. -/
def EndsAs (s : State) : Except Failure (List Record) → Nat → State → Prop
  | .ok chunks, n, b =>
    n = chunks.length ∧ b.err = 0#32 ∧ b.errOff = 0#32 ∧ b.rcur = s.srcLen
  | .error f, _, b =>
    b.err = f.kind.code ∧ b.errOff = b.rcur ∧ b.rcur.toNat = s.rcur.toNat + f.off

theorem EndsAs.turn (x : Record) (h : EndsAs s r n b) :
    EndsAs s (r.map fun xs => x :: xs) (n + 1) b := by
  cases r with
  | error f => exact h
  | ok chunks =>
    obtain ⟨rfl, herr, hoff, hcur⟩ := h
    exact ⟨rfl, herr, hoff, hcur⟩

/-- Turn by turn the host's loop does what the loop of parse_stream does. -/
theorem StreamLoop.parseLoop (loop : StreamLoop (slice s) cur r) (h : AtOffset s cur u) :
    ∃ n b, ParseLoop u n b ∧ EndsAs s r n b := by
  induction loop generalizing u with
  | ends =>
    have hend : u.rcur = u.srcLen := h.rcur_eq_srcLen_iff.2 (Nat.le_refl _)
    exact ⟨0, u, .stop u ((loop_stops_iff u).2 (.inl hend)), rfl, h.err, h.errOff,
      hend.trans h.srcLen⟩
  | @fails cur k more failed =>
    have hmore : u.rcur ≠ u.srcLen := mt h.rcur_eq_srcLen_iff.1 (by omega)
    have run := exec_frmParse_error h.window (h.slice ▸ failed)
    exact ⟨0, _, .fail u _ ((loop_continues_iff u).2 ⟨hmore, h.err⟩) run
      ((errf_iff _).2 (code_ne_zero k)), rfl, rfl, h.rcur⟩
  | @turn cur x r parsed rest ih =>
    have hmore : u.rcur ≠ u.srcLen :=
      mt h.rcur_eq_srcLen_iff.1 (by have := record_end_le parsed; omega)
    obtain ⟨t, run, ht⟩ := frmParse_atOffset h parsed
    obtain ⟨n, b, hloop, hends⟩ := ih ht
    exact ⟨n + 1, b, .turn u t b n ((loop_continues_iff u).2 ⟨hmore, h.err⟩) run
      (by rw [errf, ht.err]; rfl) hloop, hends.turn x⟩

theorem sigChk_parseLoop (window : srcOk s = true) (run : exec .sigChk s = .next a) :
    ∃ n b, ParseLoop a n b ∧ EndsAs s (parseStream (slice s)) n b := by
  cases signed : sigOk (slice s) with
  | false =>
    cases Host.Outcome.next.inj (run.symm.trans (exec_sigChk_unsigned window signed))
    rw [parseStream_unsigned signed]
    exact ⟨0, _, .stop _ ((loop_stops_iff _).2 (.inr (code_ne_zero .badSignature))), rfl, rfl, rfl⟩
  | true => exact (streamLoop_parseStream signed).parseLoop (sigChk_atOffset window signed run)

/-- What R212 says of the end of the loop and of the state after STR.SCAN, but for the record
registers. -/
structure AgreesWithScan (s : State) (n : Nat) (b t : State) : Prop where
  err : b.err = t.err
  errOff : b.errOff = t.errOff
  success : t.err = 0#32 → n = t.count.toNat ∧ b.rcur = s.srcLen ∧ t.rcur = s.srcLen
  failure : t.err ≠ 0#32 → t = { s with err := t.err, errOff := t.errOff }
  atRecord : t.err ∈ [1#32, 2#32, 3#32] → b.rcur = b.errOff

theorem EndsAs.agreesWithScan (window : srcOk s = true) (run : exec .strScan s = .next t)
    (h : EndsAs s (parseStream (slice s)) n b) : AgreesWithScan s n b t := by
  cases hp : parseStream (slice s) with
  | error f =>
    rw [hp] at h
    obtain ⟨herr, hoff, hcur⟩ := h
    obtain ⟨off, hoff', hrun⟩ := exec_strScan_error window hp
    cases Host.Outcome.next.inj (run.symm.trans hrun)
    exact ⟨herr, hoff.trans (BitVec.eq_of_toNat_eq (hcur.trans hoff'.symm)),
      fun ok => absurd ok (code_ne_zero _), fun _ => rfl, fun _ => hoff.symm⟩
  | ok chunks =>
    rw [hp] at h
    obtain ⟨rfl, herr, hoff, hcur⟩ := h
    obtain ⟨count, hcount, -, hrun⟩ := exec_strScan_parsed window hp
    cases Host.Outcome.next.inj (run.symm.trans hrun)
    exact ⟨herr, hoff, fun _ => ⟨hcount.symm, hcur, rfl⟩, fun bad => absurd rfl bad,
      fun bad => absurd (show (0#32 : Word) ∈ [1#32, 2#32, 3#32] from bad) (by decide)⟩

theorem parseLoop_agreesWithScan (check : exec .sigChk s = .next a)
    (scan : exec .strScan s = .next t) : ∃ n b, ParseLoop a n b ∧ AgreesWithScan s n b t := by
  cases window : srcOk s with
  | true =>
    obtain ⟨n, b, loop, ends⟩ := sigChk_parseLoop window check
    exact ⟨n, b, loop, ends.agreesWithScan window scan⟩
  | false =>
    cases Host.Outcome.next.inj (check.symm.trans (sigChk_bad_source window))
    cases Host.Outcome.next.inj (scan.symm.trans (strScan_bad_source window))
    have bad : (raiseError .accessFault 0 s).err ≠ 0#32 := code_ne_zero .accessFault
    exact ⟨0, _, .stop _ ((loop_stops_iff _).2 (.inr bad)), rfl, rfl, fun ok => absurd ok bad,
      fun _ => rfl,
      fun code => absurd (show (7#32 : Word) ∈ [1#32, 2#32, 3#32] from code) (by decide)⟩

/-- Settles O56: the two loops go turn by turn together, the host's loop has one end, and the last
successful FRM.PARSE leaves its record behind the cursor. -/
theorem scanAgreesWithParseLoop : Obligations.ScanAgreesWithParseLoop := by
  unfold Obligations.ScanAgreesWithParseLoop
  intro s a t check scan
  obtain ⟨n, b, loop, agrees⟩ := parseLoop_agreesWithScan check scan
  refine ⟨⟨n, b, loop⟩, fun n' b' loop' => ?_⟩
  obtain ⟨rfl, rfl⟩ := parseLoop_unique loop loop'
  refine ⟨agrees.err, agrees.errOff, agrees.success, agrees.failure, agrees.atRecord,
    fun hn => ?_⟩
  have hmem : a.mem = s.mem := exec_mem_kept check (by decide) (by decide)
  obtain ⟨place, ⟨letters, crc, -⟩, flags⟩ := parseLoop_recordBehindCursor loop (.inl hn)
  rw [parseLoop_srcAddr loop, exec_srcAddr_kept check] at place
  exact ⟨(parseLoop_mem loop).trans hmem, place, letters, crc, flags⟩

end Sys2Proof.Proofs

/-! # The host-level container (`45_host_container.md`)

## The round trip (R230, R231, R235) -/

namespace Sys2Proof.Proofs

open Sys2Proof.Machine Sys2Proof.Laws

variable {s : List Byte} {cur : Nat} {x : Record} {xs : List Record} {c c' : Container}
  {str : List Byte} {r : Except Failure (List Record)}

/-- Every turn of the loop adds a record that `parse_record` accepted. -/
theorem StreamLoop.records_valid (loop : StreamLoop s cur r) (success : r = .ok xs) :
    ∀ x ∈ xs, x.valid = true := by
  induction loop generalizing xs with
  | ends => cases success; exact List.forall_mem_nil _
  | fails => cases success
  | @turn cur x r parsed rest ih =>
    cases r with
    | error f => cases success
    | ok ys =>
      cases success
      exact List.forall_mem_cons.2 ⟨parseRecord_valid parsed, ih rfl⟩

theorem parseStream_records_valid (h : parseStream s = .ok xs) : ∀ x ∈ xs, x.valid = true := by
  cases signed : sigOk s with
  | false => rw [parseStream_unsigned signed] at h; cases h
  | true => exact (streamLoop_parseStream signed).records_valid h

theorem container_valid_iff :
    c.valid = true ↔ c.signature = sig ∧ ∀ x ∈ c.chunks, x.valid = true := by
  simp [Container.valid]

theorem parseContainer_eq_ok_iff :
    parseContainer s = .ok c ↔ c.signature = sig ∧ parseStream s = .ok c.chunks := by
  obtain ⟨signature, chunks⟩ := c
  rw [parseContainer]
  cases parseStream s with
  | error f => simp
  | ok xs => simp [eq_comm]

/-- With the signature `SIG`, a container is serialised as its chunks are as a stream. -/
theorem serialize_eq_serializeStream (h : c.signature = sig) :
    c.serialize = serializeStream c.chunks := by
  rw [Container.serialize, serializeStream, h]

theorem emptyContainer_valid : emptyContainer.valid = true :=
  container_valid_iff.2 ⟨rfl, List.forall_mem_nil _⟩

theorem append_valid (hc : c.valid = true) (hx : x.valid = true) : (c.append x).valid = true := by
  obtain ⟨signature, chunks⟩ := container_valid_iff.1 hc
  exact container_valid_iff.2
    ⟨signature, List.forall_mem_append.2 ⟨chunks, List.forall_mem_singleton.2 hx⟩⟩

theorem removeByType_missing (h : c.chunkByType str = none) :
    c.removeByType str = .error .noSuchChunk := by
  rw [Container.removeByType, h]

theorem removeByType_present (h : c.chunkByType str = some x) :
    c.removeByType str = .ok { c with chunks := c.chunks.eraseP (Record.named str) } := by
  rw [Container.removeByType, h]

/-- What removal leaves is a part of the chunks, in their order. -/
theorem removeByType_sublist (h : c.removeByType str = .ok c') :
    c'.signature = c.signature ∧ c'.chunks.Sublist c.chunks := by
  cases found : c.chunkByType str with
  | none => rw [removeByType_missing found] at h; cases h
  | some y =>
    rw [removeByType_present found] at h
    cases h
    exact ⟨rfl, List.eraseP_sublist⟩

theorem removeByType_valid (hc : c.valid = true) (h : c.removeByType str = .ok c') :
    c'.valid = true := by
  obtain ⟨signature, chunks⟩ := container_valid_iff.1 hc
  obtain ⟨kept, part⟩ := removeByType_sublist h
  exact container_valid_iff.2 ⟨kept.trans signature, fun x hx => chunks x (part.subset hx)⟩

theorem parseContainer_valid (h : parseContainer s = .ok c) : c.valid = true := by
  obtain ⟨signature, parsed⟩ := parseContainer_eq_ok_iff.1 h
  exact container_valid_iff.2 ⟨signature, parseStream_records_valid parsed⟩

theorem serialize_of_parseContainer (h : parseContainer s = .ok c) : c.serialize = s := by
  obtain ⟨signature, parsed⟩ := parseContainer_eq_ok_iff.1 h
  rw [serialize_eq_serializeStream signature, serializeStream_of_parseStream parsed]

theorem parseContainer_serialize (h : c.valid = true) : parseContainer c.serialize = .ok c := by
  obtain ⟨signature, chunks⟩ := container_valid_iff.1 h
  rw [serialize_eq_serializeStream signature]
  exact parseContainer_eq_ok_iff.2 ⟨signature, parseStream_serializeStream chunks⟩

/-- Settles O60: a container with the signature `SIG` is serialised and parsed as a stream, and each
operation keeps the signature and adds no chunk that is not a record. -/
theorem containerRoundTrip : Obligations.ContainerRoundTrip := by
  unfold Obligations.ContainerRoundTrip
  exact ⟨fun c => rfl, emptyContainer_valid, fun c x => append_valid,
    fun c c' str => removeByType_valid,
    fun s c h => ⟨parseContainer_valid h, serialize_of_parseContainer h⟩,
    fun c => parseContainer_serialize⟩

end Sys2Proof.Proofs

/-! ## Append, lookup and removal (R232, R233, R234) -/

namespace Sys2Proof.Proofs

open Sys2Proof.Machine Sys2Proof.Laws

variable {x y : Record} {before after : List Record} {c : Container} {str : List Byte}

theorem named_iff : x.named str = true ↔ x.tag.bytes = str := beq_iff_eq

theorem chunkByType_eq_none_iff :
    c.chunkByType str = none ↔ ∀ y ∈ c.chunks, y.tag.bytes ≠ str := by
  simp [Container.chunkByType, named_iff]

/-- A record's tag is four letters, so no other text is a record's name. -/
theorem tag_bytes_ne_of_notLetters (hx : x.valid = true) (h : tagOk str = false) :
    x.tag.bytes ≠ str := by
  rintro rfl
  exact absurd (valid_tag hx) (Bool.eq_false_iff.1 h)

section
variable (place : c.chunks = before ++ y :: after) (first : ∀ z ∈ before, z.tag.bytes ≠ str)
  (name : y.tag.bytes = str)
include place first name

theorem chunkByType_first : c.chunkByType str = some y :=
  List.find?_eq_some_iff_append.2 ⟨named_iff.2 name, before, after, place, fun z hz => by
    simp [mt named_iff.1 (first z hz)]⟩

theorem removeByType_first : c.removeByType str = .ok ⟨c.signature, before ++ after⟩ := by
  have others : ∀ z ∈ before, ¬ z.named str = true := fun z hz => mt named_iff.1 (first z hz)
  rw [removeByType_present (chunkByType_first place first name), place,
    List.eraseP_append_right _ others, List.eraseP_cons_of_pos (named_iff.2 name)]

end

/-- Settles O59: lookup is the search for the first match, and removal erases what lookup finds. -/
theorem containerOperations : Obligations.ContainerOperations := by
  unfold Obligations.ContainerOperations
  intro c x str
  refine ⟨rfl, rfl, fun absent => ?_, fun before after y place first name =>
    ⟨chunkByType_first place first name, removeByType_first place first name⟩,
    fun valid notTag => chunkByType_eq_none_iff.2
      fun y hy => tag_bytes_ne_of_notLetters (valid y hy) notTag⟩
  have missing := chunkByType_eq_none_iff.2 absent
  exact ⟨missing, removeByType_missing missing⟩

end Sys2Proof.Proofs

/-! # Errors: the codes a command can leave, and ERR_OFF (`60_exceptions.md`)

## The failures of each command (R251, R252) -/

namespace Sys2Proof.Proofs

open Sys2Proof.Machine Sys2Proof.Laws

variable {i : Instr} {s t : State} {f : Failure}

/-- The commands that check the source window (`20_memory.md` R66). -/
def sourceCommands : List Instr :=
  [.tagLds, .crcBuf, .crcCalc, .frmParse, .frmBuild, .sigChk, .strScan]

/-- The failures that a command can report from `s`, with the tests that `s` passed or failed where
the kind or the offset depends on them.  `exec_raises_or_done` ties it to `exec`. -/
inductive Raises (s : State) : Instr → Failure → Prop where
  | source (i : Instr) (reads : i ∈ sourceCommands) : Raises s i ⟨.accessFault, 0⟩
  | tagChk : Raises s .tagChk ⟨.invalidTag, 0⟩
  | tagLds (window : srcOk s = true) : Raises s .tagLds ⟨.invalidTag, s.rcur.toNat⟩
  | frmParse (k : ErrKind) (window : srcOk s = true) (failed : parseRecord (slice s) = .error k) :
      Raises s .frmParse ⟨k, s.rcur.toNat⟩
  | frmBuildTag : Raises s .frmBuild ⟨.invalidTag, 0⟩
  | frmBuildWindows : Raises s .frmBuild ⟨.accessFault, 0⟩
  | sigChk (window : srcOk s = true) : Raises s .sigChk ⟨.badSignature, s.rcur.toNat⟩
  | sigPut : Raises s .sigPut ⟨.accessFault, 0⟩
  | strScan (k : ErrKind) (off : Nat) (window : srcOk s = true)
      (failed : parseStream (slice s) = .error ⟨k, off⟩) :
      Raises s .strScan ⟨k, s.rcur.toNat + off⟩

/-- A command reports one of its failures, or ends with `done`. -/
theorem exec_raises_or_done (h : exec i s = .next t) :
    (∃ f, Raises s i f ∧ t = raiseError f.kind f.off s) ∨ (t.err = 0#32 ∧ t.errOff = 0#32) := by
  cases i with
  | nop => exact .inr (nop_cases h ▸ ⟨rfl, rfl⟩)
  | tagChk =>
    obtain ⟨-, rfl⟩ | ⟨-, rfl⟩ := tagChk_cases h
    · exact .inl ⟨_, .tagChk, rfl⟩
    · exact .inr ⟨rfl, rfl⟩
  | tagLds =>
    obtain ⟨-, rfl⟩ | ⟨hw, -, rfl⟩ | ⟨-, -, -, rfl⟩ := tagLds_cases h
    · exact .inl ⟨_, .source _ (by decide), rfl⟩
    · exact .inl ⟨_, .tagLds hw, rfl⟩
    · exact .inr ⟨rfl, rfl⟩
  | crcInit => exact .inr (crcInit_cases h ▸ ⟨rfl, rfl⟩)
  | crcByte d => exact .inr (crcByte_cases h ▸ ⟨rfl, rfl⟩)
  | crcBuf =>
    obtain ⟨-, rfl⟩ | ⟨-, rfl⟩ := crcBuf_cases h
    · exact .inl ⟨_, .source _ (by decide), rfl⟩
    · exact .inr ⟨rfl, rfl⟩
  | crcFin => exact .inr (crcFin_cases h ▸ ⟨rfl, rfl⟩)
  | crcCalc =>
    obtain ⟨-, rfl⟩ | ⟨-, rfl⟩ := crcCalc_cases h
    · exact .inl ⟨_, .source _ (by decide), rfl⟩
    · exact .inr ⟨rfl, rfl⟩
  | frmParse =>
    obtain ⟨-, rfl⟩ | ⟨k, hw, hk, rfl⟩ | ⟨-, -, -, rfl⟩ := frmParse_cases h
    · exact .inl ⟨_, .source _ (by decide), rfl⟩
    · exact .inl ⟨_, .frmParse k hw hk, rfl⟩
    · exact .inr ⟨rfl, rfl⟩
  | frmBuild =>
    obtain ⟨-, rfl⟩ | ⟨-, -, rfl⟩ | ⟨-, -, -, rfl⟩ | ⟨-, -, -, -, rfl⟩ := frmBuild_cases h
    · exact .inl ⟨_, .source _ (by decide), rfl⟩
    · exact .inl ⟨_, .frmBuildTag, rfl⟩
    · exact .inl ⟨_, .frmBuildWindows, rfl⟩
    · exact .inr ⟨rfl, rfl⟩
  | sigChk =>
    obtain ⟨-, rfl⟩ | ⟨hw, -, rfl⟩ | ⟨-, -, rfl⟩ := sigChk_cases h
    · exact .inl ⟨_, .source _ (by decide), rfl⟩
    · exact .inl ⟨_, .sigChk hw, rfl⟩
    · exact .inr ⟨rfl, rfl⟩
  | sigPut =>
    obtain ⟨-, rfl⟩ | ⟨-, rfl⟩ := sigPut_cases h
    · exact .inl ⟨_, .sigPut, rfl⟩
    · exact .inr ⟨rfl, rfl⟩
  | strScan =>
    obtain ⟨-, rfl⟩ | ⟨g, hw, hg, rfl⟩ | ⟨-, -, -, rfl⟩ := strScan_cases h
    · exact .inl ⟨_, .source _ (by decide), rfl⟩
    · exact .inl ⟨_, .strScan _ _ hw hg, rfl⟩
    · exact .inr ⟨rfl, rfl⟩

/-! ## Error codes (R251, `10_state.md` R36) -/

/-- The codes of R251 that a failing command can leave in ERR. -/
def errorCodes : Instr → List Word
  | .nop | .crcInit | .crcByte _ | .crcFin => []
  | .tagChk => [1#32]
  | .tagLds | .frmBuild => [1#32, 7#32]
  | .crcBuf | .crcCalc | .sigPut => [7#32]
  | .frmParse => [1#32, 2#32, 3#32, 7#32]
  | .sigChk => [4#32, 7#32]
  | .strScan => [1#32, 2#32, 3#32, 4#32, 7#32]

theorem accessFault_mem_errorCodes : ∀ i ∈ sourceCommands, 7#32 ∈ errorCodes i := by decide

theorem Raises.code_mem (hf : Raises s i f) : f.kind.code ∈ errorCodes i := by
  cases hf with
  | source i reads => exact accessFault_mem_errorCodes i reads
  | frmParse _ _ failed =>
    obtain rfl | rfl | rfl := parseRecord_error failed <;> simp [errorCodes, ErrKind.code]
  | strScan _ _ _ failed =>
    obtain ⟨rfl, -, -⟩ | ⟨-, rfl | rfl | rfl, -⟩ := parseStream_error failed <;>
      simp [errorCodes, ErrKind.code]
  | _ => simp [errorCodes, ErrKind.code]

theorem exec_err_mem (h : exec i s = .next t) : t.err ∈ 0#32 :: errorCodes i := by
  obtain ⟨f, hf, rfl⟩ | ⟨herr, -⟩ := exec_raises_or_done h
  · exact List.mem_cons_of_mem _ hf.code_mem
  · exact List.mem_cons.2 (.inl herr)

/-- Settles O15: 0 or a code of `errorCodes`, which for four commands has none. -/
theorem errorCodesOfEachCommand : Obligations.ErrorCodesOfEachCommand := by
  unfold Obligations.ErrorCodesOfEachCommand
  intro i s t h
  have hmem := exec_err_mem h
  cases i with
  | nop | crcInit | crcByte _ | crcFin => exact List.mem_singleton.1 hmem
  | _ => exact hmem

/-! ## ERR_OFF (R254) -/

theorem code_injective : Function.Injective ErrKind.code := by
  intro a b h
  cases a <;> cases b <;> simp [ErrKind.code] at h ⊢

theorem ne_accessFault_of_code_mem {k : ErrKind} {codes : List Word} (hk : k.code ∈ codes)
    (h7 : 7#32 ∉ codes) : k ≠ .accessFault := by
  rintro rfl
  exact h7 hk

theorem Raises.off_of_accessFault (hf : Raises s i f) (hk : f.kind = .accessFault) : f.off = 0 := by
  cases hf with
  | source | frmBuildWindows | sigPut => rfl
  | frmParse _ _ failed => cases hk; exact absurd (parseRecord_error failed) (by decide)
  | strScan _ _ _ failed =>
    cases hk
    obtain ⟨hk, -⟩ | ⟨-, hk, -⟩ := parseStream_error failed <;> simp at hk
  | _ => cases hk

/-- The tag of TAG.CHK and FRM.BUILD comes from a register, so no failure of theirs has an offset. -/
theorem Raises.off_of_registerTag (hf : Raises s i f) (hi : i = .tagChk ∨ i = .frmBuild) :
    f.off = 0 := by
  cases hf with
  | source | tagChk | frmBuildTag | frmBuildWindows => rfl
  | _ => simp at hi

/-- Behind the window check, TAG.LDS and FRM.PARSE fail at the read cursor. -/
theorem Raises.off_at_cursor (hf : Raises s i f) (hi : i = .tagLds ∨ i = .frmParse)
    (hk : f.kind ≠ .accessFault) : f.off = s.rcur.toNat := by
  cases hf with
  | source => exact absurd rfl hk
  | tagLds | frmParse => rfl
  | _ => simp at hi

/-- The signature is the first thing in the slice, also for STR.SCAN. -/
theorem Raises.off_of_badSignature (hf : Raises s i f) (hk : f.kind = .badSignature) :
    f.off = s.rcur.toNat := by
  cases hf with
  | sigChk => rfl
  | frmParse _ _ failed => cases hk; exact absurd (parseRecord_error failed) (by decide)
  | strScan _ _ _ failed =>
    cases hk
    obtain ⟨-, rfl, -⟩ | ⟨-, hk, -⟩ := parseStream_error failed
    · rfl
    · simp at hk
  | _ => cases hk

/-- Behind the window check, STR.SCAN fails where `parse_stream` does. -/
theorem Raises.strScan_off (hf : Raises s .strScan f) (hk : f.kind ≠ .accessFault) :
    ∃ g, parseStream (slice s) = .error g ∧ g.kind = f.kind ∧ f.off = s.rcur.toNat + g.off := by
  cases hf with
  | source => exact absurd rfl hk
  | strScan _ _ _ failed => exact ⟨_, failed, rfl, rfl⟩

/-- The failing item starts in the source window, or at its end. -/
theorem Raises.off_le_srcLen (hf : Raises s i f) : f.off ≤ s.srcLen.toNat := by
  cases hf with
  | tagLds window | frmParse _ window | sigChk window => exact ((srcOk_iff s).1 window).1
  | strScan _ off window failed =>
    have hoff : off ≤ avail s := by
      obtain ⟨-, rfl, -⟩ | ⟨-, -, hlt⟩ := parseStream_error failed
      · exact Nat.zero_le _
      · exact slice_length s ▸ hlt.le
    exact (rcur_advance window hoff).2
  | _ => exact Nat.zero_le _

/-- The offset fits ERR_OFF. -/
theorem Raises.errOff_toNat (hf : Raises s i f) : (raiseError f.kind f.off s).errOff.toNat = f.off :=
  Nat.mod_eq_of_lt (hf.off_le_srcLen.trans_lt s.srcLen.isLt)

/-- A write to CMD of a word that encodes no command raises IllegalCommand(0) (`30_encoding.md` R98). -/
theorem runEvent_undecodable {w : Word} (hw : ∀ i, decode w ≠ .ok i) (s : State) :
    runEvent (.writeReg 0 w) s = .next (raiseError .illegalCommand 0 s) := by
  cases hd : decode w with
  | ok i => exact absurd hd (hw i)
  | error e => exact runWord_error hd s

/-- Settles O16: the offsets of the failures of each command, which fit ERR_OFF. -/
theorem errorOffsetRule : Obligations.ErrorOffsetRule := by
  unfold Obligations.ErrorOffsetRule
  refine ⟨fun i s t h => ?_, fun s w hw => ⟨_, runEvent_undecodable hw s, rfl, rfl⟩⟩
  obtain ⟨f, hf, rfl⟩ | ⟨herr, hoff⟩ := exec_raises_or_done h
  · have reg : ∀ v : Word, f.off = v.toNat → (raiseError f.kind f.off s).errOff = v :=
      fun v hv => BitVec.eq_of_toNat_eq (hf.errOff_toNat.trans hv)
    refine ⟨fun h0 => absurd h0 (code_ne_zero _),
      fun h7 => reg 0#32 (hf.off_of_accessFault (code_injective h7)),
      fun _ hi => reg 0#32 (hf.off_of_registerTag hi),
      fun h1 hi => reg s.rcur (hf.off_at_cursor (.inl hi)
        (ne_accessFault_of_code_mem (List.mem_singleton.2 h1) (by decide))),
      fun h4 => reg s.rcur (hf.off_of_badSignature (code_injective h4)),
      fun hmem hi => reg s.rcur (hf.off_at_cursor (.inr hi)
        (ne_accessFault_of_code_mem hmem (by decide))),
      ?_, hf.errOff_toNat.trans_le hf.off_le_srcLen⟩
    rintro hmem rfl
    obtain ⟨g, failed, hkind, hoff⟩ :=
      hf.strScan_off (ne_accessFault_of_code_mem hmem (by decide))
    exact ⟨g, failed, congrArg ErrKind.code hkind, hf.errOff_toNat.trans hoff⟩
  · simp [herr, hoff]

end Sys2Proof.Proofs

/-! # Reset and termination (`70_reset_and_hazards.md`)

## Nothing stops a command or an action with a meaning (R290) -/

namespace Sys2Proof.Proofs

open Sys2Proof.Machine Sys2Proof.Laws

variable {s t : State} {e : Event}

theorem conclude_completes (s : State) (r : Except Failure State) : ∃ t, conclude s r = .next t := by
  cases r with
  | ok s' => exact ⟨_, conclude_ok s s'⟩
  | error f => exact ⟨_, conclude_error s f⟩

/-- Settles O13: every command ends in `conclude`, and both its ways are next states. -/
theorem everyCommandCompletes : Obligations.EveryCommandCompletes := by
  unfold Obligations.EveryCommandCompletes
  intro i s
  obtain ⟨r, hr⟩ := exec_concludes i s
  rw [hr]
  exact conclude_completes s r

/-- A word that is no command is an error, not a stop (`30_encoding.md` R98). -/
theorem runWord_completes (w : Word) (s : State) : ∃ t, runWord w s = .next t := by
  cases hd : decode w with
  | ok i =>
    rw [runWord_ok hd]
    exact everyCommandCompletes i s
  | error d => exact ⟨_, runWord_error hd s⟩

theorem hostWrite_completes (n : Nat) (v : Word) (s : State) : ∃ t, hostWrite n v s = .next t := by
  cases hn : Reg.ofNumber n with
  | none => exact ⟨s, hostWrite_outside hn v s⟩
  | some r =>
    by_cases hr : r = .cmd
    · rw [hostWrite, hn, hr]
      exact runWord_completes v s
    · exact ⟨_, hostWrite_register hn hr v s⟩

theorem runEvent_completes (h : e.meaningful (memBytes s) = true) : ∃ t, runEvent e s = .next t := by
  cases e with
  | readReg n => exact ⟨_, rfl⟩
  | writeReg n v => exact hostWrite_completes n v s
  | narrowReg offset bytes => cases h
  | readMem a => exact ⟨_, runEvent_readMem_inside (of_decide_eq_true h)⟩
  | writeMem a b => exact ⟨_, runEvent_writeMem_inside b (of_decide_eq_true h)⟩
  | reset contents => exact ⟨_, rfl⟩

/-- A step takes the oldest action off the list, adds none, and keeps the size of MEM. -/
theorem step_takes_oldest (h : step s = .next t) :
    t.pending = s.pending.tail ∧ memBytes t = memBytes s := by
  obtain ⟨hnil, rfl⟩ | ⟨e, rest, hp, hstep⟩ := step_cases h
  · exact ⟨by rw [hnil, List.tail_nil], rfl⟩
  rw [hp, List.tail_cons]
  obtain ⟨w, i, -, -, hexec⟩ | ⟨w, -, -, rfl⟩ | ⟨n, v, r, -, -, -, rfl⟩ | ⟨n, v, -, -, rfl⟩ |
    ⟨r, rfl⟩ | ⟨a, b, -, -, rfl⟩ | ⟨c, -, rfl⟩ := hstep
  · obtain ⟨hlast, hpending, -⟩ := exec_keeps hexec
    exact ⟨hpending, by rw [memBytes, hlast]; rfl⟩
  · exact ⟨rfl, rfl⟩
  · exact ⟨writeReg_pending _ v r, by rw [memBytes, writeReg_memLast]; rfl⟩
  · exact ⟨rfl, rfl⟩
  · exact ⟨rfl, rfl⟩
  · exact ⟨rfl, rfl⟩
  · exact ⟨rfl, rfl⟩

theorem safe_iff : s.safe = true ↔ ∀ e ∈ s.pending, e.meaningful (memBytes s) = true :=
  List.all_eq_true

theorem step_completes (safe : s.safe = true) : ∃ t, step s = .next t := by
  cases hp : s.pending with
  | nil => exact ⟨s, step_idle hp⟩
  | cons e rest =>
    rw [step_cons hp]
    refine runEvent_completes (safe_iff.1 safe e ?_)
    rw [hp]
    exact List.mem_cons_self

theorem step_keeps_safe (safe : s.safe = true) (h : step s = .next t) : t.safe = true := by
  obtain ⟨hpending, hbytes⟩ := step_takes_oldest h
  rw [safe_iff, hpending, hbytes]
  exact fun e he => safe_iff.1 safe e (List.mem_of_mem_tail he)

/-- Settles O19: the oldest action has a meaning, and those left keep theirs. -/
theorem safeStatesNeverStop : Obligations.SafeStatesNeverStop := by
  unfold Obligations.SafeStatesNeverStop
  intro s safe
  obtain ⟨t, h⟩ := step_completes safe
  exact ⟨t, h, step_keeps_safe safe h⟩

end Sys2Proof.Proofs

/-! ## The commands right after reset (R281) -/

namespace Sys2Proof.Proofs

open Sys2Proof.Machine Sys2Proof.Laws

variable (memLast : Word) (mem : Memory)

/-- The source window is empty and at address 0, so it lies in every MEM. -/
theorem srcOk_launch : srcOk (State.launch memLast mem) = true :=
  (srcOk_iff _).2 ⟨Nat.le_refl 0, Nat.zero_le _⟩

theorem slice_launch : slice (State.launch memLast mem) = [] := slice_of_rcur_eq_srcLen rfl

/-- The destination window is empty, so there is no room in it. -/
theorem dstOk_launch {n : Nat} (hn : 0 < n) : dstOk (State.launch memLast mem) n = false :=
  dstOk_eq_false fun ⟨_, room⟩ => Nat.not_le.2 hn ((Nat.le_add_left _ _).trans room)

theorem tagOk_launch : tagOk (be32Bytes (State.launch memLast mem).tag) = false :=
  show tagOk (be32Bytes 0#32) = false by decide

/-- Settles O58: each command by its outcome on an empty window or on no tag. -/
theorem commandsRightAfterReset : Obligations.CommandsRightAfterReset := by
  unfold Obligations.CommandsRightAfterReset
  intro memLast mem s
  have window : srcOk s = true := srcOk_launch memLast mem
  have empty : slice s = [] := slice_launch memLast mem
  have unsigned : sigOk (slice s) = false := by rw [empty]; rfl
  have noTag : tagOk (be32Bytes s.tag) = false := tagOk_launch memLast mem
  refine ⟨window, fun n => dstOk_launch memLast mem, ?crcBuf, ?crcCalc, ?tagLds, ?frmParse,
    exec_sigChk_unsigned window unsigned, strScan_bad window (parseStream_unsigned unsigned),
    sigPut_bad (dstOk_launch memLast mem (by decide)), frmBuild_bad_tag window noTag,
    exec_tagChk_notLetters noTag, ?crcFin, rfl⟩
  case crcBuf => rw [exec_crcBuf_window window, empty, crcUpdate_nil]; rfl
  case crcCalc => rw [exec_crcCalc_window window, empty]; rfl
  case tagLds => exact exec_tagLds_notLetters window (by rw [empty]; rfl)
  case frmParse =>
    exact exec_frmParse_error window (parseRecord_truncated (by rw [empty]; decide))
  case crcFin =>
    have finished : s.crcAcc ^^^ 0xFFFFFFFF#32 = s.crcOut := BitVec.xor_self
    rw [exec_crcFin, finished]
    rfl

end Sys2Proof.Proofs
